-- ==== Sys2Proof/Word.lean ====
section
/-! DEFINITION. The word types of the AFC004 RS422 framer core and their plainest arithmetic (00_scope.md
rule R17: every quantity is unsigned, bit 0 is the least significant bit). -/

namespace Sys2Proof

/-- One byte of a store, a frame or a stream (20_memory.md rule R50). -/
abbrev Byte := BitVec 8

/-- A 16-bit CRC remainder or seed (00_scope.md rule R12). -/
abbrev Half := BitVec 16

/-- A 32-bit payload word, or the `VAL` of a response (20_memory.md rule R52, 30_encoding.md rule R85). -/
abbrev Word := BitVec 32

/-- A 64-bit command word or response word (30_encoding.md rules R81, R85). -/
abbrev Word64 := BitVec 64

/-- `c[15:8]` of a CRC. -/
def highByte (c : Half) : Byte := c.extractLsb' 8 8

/-- `c[7:0]` of a CRC. -/
def lowByte (c : Half) : Byte := c.extractLsb' 0 8

end Sys2Proof
end

