-- ==== Sys2Proof/Config.lean ====
section
/-! DEFINITION. What an implementation fixes (00_scope.md rules R9 to R12, 10_state.md rules R31 to R34) and the
free values the spec leaves open (93_implementation_defined.md U1, U2, U6, U9). The OPEN parameters are plain
data that pass the configuration check of rules R10 and R33; the free values are opaque constants. -/

namespace Sys2Proof

/-- The two ring buffers (00_scope.md rule R4): the receive buffer `RX` and the transmit buffer `TX`. -/
inductive Buf where
  | rx
  | tx
  deriving DecidableEq, Repr

/-- The byte stores of 10_state.md rule R36 that outlive a command: `data[b]`, and `payload[k]`. -/
inductive StoreId where
  | data (b : Buf)
  | payload (k : Nat)
  deriving DecidableEq, Repr

/-- The preamble byte `0xEA` (00_scope.md rule R9). -/
def preamble : Byte := 0xEA#8

/-- The scanner's threshold `MIN_FRAME` (00_scope.md rule R9, 30_encoding.md rule R77). -/
def minFrame : Nat := 6

/-- The header size `HDR_LEN` (00_scope.md rule R9). -/
def headerLen : Nat := 5

/-- The size `CRC_LEN` of the CRC field (00_scope.md rule R9). -/
def crcLen : Nat := 2

/-- One catalog entry `CFG[k]` (10_state.md rule R31). `maxTicks` is a `TICK_W`-bit number: the configuration
check bounds it. -/
structure CatEntry where
  command : Byte
  leftSource : Byte
  rightSource : Byte
  leftDestination : Byte
  rightDestination : Byte
  length : Byte
  payloadEn : Bool
  maxTicks : Nat
  deriving DecidableEq, Repr

/-- The total frame size `L = length + 6` of an entry (30_encoding.md rules R76, R78). -/
def CatEntry.frameLen (e : CatEntry) : Nat := e.length.toNat + 6

/-- The payload size `length - 1` of an entry (30_encoding.md rule R76). -/
def CatEntry.payloadLen (e : CatEntry) : Nat := e.length.toNat - 1

/-- The parameters of 00_scope.md rule R10, before the configuration check. `NMSG` is the length of `catalog`. -/
structure RawConfig where
  capRx : Nat
  capTx : Nat
  cursorWidth : Nat
  catalog : List CatEntry
  catValid : Bool
  tickWidth : Nat
  payloadMax : Nat
  hasBuilder : Bool
  buildMaxBytes : Nat
  buildMaxWords : Nat
  wordMsbFirst : Bool
  noPayloadSkips : Bool
  deriving DecidableEq, Repr

/-- The well-formedness of one entry (10_state.md rule R33: W1, W2, W3; R31: `maxTicks` is `TICK_W` bits). -/
def RawConfig.entryOk (c : RawConfig) (e : CatEntry) : Bool :=
  decide (1 ≤ e.length.toNat) && decide (e.frameLen ≤ c.capRx - 1) &&
  decide (e.payloadLen ≤ c.payloadMax) && decide (e.maxTicks < 2 ^ c.tickWidth)

/-- The constraint of 00_scope.md rule R10 on the builder's maxima, its default included, which is 0 words when
`BUILD_MAX_BYTES < 7` (log 13). -/
def RawConfig.builderOk (c : RawConfig) : Bool :=
  decide (c.buildMaxBytes ≤ c.capTx) && decide (c.buildMaxWords ≤ 255) &&
  (decide (7 + 4 * c.buildMaxWords ≤ c.buildMaxBytes) ||
    (decide (c.buildMaxWords = 0) && decide (c.buildMaxBytes < 7)))

/-- The model's configuration check: the constraints of 00_scope.md rule R10 and 10_state.md rule R33
(93_implementation_defined.md U8: a configuration that breaks one is refused). -/
def RawConfig.check (c : RawConfig) : Bool :=
  decide (2 ≤ c.capRx) && decide (c.capRx ≤ 65536) && decide (2 ≤ c.capTx) && decide (c.capTx ≤ 65536) &&
  decide (c.capRx ≤ 2 ^ c.cursorWidth) && decide (c.capTx ≤ 2 ^ c.cursorWidth) &&
  decide (c.catalog.length ≤ 256) && decide (1 ≤ c.tickWidth) && decide (c.tickWidth ≤ 32) &&
  decide (254 ≤ c.payloadMax) && c.builderOk && c.catalog.all c.entryOk

/-- A configuration that passed the check, once and for good (00_scope.md rule R11: nothing changes it). -/
structure Config extends RawConfig where
  ok : toRawConfig.check = true
  deriving DecidableEq, Repr

/-- `NMSG` (00_scope.md rule R10). -/
def Config.nmsg (c : Config) : Nat := c.catalog.length

/-- `CAP[b]` (00_scope.md rule R10). -/
def Config.cap (c : Config) : Buf → Nat
  | .rx => c.capRx
  | .tx => c.capTx

/-- What `CFG[k]` reads as where there is no entry `k`: no command uses it (every index is below `NMSG`). -/
def CatEntry.blank : CatEntry :=
  { command := 0, leftSource := 0, rightSource := 0, leftDestination := 0, rightDestination := 0,
    length := 0, payloadEn := false, maxTicks := 0 }

/-- `CFG[k]`. -/
def Config.entry (c : Config) (k : Nat) : CatEntry := c.catalog.getD k CatEntry.blank

/-- The default of `BUILD_MAX_WORDS` for a value of `BUILD_MAX_BYTES` (00_scope.md rule R10). -/
def defaultBuildMaxWords (maxBytes : Nat) : Nat := if maxBytes < 7 then 0 else min 255 ((maxBytes - 7) / 4)

/-- The test configuration TC of 95_test_vectors.md section 1.1, before the check. -/
def testRaw : RawConfig :=
  { capRx := 32, capTx := 32, cursorWidth := 16,
    catalog :=
      [{ command := 0x32, leftSource := 0x81, rightSource := 0x82, leftDestination := 0x51,
         rightDestination := 0x52, length := 0x15, payloadEn := true, maxTicks := 3 },
       { command := 0x07, leftSource := 0x81, rightSource := 0x82, leftDestination := 0x51,
         rightDestination := 0x52, length := 0x01, payloadEn := false, maxTicks := 5 },
       { command := 0x40, leftSource := 0x91, rightSource := 0x92, leftDestination := 0x61,
         rightDestination := 0x62, length := 0x05, payloadEn := true, maxTicks := 2 }],
    catValid := true, tickWidth := 32, payloadMax := 254, hasBuilder := true,
    buildMaxBytes := 32, buildMaxWords := defaultBuildMaxWords 32,
    wordMsbFirst := true, noPayloadSkips := true }

/-- TC, the configuration `State.reset` shows the block in. DESIGN CHOICE (log 1): the spec leaves every
parameter OPEN and gives TC as its one instance; nothing stated of the machine rests on it. -/
def Config.test : Config := { testRaw with ok := by decide }

/-- An external CRC primitive with its seed, of which exactly the three laws of 00_scope.md rule R12 may be
assumed. The default values below only show that the laws can be met. -/
structure LawfulCrc where
  /-- `CRC16(bytes, seed)`. -/
  fn : List Byte → Half → Half := fun _ s => s
  /-- `CRC_SEED`. -/
  seed : Half := 0
  /-- L1, seeded continuation. -/
  append : ∀ (a b : List Byte) (s : Half), fn (a ++ b) s = fn b (fn a s) := by intros; rfl
  /-- L2, empty input. -/
  nil : ∀ s : Half, fn [] s = s := by intros; rfl
  /-- L3, sealing: a message followed by its big-endian CRC has remainder zero. -/
  sealing : ∀ m : List Byte, fn (m ++ [highByte (fn m seed), lowByte (fn m seed)]) seed = 0 := by intros; rfl
  deriving Inhabited

/-- The block's CRC primitive and seed: OPEN parameters of the spec (93_implementation_defined.md U2), held as an
opaque constant, so that a claim holds for every lawful one (log 2). -/
opaque Config.crc : LawfulCrc

/-- FREE VALUE. What a byte of a store holds before anything has written it since reset number `epoch`
(10_state.md rule R41, 93_implementation_defined.md U1, log 3). -/
opaque Config.initialByte : (epoch : Nat) → (store : StoreId) → (index : Nat) → Byte

/-- FREE VALUE. What byte `index` of the builder's scratch `F` holds in build number `build` when that build has
not written it (10_state.md rule R35, 93_implementation_defined.md U6, log 4). -/
opaque Config.scratchByte : (build : Nat) → (index : Nat) → Byte

/-- FREE VALUE. Whether, at the `n`-th time two commands arrive together, the transport port's goes first
(20_memory.md rule R62, 93_implementation_defined.md U9, log 7). -/
opaque Config.transportFirst : (n : Nat) → Bool

end Sys2Proof
end

