-- ==== Sys2Proof/Syntax.lean ====
section
/-! DEFINITION. The fifteen commands of the block (30_encoding.md rule R80), one constructor per row of
spec/opcode_table.json, with the operands of 30_encoding.md rules R82, R83, R87, and the three pseudo-commands of
rule R103. -/

namespace Sys2Proof

/-- A command with its operands. `buf` is the raw 4-bit `BUF` (2 to 15 are legal encodings that name no buffer),
`k` the raw 8-bit message index, `src` and `words` the input list on `DIN`. -/
inductive Instr where
  /-- `RB.PUSH b, byte` (40_ring_buffer.md rule R116). -/
  | rbPush (buf : BitVec 4) (byte : Byte)
  /-- `RB.POP b` (rule R118). -/
  | rbPop (buf : BitVec 4)
  /-- `RB.PEEK b, offset` (rule R120). -/
  | rbPeek (buf : BitVec 4) (offset : Word)
  /-- `RB.ADV b, n` (rule R122). -/
  | rbAdv (buf : BitVec 4) (n : Word)
  /-- `RB.FOUT b, n` (rule R124). -/
  | rbFout (buf : BitVec 4) (n : Word)
  /-- `RB.FIN b, [src]` (rule R127). -/
  | rbFin (buf : BitVec 4) (n : Word) (src : List Byte)
  /-- `RB.USED b` (rule R112). -/
  | rbUsed (buf : BitVec 4)
  /-- `RB.RESET b` (rule R130). -/
  | rbReset (buf : BitVec 4)
  /-- `FS.SCAN` (41_frame_scanner.md rule R141). -/
  | fsScan
  /-- `CV.CRC n` (42_crc_validator.md rule R170). -/
  | cvCrc (n : Word)
  /-- `PL.READ k, off` (42_crc_validator.md rule R172). -/
  | plRead (k : BitVec 8) (off : Word)
  /-- `TM.TICK` (43_timeout_monitor.md rule R182). -/
  | tmTick
  /-- `TM.STAT k` (43_timeout_monitor.md rule R186). -/
  | tmStat (k : BitVec 8)
  /-- `TM.ELAPSED k` (43_timeout_monitor.md rule R187). -/
  | tmElapsed (k : BitVec 8)
  /-- `FB.BUILD sdi, k, nbf, words` (44_frame_builder.md rule R195). -/
  | fbBuild (sdi : BitVec 4) (k : BitVec 8) (wnull : Bool) (nw : BitVec 8) (nbf : Word) (words : List Word)
  deriving DecidableEq, Repr

/-- `RB.DRAIN b` (30_encoding.md rule R103). -/
def Instr.rbDrain (buf : BitVec 4) : Instr := .rbAdv buf 0xFFFFFFFF#32

/-- `RB.PUSHS b, [b0 .. bm]` (30_encoding.md rule R103). -/
def Instr.rbPushs (buf : BitVec 4) (bytes : List Byte) : List Instr := bytes.map (.rbPush buf)

/-- `TM.TICKS c` (30_encoding.md rule R103). -/
def Instr.tmTicks (c : Nat) : List Instr := List.replicate c .tmTick

end Sys2Proof
end

