-- ==== Sys2Proof/WellFormed.lean ====
section
/-! DEFINITION. Which terms of `Instr` are commands: the input list has exactly the stated length (30_encoding.md
rule R87). The check on configurations is `RawConfig.check`. -/

namespace Sys2Proof

/-- How many words the input list of `FB.BUILD` must have (30_encoding.md rule R87). -/
def buildListLen (wnull : Bool) (nw : BitVec 8) : Nat := if wnull then 0 else nw.toNat

/-- A command whose input list has the right length (30_encoding.md rule R87). Every other operand fills its field,
so any value of it is legal. -/
def Instr.wf : Instr → Bool
  | .rbPush _ _ => true
  | .rbPop _ => true
  | .rbPeek _ _ => true
  | .rbAdv _ _ => true
  | .rbFout _ _ => true
  | .rbFin _ n src => src.length == n.toNat
  | .rbUsed _ => true
  | .rbReset _ => true
  | .fsScan => true
  | .cvCrc _ => true
  | .plRead _ _ => true
  | .tmTick => true
  | .tmStat _ => true
  | .tmElapsed _ => true
  | .fbBuild _ _ wnull nw _ words => words.length == buildListLen wnull nw

end Sys2Proof
end

