-- ==== Sys2Proof/Decode.lean ====
section
/-! DEFINITION. The command word, its fields and formats (30_encoding.md rules R80 to R83, R87, R98), the decoder,
total on any word and input list, the machine-readable opcode table, and the encoder. -/

namespace Sys2Proof

/-- The input streams beside a command word (30_encoding.md rule R87, 00_scope.md section 5): the byte list of
`RB.FIN` and the word list of `FB.BUILD`. Every other command has both empty (log 10). -/
structure Din where
  bytes : List Byte
  words : List Word
  deriving DecidableEq, Repr

/-- The empty input list. -/
def Din.empty : Din := { bytes := [], words := [] }

/-- A command as an agent presents it: the pair (command word, input list) of 30_encoding.md rule R87. -/
structure Command where
  word : Word64
  din : Din
  deriving DecidableEq, Repr

/-- The five fields of a command word (30_encoding.md rule R81). -/
structure Fields where
  opc : BitVec 8
  sel : BitVec 4
  idx : BitVec 8
  aux : BitVec 12
  opd : Word
  deriving DecidableEq, Repr

/-- `OPC = W[63:56]`, `SEL = W[55:52]`, `IDX = W[51:44]`, `AUX = W[43:32]`, `OPD = W[31:0]` (rule R81). -/
def fieldsOf (w : Word64) : Fields :=
  { opc := w.extractLsb' 56 8, sel := w.extractLsb' 52 4, idx := w.extractLsb' 44 8,
    aux := w.extractLsb' 32 12, opd := w.extractLsb' 0 32 }

/-- The command word with the given fields (rule R81). -/
def wordOfFields (f : Fields) : Word64 := f.opc ++ f.sel ++ f.idx ++ f.aux ++ f.opd

/-- Format N of rule R82: no operand. -/
def formatN (f : Fields) : Bool := f.sel == 0#4 && f.idx == 0#8 && f.aux == 0#12 && f.opd == 0#32

/-- Format B of rule R82: `BUF`. -/
def formatB (f : Fields) : Bool := f.idx == 0#8 && f.aux == 0#12 && f.opd == 0#32

/-- Format BO of rule R82: `BUF` and a 32-bit operand. -/
def formatBO (f : Fields) : Bool := f.idx == 0#8 && f.aux == 0#12

/-- Format BO as `RB.PUSH` uses it: the byte in `OPD[7:0]`, `OPD[31:8]` must be 0 (rule R82). -/
def formatPush (f : Fields) : Bool := formatBO f && f.opd.extractLsb' 8 24 == 0#24

/-- Format O of rule R82: a 32-bit operand. -/
def formatO (f : Fields) : Bool := f.sel == 0#4 && f.idx == 0#8 && f.aux == 0#12

/-- Format M of rule R82: `k`. -/
def formatM (f : Fields) : Bool := f.sel == 0#4 && f.aux == 0#12 && f.opd == 0#32

/-- Format MO of rule R82: `k` and a 32-bit operand. -/
def formatMO (f : Fields) : Bool := f.sel == 0#4 && f.aux == 0#12

/-- Format F of rule R82: `AUX[11:9]` must be 0. -/
def formatF (f : Fields) : Bool := f.aux.extractLsb' 9 3 == 0#3

/-- `WNULL = AUX[8]` (rule R82). -/
def wnullOf (f : Fields) : Bool := f.aux.getLsbD 8

/-- `NW = AUX[7:0]` (rule R82). -/
def nwOf (f : Fields) : BitVec 8 := f.aux.extractLsb' 0 8

/-- The command `i` where the format and the input list allow it, otherwise no command (rule R98). -/
def commandIf (legal : Bool) (i : Instr) : Option Instr := if legal then some i else none

/-- The decoder (rules R80, R82, R87, R98 cases a, b, c): `none` for every pair that is not a command. Cases d and e
of rule R98 depend on the configuration and on the port and are tested by the meanings. -/
def decode (c : Command) : Option Instr :=
  let f := fieldsOf c.word
  if f.opc = 0x10#8 then commandIf (formatPush f && c.din == Din.empty) (.rbPush f.sel (f.opd.extractLsb' 0 8))
  else if f.opc = 0x11#8 then commandIf (formatB f && c.din == Din.empty) (.rbPop f.sel)
  else if f.opc = 0x12#8 then commandIf (formatBO f && c.din == Din.empty) (.rbPeek f.sel f.opd)
  else if f.opc = 0x13#8 then commandIf (formatBO f && c.din == Din.empty) (.rbAdv f.sel f.opd)
  else if f.opc = 0x14#8 then commandIf (formatBO f && c.din == Din.empty) (.rbFout f.sel f.opd)
  else if f.opc = 0x15#8 then
    commandIf (formatBO f && c.din.words == [] && c.din.bytes.length == f.opd.toNat)
      (.rbFin f.sel f.opd c.din.bytes)
  else if f.opc = 0x16#8 then commandIf (formatB f && c.din == Din.empty) (.rbUsed f.sel)
  else if f.opc = 0x17#8 then commandIf (formatB f && c.din == Din.empty) (.rbReset f.sel)
  else if f.opc = 0x20#8 then commandIf (formatN f && c.din == Din.empty) .fsScan
  else if f.opc = 0x21#8 then commandIf (formatO f && c.din == Din.empty) (.cvCrc f.opd)
  else if f.opc = 0x22#8 then commandIf (formatMO f && c.din == Din.empty) (.plRead f.idx f.opd)
  else if f.opc = 0x30#8 then commandIf (formatN f && c.din == Din.empty) .tmTick
  else if f.opc = 0x31#8 then commandIf (formatM f && c.din == Din.empty) (.tmStat f.idx)
  else if f.opc = 0x32#8 then commandIf (formatM f && c.din == Din.empty) (.tmElapsed f.idx)
  else if f.opc = 0x40#8 then
    commandIf (formatF f && c.din.bytes == [] && c.din.words.length == buildListLen (wnullOf f) (nwOf f))
      (.fbBuild f.sel f.idx (wnullOf f) (nwOf f) f.opd c.din.words)
  else none

/-- One row of spec/opcode_table.json: a word is the row's when `word AND mask = match`. -/
structure OpcodeRow where
  mnemonic : String
  value : Word64
  mask : Word64
  deriving DecidableEq, Repr

/-- spec/opcode_table.json, row for row. -/
def opcodeTable : List OpcodeRow :=
  [{ mnemonic := "RB.PUSH", value := 0x1000000000000000#64, mask := 0xFF0FFFFFFFFFFF00#64 },
   { mnemonic := "RB.POP", value := 0x1100000000000000#64, mask := 0xFF0FFFFFFFFFFFFF#64 },
   { mnemonic := "RB.PEEK", value := 0x1200000000000000#64, mask := 0xFF0FFFFF00000000#64 },
   { mnemonic := "RB.ADV", value := 0x1300000000000000#64, mask := 0xFF0FFFFF00000000#64 },
   { mnemonic := "RB.FOUT", value := 0x1400000000000000#64, mask := 0xFF0FFFFF00000000#64 },
   { mnemonic := "RB.FIN", value := 0x1500000000000000#64, mask := 0xFF0FFFFF00000000#64 },
   { mnemonic := "RB.USED", value := 0x1600000000000000#64, mask := 0xFF0FFFFFFFFFFFFF#64 },
   { mnemonic := "RB.RESET", value := 0x1700000000000000#64, mask := 0xFF0FFFFFFFFFFFFF#64 },
   { mnemonic := "FS.SCAN", value := 0x2000000000000000#64, mask := 0xFFFFFFFFFFFFFFFF#64 },
   { mnemonic := "CV.CRC", value := 0x2100000000000000#64, mask := 0xFFFFFFFF00000000#64 },
   { mnemonic := "PL.READ", value := 0x2200000000000000#64, mask := 0xFFF00FFF00000000#64 },
   { mnemonic := "TM.TICK", value := 0x3000000000000000#64, mask := 0xFFFFFFFFFFFFFFFF#64 },
   { mnemonic := "TM.STAT", value := 0x3100000000000000#64, mask := 0xFFF00FFFFFFFFFFF#64 },
   { mnemonic := "TM.ELAPSED", value := 0x3200000000000000#64, mask := 0xFFF00FFFFFFFFFFF#64 },
   { mnemonic := "FB.BUILD", value := 0x4000000000000000#64, mask := 0xFF000E0000000000#64 }]

/-- The mnemonic of a command, as spec/opcode_table.json spells it. -/
def Instr.mnemonic : Instr → String
  | .rbPush _ _ => "RB.PUSH"
  | .rbPop _ => "RB.POP"
  | .rbPeek _ _ => "RB.PEEK"
  | .rbAdv _ _ => "RB.ADV"
  | .rbFout _ _ => "RB.FOUT"
  | .rbFin _ _ _ => "RB.FIN"
  | .rbUsed _ => "RB.USED"
  | .rbReset _ => "RB.RESET"
  | .fsScan => "FS.SCAN"
  | .cvCrc _ => "CV.CRC"
  | .plRead _ _ => "PL.READ"
  | .tmTick => "TM.TICK"
  | .tmStat _ => "TM.STAT"
  | .tmElapsed _ => "TM.ELAPSED"
  | .fbBuild _ _ _ _ _ _ => "FB.BUILD"

/-- `OPC` of a command (30_encoding.md rule R80). -/
def Instr.opcode : Instr → BitVec 8
  | .rbPush _ _ => 0x10#8
  | .rbPop _ => 0x11#8
  | .rbPeek _ _ => 0x12#8
  | .rbAdv _ _ => 0x13#8
  | .rbFout _ _ => 0x14#8
  | .rbFin _ _ _ => 0x15#8
  | .rbUsed _ => 0x16#8
  | .rbReset _ => 0x17#8
  | .fsScan => 0x20#8
  | .cvCrc _ => 0x21#8
  | .plRead _ _ => 0x22#8
  | .tmTick => 0x30#8
  | .tmStat _ => 0x31#8
  | .tmElapsed _ => 0x32#8
  | .fbBuild _ _ _ _ _ _ => 0x40#8

/-- The fields of a command (30_encoding.md rule R82): a field its format does not use is zero. -/
def encodeFields (i : Instr) : Fields :=
  let z : Fields := { opc := i.opcode, sel := 0#4, idx := 0#8, aux := 0#12, opd := 0#32 }
  match i with
  | .rbPush buf byte => { z with sel := buf, opd := 0#24 ++ byte }
  | .rbPop buf => { z with sel := buf }
  | .rbPeek buf offset => { z with sel := buf, opd := offset }
  | .rbAdv buf n => { z with sel := buf, opd := n }
  | .rbFout buf n => { z with sel := buf, opd := n }
  | .rbFin buf n _ => { z with sel := buf, opd := n }
  | .rbUsed buf => { z with sel := buf }
  | .rbReset buf => { z with sel := buf }
  | .fsScan => z
  | .cvCrc n => { z with opd := n }
  | .plRead k off => { z with idx := k, opd := off }
  | .tmTick => z
  | .tmStat k => { z with idx := k }
  | .tmElapsed k => { z with idx := k }
  | .fbBuild sdi k wnull nw nbf _ =>
      { z with sel := sdi, idx := k, aux := 0#3 ++ BitVec.ofBool wnull ++ nw, opd := nbf }

/-- The input list of a command (30_encoding.md rule R87). -/
def dinOf : Instr → Din
  | .rbFin _ _ src => { bytes := src, words := [] }
  | .fbBuild _ _ _ _ _ words => { bytes := [], words := words }
  | .rbPush _ _ => Din.empty
  | .rbPop _ => Din.empty
  | .rbPeek _ _ => Din.empty
  | .rbAdv _ _ => Din.empty
  | .rbFout _ _ => Din.empty
  | .rbUsed _ => Din.empty
  | .rbReset _ => Din.empty
  | .fsScan => Din.empty
  | .cvCrc _ => Din.empty
  | .plRead _ _ => Din.empty
  | .tmTick => Din.empty
  | .tmStat _ => Din.empty
  | .tmElapsed _ => Din.empty

/-- The encoder: the command word and the input list of a command. -/
def encode (i : Instr) : Command := { word := wordOfFields (encodeFields i), din := dinOf i }

/-- The input list a bare command word is given where the host presents only the word: zeros, as many as the word
asks for (rule R87, log 15). -/
def zeroDin (w : Word64) : Din :=
  let f := fieldsOf w
  if f.opc = 0x15#8 then { bytes := List.replicate f.opd.toNat 0#8, words := [] }
  else if f.opc = 0x40#8 then { bytes := [], words := List.replicate (buildListLen (wnullOf f) (nwOf f)) 0#32 }
  else Din.empty

/-- The command whose word has the `nbits` low bits of `w` and zeros above, with an input list of zeros. -/
def tableCommand (nbits w : Nat) : Command :=
  let word := BitVec.ofNat 64 (w % 2 ^ nbits)
  { word := word, din := zeroDin word }

/-- What the decoder reads from a word numbered as spec/opcode_table.json numbers it (log 15). -/
def decodeTableWord (nbits w : Nat) : Option Instr := decode (tableCommand nbits w)

end Sys2Proof
end

