-- ==== Sys2Proof/Machine/State.lean ====
section
/-! DEFINITION. The state of the block as plain data (10_state.md rule R20), the host side of its two ports, the
reset state (10_state.md rules R40 to R46), and the reasons a step can stop. -/

namespace Sys2Proof.Machine

/-- A byte store: the bytes written since reset, as (index, byte) pairs with strictly rising indices. An index that
is not listed has not been written and holds no value of the model's (10_state.md rule R41, log 3). -/
abbrev Memory := List Host.Cell

/-- One ring buffer (10_state.md rule R21). The cursors are `CW`-bit registers, held as numbers; a value of `CAP` or
more is representable (10_state.md rule R22). -/
structure RingBuf where
  data : Memory
  head : Nat
  tail : Nat
  deriving DecidableEq, Repr

/-- The state of one monitored message (10_state.md rules R25 to R27). `elapsed` is a `TICK_W`-bit counter, held as
a number below `2 ^ TICK_W`. -/
structure MsgState where
  elapsed : Nat
  busFailed : Bool
  payload : Memory
  payloadLen : Byte
  deriving DecidableEq, Repr

/-- The two command ports (00_scope.md rule R14): `T`, the transport agent's, and `M`, the main agent's. -/
inductive Port where
  | T
  | M
  deriving DecidableEq, Repr

/-- What the outside presents to the block next (00_scope.md rule R14, 20_memory.md rule R62, 70_reset_and_hazards.md
rule R240). -/
inductive Arrival where
  /-- A command on the T port. -/
  | transport (c : Command)
  /-- A command on the M port. -/
  | main (c : Command)
  /-- A command on each port, arriving together: the block may take either first (rule R62). -/
  | both (t m : Command)
  /-- The reset input is asserted (rule R240). -/
  | reset
  deriving DecidableEq, Repr

/-- A response as an agent receives it: the response word and the output list (30_encoding.md rules R85, R87), with
the port it is returned on. -/
structure Response where
  port : Port
  word : Word64
  dout : List Byte
  deriving DecidableEq, Repr

/-- Why a step faults: never. Every failure path of the block returns a status value (00_scope.md rule R15,
60_exceptions.md rule R215), and no command can name an address outside a store (10_state.md rule R36). -/
inductive Fault where
  deriving DecidableEq, Repr

/-- Why the model refuses a step. Each is a case whose treatment 93_implementation_defined.md gives as `refuse`. -/
inductive Refusal where
  /-- Raised by an arm of `exec` whose instruction has no meaning yet: none is left. Safe. -/
  | notModelled (mnemonic : String)
  /-- Raised by every command that uses buffer `b`, except `RB.FOUT`, `RB.FIN` and `RB.RESET`, when a cursor of `b` is
  outside `0 .. CAP[b]-1` (93_implementation_defined.md U3). Not reachable from reset. Safe. -/
  | cursorOutOfRange (b : Buf)
  /-- Raised by `FB.BUILD` when bit 31 of an input word is set (44_frame_builder.md rule R199,
  93_implementation_defined.md U5). Safe. -/
  | parityBitSet
  deriving DecidableEq, Repr

/-- The state of the block. `cfg` is configuration, constant (rule R20, log 1); the fields from `epoch` on are the
model's own: the counters of the free values and the host side of the ports (logs 3, 4, 7, 8, 9). -/
structure State where
  /-- The configuration. -/
  cfg : Config
  /-- The receive buffer `RX`. -/
  rx : RingBuf
  /-- The transmit buffer `TX`. -/
  tx : RingBuf
  /-- The message states, `NMSG` of them. -/
  msgs : List MsgState
  /-- How many times the reset input has been asserted (selects the free initial contents). -/
  epoch : Nat
  /-- How many frames `FB.BUILD` has built (selects the free scratch bytes). -/
  builds : Nat
  /-- How many times two commands arrived together (selects the free arbitration). -/
  arbiter : Nat
  /-- The port of the command being executed. -/
  port : Port
  /-- What the outside presents, first to come first. -/
  pending : List Arrival
  /-- The responses returned, oldest first. -/
  responses : List Response
  deriving DecidableEq, Repr

/-- A ring buffer after reset (10_state.md rules R40, R41). -/
def RingBuf.reset : RingBuf := { data := [], head := 0, tail := 0 }

/-- A message state after reset (10_state.md rules R41 to R44). -/
def MsgState.reset : MsgState := { elapsed := 0, busFailed := true, payload := [], payloadLen := 0 }

/-- The reset state of a block with configuration `c` (10_state.md rule R46). -/
def State.resetWith (c : Config) : State :=
  { cfg := c, rx := RingBuf.reset, tx := RingBuf.reset, msgs := List.replicate c.nmsg MsgState.reset,
    epoch := 0, builds := 0, arbiter := 0, port := .M, pending := [], responses := [] }

/-- The machine right after reset, in the spec's test configuration TC (log 1). -/
def State.reset : State := State.resetWith Config.test

end Sys2Proof.Machine
end

