-- ==== Sys2Proof/Machine/Ops.lean ====
section
/-! DEFINITION. The named operations over the byte stores, the ring buffers, the message states and the responses
(00_scope.md section 5, 40_ring_buffer.md rules R110 to R127, 30_encoding.md rules R85, R86, 42_crc_validator.md
rule R162), and the two ways a command is turned away (60_exceptions.md rules R215, R216, R221, R224). -/

namespace Sys2Proof.Machine

/-- What a step or a meaning answers. -/
abbrev Result := Host.Outcome State Fault Refusal

/-! ## Byte stores -/

/-- The canonical form of a store: strictly rising indices. No entry can equal what an unlisted index reads as,
because an unlisted index reads as no value. -/
abbrev Memory.wf (m : Memory) : Prop := m.Pairwise (fun x y => x.1 < y.1)

/-- What has been written at index `a` since reset, if anything. -/
def Memory.read : Memory → Nat → Option Byte
  | [], _ => none
  | (a', b) :: m, a => if a' = a then some b else Memory.read m a

/-- The store with byte `b` at index `a`. -/
def Memory.write : Memory → Nat → Byte → Memory
  | [], a, b => [(a, b)]
  | (a', b') :: m, a, b =>
    if a < a' then (a, b) :: (a', b') :: m
    else if a = a' then (a, b) :: m
    else (a', b') :: Memory.write m a b

/-- The byte at index `a`: the one written last, or the free initial content `fill a`
(93_implementation_defined.md U1). -/
def Memory.byteAt (fill : Nat → Byte) (m : Memory) (a : Nat) : Byte := (Memory.read m a).getD (fill a)

/-- `MemRead(p, n)` (00_scope.md section 5): the `n` bytes at `p, p+1, ...`; it never wraps. -/
def memRead (fill : Nat → Byte) (m : Memory) (p n : Nat) : List Byte :=
  (List.range n).map fun j => Memory.byteAt fill m (p + j)

/-- `MemWrite(p, n, v)` with `n` the length of `v` (00_scope.md section 5): it never wraps. -/
def memWrite (m : Memory) (p : Nat) : List Byte → Memory
  | [] => m
  | b :: bs => memWrite (Memory.write m p b) (p + 1) bs

/-! ## Ring buffers -/

/-- Both cursors lie in `0 .. CAP-1` (10_state.md rule R22). -/
def cursorsInRange (cap : Nat) (r : RingBuf) : Bool := decide (r.head < cap) && decide (r.tail < cap)

/-- `Used(b)` (40_ring_buffer.md rule R112). -/
def used (cap : Nat) (r : RingBuf) : Nat :=
  if r.tail ≤ r.head then r.head - r.tail else cap - (r.tail - r.head)

/-- `Free(b)` (40_ring_buffer.md rule R113). -/
def free (cap : Nat) (r : RingBuf) : Nat := cap - 1 - used cap r

/-- `Runs(b, start, len)` (40_ring_buffer.md rule R114): at most two contiguous runs, each a (start, length) pair. -/
def runs (cap start len : Nat) : (Nat × Nat) × (Nat × Nat) :=
  if start + len ≤ cap then ((start, len), (0, 0)) else ((start, cap - start), (0, len - (cap - start)))

/-- The bytes of a logical range in logical order: `MemRead` of its runs (40_ring_buffer.md rule R114). -/
def readRange (cap : Nat) (fill : Nat → Byte) (m : Memory) (start len : Nat) : List Byte :=
  let rs := runs cap start len
  memRead fill m rs.1.1 rs.1.2 ++ memRead fill m rs.2.1 rs.2.2

/-- A logical range written through its runs, the bytes taken from `src` in order (40_ring_buffer.md rule R127). -/
def writeRange (cap : Nat) (m : Memory) (start len : Nat) (src : List Byte) : Memory :=
  let rs := runs cap start len
  memWrite (memWrite m rs.1.1 (src.take rs.1.2)) rs.2.1 ((src.drop rs.1.2).take rs.2.2)

/-- `Peek(b, offset)` (40_ring_buffer.md rule R120). -/
def peek (cap : Nat) (fill : Nat → Byte) (r : RingBuf) (offset : Nat) : Byte :=
  Memory.byteAt fill r.data ((r.tail + offset) % cap)

/-- `Advance(b, n)` (40_ring_buffer.md rule R122). -/
def advance (cap : Nat) (r : RingBuf) (n : Nat) : RingBuf :=
  { r with tail := (r.tail + min n (used cap r)) % cap }

/-- The storing of one byte by `RB.PUSH` (40_ring_buffer.md rule R116): dropped when the buffer is full. -/
def pushByte (cap : Nat) (r : RingBuf) (b : Byte) : RingBuf :=
  let cand := (r.head + 1) % cap
  if cand = r.tail then r else { r with data := Memory.write r.data r.head b, head := cand }

/-- The taking of one byte by `RB.POP` (40_ring_buffer.md rule R118): the sentinel 0, and no change, when empty. -/
def popByte (cap : Nat) (fill : Nat → Byte) (r : RingBuf) : Byte × RingBuf :=
  if r.head = r.tail then (0#8, r)
  else (Memory.byteAt fill r.data r.tail, { r with tail := (r.tail + 1) % cap })

/-- Both cursors to zero, storage untouched (40_ring_buffer.md rules R125, R130). -/
def resetCursors (r : RingBuf) : RingBuf := { r with head := 0, tail := 0 }

/-- What `FlushOut` answers: the count, the bytes copied, and the buffer afterwards. -/
structure FlushedOut where
  count : Nat
  dest : List Byte
  ring : RingBuf
  deriving DecidableEq, Repr

/-- `FlushOut(b, n)` (40_ring_buffer.md rules R124, R125). -/
def flushOut (cap : Nat) (fill : Nat → Byte) (r : RingBuf) (n : Nat) : FlushedOut :=
  if cap < n then { count := 0, dest := [], ring := r }
  else if cursorsInRange cap r = false then { count := 0, dest := [], ring := resetCursors r }
  else
    let k := min n (used cap r)
    { count := k, dest := readRange cap fill r.data r.tail k, ring := { r with tail := (r.tail + k) % cap } }

/-- What `FlushIn` answers: the count and the buffer afterwards. -/
structure FlushedIn where
  count : Nat
  ring : RingBuf
  deriving DecidableEq, Repr

/-- `FlushIn(b, src, n)` (40_ring_buffer.md rules R127, R125). -/
def flushIn (cap : Nat) (r : RingBuf) (src : List Byte) (n : Nat) : FlushedIn :=
  if cap < n then { count := 0, ring := r }
  else if cursorsInRange cap r = false then { count := 0, ring := resetCursors r }
  else
    let k := min n (free cap r)
    { count := k, ring := { r with data := writeRange cap r.data r.head k src, head := (r.head + k) % cap } }

/-- The split-buffer CRC accumulator `CrcOver(b, t, len)` (42_crc_validator.md rule R162): the first run with the
fixed seed, the second, where there is one, seeded with the first one's remainder. -/
def crcOver (C : LawfulCrc) (cap : Nat) (fill : Nat → Byte) (m : Memory) (t len : Nat) : Half :=
  let rs := runs cap t len
  let rem := C.fn (memRead fill m rs.1.1 rs.1.2) C.seed
  if 0 < rs.2.2 then C.fn (memRead fill m rs.2.1 rs.2.2) rem else rem

/-! ## The parts of the state -/

/-- Buffer `b`. -/
def State.ring (s : State) : Buf → RingBuf
  | .rx => s.rx
  | .tx => s.tx

/-- The state with buffer `b` replaced. -/
def State.setRing (s : State) (b : Buf) (r : RingBuf) : State :=
  match b with
  | .rx => { s with rx := r }
  | .tx => { s with tx := r }

/-- `CAP[b]`. -/
def State.cap (s : State) (b : Buf) : Nat := s.cfg.cap b

/-- The free initial contents of a store since the last reset (93_implementation_defined.md U1). -/
def State.initial (s : State) (store : StoreId) : Nat → Byte := Config.initialByte s.epoch store

/-- `Used(b)` of the state's buffer `b`. -/
def State.used (s : State) (b : Buf) : Nat := Machine.used (s.cap b) (s.ring b)

/-- `Free(b)` of the state's buffer `b`. -/
def State.free (s : State) (b : Buf) : Nat := Machine.free (s.cap b) (s.ring b)

/-- `Peek(b, offset)` of the state's buffer `b`. -/
def State.peek (s : State) (b : Buf) (offset : Nat) : Byte :=
  Machine.peek (s.cap b) (s.initial (.data b)) (s.ring b) offset

/-- The byte at physical index `p` of `data[b]`. -/
def State.dataByte (s : State) (b : Buf) (p : Nat) : Byte :=
  Memory.byteAt (s.initial (.data b)) (s.ring b).data p

/-- The state after `Advance(b, n)`. -/
def State.advance (s : State) (b : Buf) (n : Nat) : State :=
  s.setRing b (Machine.advance (s.cap b) (s.ring b) n)

/-- Message state `k`; every index a command uses is below `NMSG` (log 18). -/
def State.msg (s : State) (k : Nat) : MsgState := s.msgs.getD k MsgState.reset

/-- The state with message state `k` replaced. -/
def State.setMsg (s : State) (k : Nat) (m : MsgState) : State := { s with msgs := s.msgs.set k m }

/-- Byte `j` of `payload[k]`. -/
def State.payloadByte (s : State) (k j : Nat) : Byte :=
  Memory.byteAt (s.initial (.payload k)) (s.msg k).payload j

/-! ## Responses -/

/-- The status codes (30_encoding.md rule R86). -/
inductive Status where
  | ok
  | noMatch
  | incomplete
  | crcMismatch
  | invalidArg
  | illegalCmd
  deriving DecidableEq, Repr

/-- `ST` of a status (30_encoding.md rule R86). -/
def Status.code : Status → BitVec 8
  | .ok => 0x00#8
  | .noMatch => 0x01#8
  | .incomplete => 0x02#8
  | .crcMismatch => 0x03#8
  | .invalidArg => 0x04#8
  | .illegalCmd => 0x05#8

/-- The response word: `ST = RSP[63:56]`, `RSP[55:32] = 0`, `VAL = RSP[31:0]` (30_encoding.md rule R85). -/
def responseWord (st : Status) (val : Word) : Word64 := st.code ++ 0#24 ++ val

/-- `ST` of a response (30_encoding.md rule R85). -/
def Response.st (r : Response) : BitVec 8 := r.word.extractLsb' 56 8

/-- `VAL` of a response (30_encoding.md rule R85). -/
def Response.val (r : Response) : Word := r.word.extractLsb' 0 32

/-- The response `(st, val)` with output list `dout`, returned on the port of the command. -/
def State.respond (s : State) (st : Status) (val : Word) (dout : List Byte) : State :=
  { s with responses := s.responses ++ [{ port := s.port, word := responseWord st val, dout := dout }] }

/-- `return (st, val)` (00_scope.md section 5): the end of a command, with its output list. -/
def finish (s : State) (st : Status) (val : Word) (dout : List Byte) : Result := .next (s.respond st val dout)

/-- `raise InvalidArgument` (00_scope.md section 5): `(ST_INVALID_ARG, 0)`, no state written. -/
def raiseInvalidArgument (s : State) : Result := finish s .invalidArg 0#32 []

/-- `raise IllegalCommand` (00_scope.md section 5): `(ST_ILLEGAL_CMD, 0)`, no state written. -/
def raiseIllegalCommand (s : State) : Result := finish s .illegalCmd 0#32 []

/-- A byte as the value of a response, `zext_32`. -/
def valOfByte (b : Byte) : Word := b.setWidth 32

/-- A number as the value of a response. -/
def valOfNat (n : Nat) : Word := BitVec.ofNat 32 n

/-! ## The reset input -/

/-- The reset input (70_reset_and_hazards.md rule R240): every piece of the spec's state at its value of 10_state.md
rule R46, the configuration untouched. The byte stores are unspecified afresh (log 11). -/
def State.assertReset (s : State) : State :=
  { s with rx := RingBuf.reset, tx := RingBuf.reset, msgs := List.replicate s.cfg.nmsg MsgState.reset,
           epoch := s.epoch + 1 }

end Sys2Proof.Machine
end

