-- ==== Sys2Proof/Machine/Operands.lean ====
section
/-! DEFINITION. The operand forms of the commands and the checks made on them before the operation
(30_encoding.md rules R83, R98 case e, R99, 60_exceptions.md rules R216, R228, 44_frame_builder.md rule R200). -/

namespace Sys2Proof.Machine

/-- The buffer a `BUF` operand names: 0 = `RX`, 1 = `TX`, 2 to 15 none (30_encoding.md rule R83). -/
def bufOf (buf : BitVec 4) : Option Buf :=
  if buf = 0#4 then some .rx else if buf = 1#4 then some .tx else none

/-- The first step of every ring-buffer command (40_ring_buffer.md rule R110): `BUF > 1` is an invalid argument. -/
def withBuffer (buf : BitVec 4) (s : State) (body : Buf → Result) : Result :=
  match bufOf buf with
  | none => raiseInvalidArgument s
  | some b => body b

/-- The check on a message index: `k >= NMSG` is an invalid argument (30_encoding.md rule R83). -/
def withMessage (k : BitVec 8) (s : State) (body : Nat → Result) : Result :=
  if k.toNat < s.cfg.nmsg then body k.toNat else raiseInvalidArgument s

/-- The model's refusal of a buffer whose cursor is out of range (93_implementation_defined.md U3, log 6). -/
def withCursors (b : Buf) (s : State) (body : Result) : Result :=
  if cursorsInRange (s.cap b) (s.ring b) then body else .refused (.cursorOutOfRange b)

/-- The port right of the seven commands that are not ring-buffer commands: on the T port they are illegal
(60_exceptions.md rule R228, 30_encoding.md rule R98 case e). -/
def mainPortOnly (s : State) (body : Result) : Result :=
  match s.port with
  | .T => raiseIllegalCommand s
  | .M => body

/-- The address pair (destination, source) an SDI selects: 3 the right pair, every other value the left pair
(44_frame_builder.md rule R200). -/
def sidePair (e : CatEntry) (sdi : BitVec 4) : Byte × Byte :=
  if sdi = 3#4 then (e.rightDestination, e.rightSource) else (e.leftDestination, e.leftSource)

end Sys2Proof.Machine
end

