-- ==== Sys2Proof/Machine/CrcValidator.lean ====
section
/-! DEFINITION. The validation phase of `FS.SCAN` and the meanings of `CV.CRC` and `PL.READ` (42_crc_validator.md).
Each use of the CRC primitive takes it as an argument; the block's own is `Config.crc`. -/

namespace Sys2Proof.Machine

/-- `VAL` of an accepted or rejected scan: `VAL[31:16]` the discard count, `VAL[7:0]` the index (41_frame_scanner.md
rule R140). -/
def scanVal (discard m : Nat) : Word := valOfNat (discard <<< 16 ||| m)

/-- The remainder of `n` bytes from `tail[RX]` (42_crc_validator.md rules R162, R170). -/
def rxCrc (C : LawfulCrc) (s : State) (n : Nat) : Half :=
  crcOver C (s.cap .rx) (s.initial (.data .rx)) s.rx.data s.rx.tail n

/-- The payload move of an accepted frame (42_crc_validator.md rules R165, R167): flushed into the payload store when
one is configured, otherwise skipped or, with `NOPAYLOAD_SKIPS = false`, left. -/
def movePayload (m : Nat) (s : State) : State :=
  let e := s.cfg.entry m
  if e.payloadEn then
    let f := flushOut (s.cap .rx) (s.initial (.data .rx)) s.rx e.payloadLen
    let old := s.msg m
    (s.setRing .rx f.ring).setMsg m
      { old with payload := memWrite old.payload 0 f.dest, payloadLen := BitVec.ofNat 8 e.payloadLen }
  else if s.cfg.noPayloadSkips then s.advance .rx e.payloadLen
  else s

/-- The refresh of the matched message's counter (42_crc_validator.md rule R166). -/
def refreshCounter (m : Nat) (s : State) : State := s.setMsg m { s.msg m with elapsed := 0 }

/-- The five accepting actions in the document's order (42_crc_validator.md rules R161, R165 to R168). -/
def acceptFrame (m : Nat) (s : State) : State :=
  (refreshCounter m (movePayload m (s.advance .rx headerLen))).advance .rx crcLen

/-- `Validate(m, L, i)` (42_crc_validator.md rules R161, R163, R164). -/
def validate (C : LawfulCrc) (m len discard : Nat) (s : State) : Result :=
  if rxCrc C s len ≠ 0#16 then finish (s.advance .rx 1) .crcMismatch (scanVal discard 0) []
  else finish (acceptFrame m s) .ok (scanVal discard m) []

/-- `CV.CRC n` (42_crc_validator.md rule R170) with CRC primitive `C`. -/
def cvCrcWith (C : LawfulCrc) (n : Word) (s : State) : Result :=
  mainPortOnly s
    (if s.cap .rx < n.toNat then raiseInvalidArgument s
     else withCursors .rx s (finish s .ok ((rxCrc C s n.toNat).setWidth 32) []))

/-- `CV.CRC n` (42_crc_validator.md rule R170). -/
def execCvCrc (n : Word) (s : State) : Result := cvCrcWith Config.crc n s

/-- `PL.READ k, off` (42_crc_validator.md rule R172). -/
def execPlRead (k : BitVec 8) (off : Word) (s : State) : Result :=
  mainPortOnly s (withMessage k s fun k =>
    if s.cfg.payloadMax ≤ off.toNat then raiseInvalidArgument s
    else finish s .ok ((valOfByte (s.msg k).payloadLen <<< 8) ||| valOfByte (s.payloadByte k off.toNat)) [])

end Sys2Proof.Machine
end

