-- ==== Sys2Proof/Machine/FrameBuilder.lean ====
section
/-! DEFINITION. The meaning of `FB.BUILD` and the word and byte helpers (44_frame_builder.md). -/

namespace Sys2Proof.Machine

/-- `x[0] xor x[1] xor ... xor x[30]` (44_frame_builder.md rule R198). -/
def parityLow31 (x : Word) : Bool := (List.range 31).foldl (fun p i => p ^^ x.getLsbD i) false

/-- `Stamp(x)`, for a word whose bit 31 is clear (44_frame_builder.md rule R198); no value otherwise (rule R199). -/
def stamp (x : Word) : Option Word :=
  if x.getLsbD 31 then none else some (if parityLow31 x then x else x ||| 0x80000000#32)

/-- `Stamp` of every word, where every word has one. -/
def stampAll : List Word → Option (List Word)
  | [] => some []
  | x :: xs =>
    match stamp x, stampAll xs with
    | some y, some ys => some (y :: ys)
    | _, _ => none

/-- `Bytes(w)` (44_frame_builder.md rule R202): most significant byte first, or the reverse. -/
def wordBytes (msbFirst : Bool) (w : Word) : List Byte :=
  let msb := [w.extractLsb' 24 8, w.extractLsb' 16 8, w.extractLsb' 8 8, w.extractLsb' 0 8]
  if msbFirst then msb else msb.reverse

/-- `WordOf(b0, b1, b2, b3)` (44_frame_builder.md rule R208): the inverse of `Bytes`. -/
def wordOf (msbFirst : Bool) (b0 b1 b2 b3 : Byte) : Word :=
  if msbFirst then b0 ++ b1 ++ b2 ++ b3 else b3 ++ b2 ++ b1 ++ b0

/-- The header bytes `F[0 .. 4]` (44_frame_builder.md rule R201). -/
def frameHeader (e : CatEntry) (sdi : BitVec 4) : List Byte :=
  [preamble, (sidePair e sdi).1, (sidePair e sdi).2, e.length, e.command]

/-- `F[0 .. T-1]`: the header and the payload region, from the stamped words (44_frame_builder.md rules R201, R202). -/
def frameBody (msbFirst : Bool) (e : CatEntry) (sdi : BitVec 4) (stamped : List Word) : List Byte :=
  frameHeader e sdi ++ stamped.flatMap (wordBytes msbFirst)

/-- A region followed by its CRC, high byte first (44_frame_builder.md rule R203). -/
def sealed (C : LawfulCrc) (body : List Byte) : List Byte :=
  body ++ [highByte (C.fn body C.seed), lowByte (C.fn body C.seed)]

/-- `F[0 .. nbf-1]`: the frame cut short, or followed by scratch bytes the build has not written
(44_frame_builder.md rule R205, 93_implementation_defined.md U6, log 4). -/
def flushSource (build : Nat) (frame : List Byte) (nbf : Nat) : List Byte :=
  frame.take nbf ++ (List.range (nbf - frame.length)).map fun j => Config.scratchByte build (frame.length + j)

/-- The preconditions P1 to P5 (44_frame_builder.md rule R197). -/
def buildAllowed (c : Config) (sdi : BitVec 4) (k : BitVec 8) (wnull : Bool) (nw : BitVec 8) (nbf : Word) : Bool :=
  c.catValid && decide (k.toNat < c.nmsg) && decide (sdi.toNat ≤ 3) && decide (nbf.toNat ≤ c.buildMaxBytes) &&
  decide (nw.toNat ≤ c.buildMaxWords) && (!wnull || decide (nw.toNat = 0))

/-- `FB.BUILD` (44_frame_builder.md rules R195 to R205, 30_encoding.md rule R98 case d) with CRC primitive `C`. -/
def fbBuildWith (C : LawfulCrc) (sdi : BitVec 4) (k : BitVec 8) (wnull : Bool) (nw : BitVec 8) (nbf : Word)
    (words : List Word) (s : State) : Result :=
  mainPortOnly s
    (if s.cfg.hasBuilder = false then raiseIllegalCommand s
     else if buildAllowed s.cfg sdi k wnull nw nbf = false then raiseInvalidArgument s
     else
       match stampAll words with
       | none => .refused .parityBitSet
       | some stamped => withCursors .tx s
         (let frame := sealed C (frameBody s.cfg.wordMsbFirst (s.cfg.entry k.toNat) sdi stamped)
          let f := flushIn (s.cap .tx) s.tx (flushSource s.builds frame nbf.toNat) nbf.toNat
          finish { s.setRing .tx f.ring with builds := s.builds + 1 } .ok (valOfNat f.count) []))

/-- `FB.BUILD` (44_frame_builder.md rule R196). -/
def execFbBuild (sdi : BitVec 4) (k : BitVec 8) (wnull : Bool) (nw : BitVec 8) (nbf : Word)
    (words : List Word) (s : State) : Result :=
  fbBuildWith Config.crc sdi k wnull nw nbf words s

end Sys2Proof.Machine
end

