-- ==== Sys2Proof/Machine/FrameScanner.lean ====
section
/-! DEFINITION. The search phase and the meaning of `FS.SCAN` (41_frame_scanner.md). -/

namespace Sys2Proof.Machine

/-- `Match(k, i)` for entry `e`, with `pk o` the byte `Peek(RX, o)` (41_frame_scanner.md rule R145). -/
def matchEntry (pk : Nat → Byte) (i : Nat) (e : CatEntry) : Bool :=
  pk (i + 4) == e.command && pk (i + 3) == e.length &&
  (pk (i + 1) == e.leftDestination || pk (i + 1) == e.rightDestination) &&
  (pk (i + 2) == e.leftSource || pk (i + 2) == e.rightSource)

/-- The first entry, in ascending index, that matches at offset `i` (41_frame_scanner.md rule R146). -/
def firstMatch (catalog : List CatEntry) (pk : Nat → Byte) (i : Nat) : Option Nat :=
  catalog.findIdx? (matchEntry pk i)

/-- How the search loop ends (41_frame_scanner.md rule R141): at a winning preamble at offset `i` with entry `m`, at a
short preamble at offset `i`, or past the last of the `i` bytes scanned. -/
inductive ScanExit where
  | found (i m : Nat)
  | short (i : Nat)
  | exhausted (i : Nat)
  deriving DecidableEq, Repr

/-- The final `i` of the loop: the discard count (41_frame_scanner.md rule R148). -/
def ScanExit.discard : ScanExit → Nat
  | .found i _ => i
  | .short i => i
  | .exhausted i => i

/-- The search loop of 41_frame_scanner.md rule R141 from offset `i`, with `fuel` offsets left to scan of `n`. -/
def scanFrom (catalog : List CatEntry) (pk : Nat → Byte) (n : Nat) : (fuel i : Nat) → ScanExit
  | 0, i => .exhausted i
  | fuel + 1, i =>
    if pk i = preamble then
      if n - i < minFrame then .short i
      else
        match firstMatch catalog pk i with
        | some m => .found i m
        | none => scanFrom catalog pk n fuel (i + 1)
    else scanFrom catalog pk n fuel (i + 1)

/-- The search over the `Used(RX)` bytes held (41_frame_scanner.md rule R143). -/
def State.search (s : State) : ScanExit :=
  scanFrom s.cfg.catalog (s.peek .rx) (s.used .rx) (s.used .rx) 0

/-- `FS.SCAN` (41_frame_scanner.md rules R140 to R151) with CRC primitive `C`. -/
def fsScanWith (C : LawfulCrc) (s : State) : Result :=
  mainPortOnly s
    (if s.cfg.catValid = false then raiseInvalidArgument s
     else withCursors .rx s
       (let e := s.search
        let s1 := s.advance .rx e.discard
        match e with
        | .exhausted i => finish s1 .noMatch (scanVal i 0) []
        | .short i => finish s1 .incomplete (scanVal i 0) []
        | .found i m =>
          let len := (s.cfg.entry m).frameLen
          if s1.used .rx < len then finish s1 .incomplete (scanVal i 0) []
          else validate C m len i s1))

/-- `FS.SCAN` (41_frame_scanner.md rule R141). -/
def execFsScan (s : State) : Result := fsScanWith Config.crc s

end Sys2Proof.Machine
end

