-- ==== Sys2Proof/Machine/RingBuffer.lean ====
section
/-! DEFINITION. The meanings of the eight ring-buffer commands (40_ring_buffer.md). Both ports may issue them
(60_exceptions.md rule R228). -/

namespace Sys2Proof.Machine

/-- `RB.PUSH b, byte` (40_ring_buffer.md rule R116): `ST_OK` and 0 whether the byte was stored or dropped. -/
def execRbPush (buf : BitVec 4) (byte : Byte) (s : State) : Result :=
  withBuffer buf s fun b => withCursors b s
    (finish (s.setRing b (pushByte (s.cap b) (s.ring b) byte)) .ok 0#32 [])

/-- `RB.POP b` (40_ring_buffer.md rule R118). -/
def execRbPop (buf : BitVec 4) (s : State) : Result :=
  withBuffer buf s fun b => withCursors b s
    (let p := popByte (s.cap b) (s.initial (.data b)) (s.ring b)
     finish (s.setRing b p.2) .ok (valOfByte p.1) [])

/-- `RB.PEEK b, offset` (40_ring_buffer.md rule R120). -/
def execRbPeek (buf : BitVec 4) (offset : Word) (s : State) : Result :=
  withBuffer buf s fun b => withCursors b s (finish s .ok (valOfByte (s.peek b offset.toNat)) [])

/-- `RB.ADV b, n` (40_ring_buffer.md rule R122). -/
def execRbAdv (buf : BitVec 4) (n : Word) (s : State) : Result :=
  withBuffer buf s fun b => withCursors b s (finish (s.advance b n.toNat) .ok 0#32 [])

/-- `RB.FOUT b, n` (40_ring_buffer.md rule R124). -/
def execRbFout (buf : BitVec 4) (n : Word) (s : State) : Result :=
  withBuffer buf s fun b =>
    let f := flushOut (s.cap b) (s.initial (.data b)) (s.ring b) n.toNat
    finish (s.setRing b f.ring) .ok (valOfNat f.count) f.dest

/-- `RB.FIN b, [src]` (40_ring_buffer.md rule R127). -/
def execRbFin (buf : BitVec 4) (n : Word) (src : List Byte) (s : State) : Result :=
  withBuffer buf s fun b =>
    let f := flushIn (s.cap b) (s.ring b) src n.toNat
    finish (s.setRing b f.ring) .ok (valOfNat f.count) []

/-- `RB.USED b` (40_ring_buffer.md rule R112). -/
def execRbUsed (buf : BitVec 4) (s : State) : Result :=
  withBuffer buf s fun b => withCursors b s (finish s .ok (valOfNat (s.used b)) [])

/-- `RB.RESET b` (40_ring_buffer.md rule R130). -/
def execRbReset (buf : BitVec 4) (s : State) : Result :=
  withBuffer buf s fun b => finish (s.setRing b (resetCursors (s.ring b))) .ok 0#32 []

end Sys2Proof.Machine
end

