-- ==== Sys2Proof/Machine/Flags.lean ====
section
/-! DEFINITION. The block's only flags, `busFailed[k]`, and the counters they are computed from (10_state.md rule
R30, 43_timeout_monitor.md rules R181 to R185). -/

namespace Sys2Proof.Machine

/-- The increment of a `TICK_W`-bit counter (43_timeout_monitor.md rule R185). -/
def tickCounter (width elapsed : Nat) : Nat := (elapsed + 1) % 2 ^ width

/-- A message is silent when `elapsed >= maxTicks` (43_timeout_monitor.md rule R181). -/
def silent (e : CatEntry) (m : MsgState) : Bool := decide (e.maxTicks ≤ m.elapsed)

/-- How many messages of the set are silent (43_timeout_monitor.md rule R182). -/
def silentCount (catalog : List CatEntry) (msgs : List MsgState) : Nat :=
  (catalog.zip msgs).countP fun p => silent p.1 p.2

/-- The aggregate: failure when the count of silent messages is the number of messages (rule R182). -/
def busFailure (catalog : List CatEntry) (msgs : List MsgState) : Bool :=
  decide (silentCount catalog msgs = catalog.length)

/-- Every counter incremented (rule R182). -/
def tickAll (width : Nat) (msgs : List MsgState) : List MsgState :=
  msgs.map fun m => { m with elapsed := tickCounter width m.elapsed }

/-- Every flag at the aggregate value (43_timeout_monitor.md rule R184). -/
def flagAll (fail : Bool) (msgs : List MsgState) : List MsgState :=
  msgs.map fun m => { m with busFailed := fail }

end Sys2Proof.Machine
end

