-- ==== Sys2Proof/Machine/TimeoutMonitor.lean ====
section
/-! DEFINITION. The meanings of `TM.TICK`, `TM.STAT` and `TM.ELAPSED` (43_timeout_monitor.md). -/

namespace Sys2Proof.Machine

/-- The state after a tick with a message set (43_timeout_monitor.md rule R182): counters first, then the aggregate
over the incremented counters, then every flag. -/
def State.tick (s : State) : State :=
  let ticked := tickAll s.cfg.tickWidth s.msgs
  { s with msgs := flagAll (busFailure s.cfg.catalog ticked) ticked }

/-- The aggregate a tick computes (43_timeout_monitor.md rule R182). -/
def State.tickFails (s : State) : Bool := busFailure s.cfg.catalog (tickAll s.cfg.tickWidth s.msgs)

/-- A one-bit value as a response value. -/
def valOfBool (b : Bool) : Word := if b then 1#32 else 0#32

/-- `TM.TICK` (43_timeout_monitor.md rules R182, R183). -/
def execTmTick (s : State) : Result :=
  mainPortOnly s
    (if s.cfg.catValid = false then finish s .ok 1#32 []
     else finish s.tick .ok (valOfBool s.tickFails) [])

/-- `TM.STAT k` (43_timeout_monitor.md rule R186). -/
def execTmStat (k : BitVec 8) (s : State) : Result :=
  mainPortOnly s (withMessage k s fun k => finish s .ok (valOfBool (s.msg k).busFailed) [])

/-- `TM.ELAPSED k` (43_timeout_monitor.md rule R187). -/
def execTmElapsed (k : BitVec 8) (s : State) : Result :=
  mainPortOnly s (withMessage k s fun k => finish s .ok (valOfNat (s.msg k).elapsed) [])

end Sys2Proof.Machine
end

