-- ==== Sys2Proof/Machine/Dispatch.lean ====
section
/-! DEFINITION. One arm per command. -/

namespace Sys2Proof.Machine

def exec (i : Instr) (s : State) : Host.Outcome State Fault Refusal :=
  match i with
  | .rbPush buf byte => Sys2Proof.Machine.execRbPush buf byte s
  | .rbPop buf => Sys2Proof.Machine.execRbPop buf s
  | .rbPeek buf offset => Sys2Proof.Machine.execRbPeek buf offset s
  | .rbAdv buf n => Sys2Proof.Machine.execRbAdv buf n s
  | .rbFout buf n => Sys2Proof.Machine.execRbFout buf n s
  | .rbFin buf n src => Sys2Proof.Machine.execRbFin buf n src s
  | .rbUsed buf => Sys2Proof.Machine.execRbUsed buf s
  | .rbReset buf => Sys2Proof.Machine.execRbReset buf s
  | .fsScan => Sys2Proof.Machine.execFsScan s
  | .cvCrc n => Sys2Proof.Machine.execCvCrc n s
  | .plRead k off => Sys2Proof.Machine.execPlRead k off s
  | .tmTick => Sys2Proof.Machine.execTmTick s
  | .tmStat k => Sys2Proof.Machine.execTmStat k s
  | .tmElapsed k => Sys2Proof.Machine.execTmElapsed k s
  | .fbBuild sdi k wnull nw nbf words => Sys2Proof.Machine.execFbBuild sdi k wnull nw nbf words s

end Sys2Proof.Machine
end

