-- ==== Sys2Proof/Machine/Fetch.lean ====
section
/-! DEFINITION. How the block takes its next command: the ports, their serialisation and the reset input
(00_scope.md rule R14, 20_memory.md rule R62, 70_reset_and_hazards.md rule R240). The block has no instruction fetch
(10_state.md rule R28). -/

namespace Sys2Proof.Machine

/-- What the block finds on its inputs. -/
inductive Taken where
  /-- Nothing is presented. -/
  | idle
  /-- The reset input was asserted; the state after it. -/
  | reset (s : State)
  /-- A command was taken; the state with it removed from the inputs and its port latched. -/
  | command (c : Command) (s : State)
  deriving DecidableEq, Repr

/-- The command `c` taken on port `p`, with `rest` still presented. -/
def takeOn (p : Port) (c : Command) (rest : List Arrival) (s : State) : Taken :=
  .command c { s with port := p, pending := rest }

/-- The next command or the reset input, in the order of arrival; two commands that arrive together are taken in the
order the free arbitration gives, the other one next (20_memory.md rule R62, log 7). -/
def take (s : State) : Taken :=
  match s.pending with
  | [] => .idle
  | .reset :: rest => .reset { s.assertReset with pending := rest }
  | .transport c :: rest => takeOn .T c rest s
  | .main c :: rest => takeOn .M c rest s
  | .both t m :: rest =>
    if Config.transportFirst s.arbiter then takeOn .T t (.main m :: rest) { s with arbiter := s.arbiter + 1 }
    else takeOn .M m (.transport t :: rest) { s with arbiter := s.arbiter + 1 }

/-- The state with a command presented on the M port before everything else (log 15). -/
def State.present (s : State) (c : Command) : State := { s with pending := .main c :: s.pending }

end Sys2Proof.Machine
end

