-- ==== Sys2Proof/Machine/Step.lean ====
section
/-! DEFINITION. One step of the block: nothing, the reset input, or one command taken, decoded and executed
(20_memory.md rule R62, 30_encoding.md rules R98, R99). -/

namespace Sys2Proof.Machine

/-- One step. A word that is not a command is answered `ST_ILLEGAL_CMD` (30_encoding.md rule R98). With nothing
presented nothing happens (log 8). -/
def step (s : State) : Host.Outcome State Fault Refusal :=
  match take s with
  | .idle => .next s
  | .reset t => .next t
  | .command c t =>
    match decode c with
    | none => raiseIllegalCommand t
    | some i => exec i t

/-- The state in which the next step takes exactly the command whose word is `w` (log 15). -/
def State.withFetchWord (s : State) (nbits w : Nat) : State := s.present (tableCommand nbits w)

end Sys2Proof.Machine
end

