-- ==== Sys2Proof/Machine/Assembler.lean ====
section
/-! DEFINITION. The spec's line syntax of commands and responses (30_encoding.md rules R102, R103). It is no part of
the block: it only writes and reads commands as lines of text. A line is a list of characters; lower case and upper
case are told apart, but for hexadecimal digits (log 17). -/

namespace Sys2Proof.Machine

/-- The opening brace of a word list. -/
def openBrace : Char := Char.ofNat 123

/-- The closing brace of a word list. -/
def closeBrace : Char := Char.ofNat 125

/-! ## Reading -/

/-- The value of a hexadecimal digit. -/
def digitValue (c : Char) : Option Nat :=
  let n := c.toNat
  if 48 ≤ n ∧ n ≤ 57 then some (n - 48)
  else if 65 ≤ n ∧ n ≤ 70 then some (n - 55)
  else if 97 ≤ n ∧ n ≤ 102 then some (n - 87)
  else none

/-- The digits read in a base, after the value `acc`. -/
def digitsFrom (base : Nat) : (acc : Nat) → List Char → Option Nat
  | acc, [] => some acc
  | acc, c :: cs =>
    match digitValue c with
    | some d => if d < base then digitsFrom base (acc * base + d) cs else none
    | none => none

/-- A non-empty run of digits in a base. -/
def digits (base : Nat) (cs : List Char) : Option Nat := if cs = [] then none else digitsFrom base 0 cs

/-- A number: decimal, or hexadecimal behind `0x`. -/
def number (cs : List Char) : Option Nat :=
  match cs with
  | '0' :: 'x' :: rest => digits 16 rest
  | _ => digits 10 cs

/-- A number that fits `w` bits. -/
def numberOf (w : Nat) (cs : List Char) : Option (BitVec w) :=
  (number cs).bind fun n => if n < 2 ^ w then some (BitVec.ofNat w n) else none

/-- A buffer operand: `RX`, `TX` or a number `0..15`. -/
def bufferOperand (cs : List Char) : Option (BitVec 4) :=
  if cs = ['R', 'X'] then some 0#4 else if cs = ['T', 'X'] then some 1#4 else numberOf 4 cs

/-- The pieces of a line between separators, the piece read so far being `cur` in reverse. -/
def piecesFrom (sep : Char) : (cur : List Char) → List Char → List (List Char)
  | cur, [] => [cur.reverse]
  | cur, c :: cs => if c = sep then cur.reverse :: piecesFrom sep [] cs else piecesFrom sep (c :: cur) cs

/-- The words of a text between blanks. -/
def wordsOf (cs : List Char) : List (List Char) := (piecesFrom ' ' [] cs).filter fun p => p ≠ []

/-- A text without the blanks at its two ends. -/
def trim (cs : List Char) : List Char := ((cs.dropWhile (· = ' ')).reverse.dropWhile (· = ' ')).reverse

/-- The hexadecimal `w`-bit numbers of a list. -/
def hexList (w : Nat) (cs : List Char) : Option (List (BitVec w)) :=
  (wordsOf cs).mapM fun p => (digits 16 p).bind fun n => if n < 2 ^ w then some (BitVec.ofNat w n) else none

/-- A list between two brackets. -/
def bracketed (w : Nat) (o c : Char) (cs : List Char) : Option (List (BitVec w)) :=
  match cs with
  | [] => none
  | x :: xs =>
    match xs.reverse with
    | [] => none
    | y :: ys => if x = o ∧ y = c then hexList w ys.reverse else none

/-- A byte list `[b0 b1 ...]`. -/
def byteList (cs : List Char) : Option (List Byte) := bracketed 8 '[' ']' cs

/-- A word list between braces. -/
def wordList (cs : List Char) : Option (List Word) := bracketed 32 openBrace closeBrace cs

/-- A line without its comment, as its mnemonic and its operands. -/
def splitLine (line : List Char) : List Char × List (List Char) :=
  let body := trim (line.takeWhile (· ≠ ';'))
  let rest := trim (body.dropWhile (· ≠ ' '))
  (body.takeWhile (· ≠ ' '), if rest = [] then [] else (piecesFrom ',' [] rest).map trim)

/-- The word operand of `FB.BUILD`, where it is a list. -/
def buildLine (sdi : BitVec 4) (k : BitVec 8) (nbf : Word) (ws : List Word) : Option (List Instr) :=
  if ws.length < 256 then some [.fbBuild sdi k false (BitVec.ofNat 8 ws.length) nbf ws] else none

/-- The commands a line stands for: one, or the expansion of a pseudo-command (rule R103); none where the line is not
in the syntax of rule R102. -/
def assemble (line : List Char) : Option (List Instr) :=
  match String.ofList (splitLine line).1, (splitLine line).2 with
  | "RB.PUSH", [b, x] => (bufferOperand b).bind fun b => (numberOf 8 x).map fun x => [.rbPush b x]
  | "RB.POP", [b] => (bufferOperand b).map fun b => [.rbPop b]
  | "RB.PEEK", [b, o] => (bufferOperand b).bind fun b => (numberOf 32 o).map fun o => [.rbPeek b o]
  | "RB.ADV", [b, n] => (bufferOperand b).bind fun b => (numberOf 32 n).map fun n => [.rbAdv b n]
  | "RB.FOUT", [b, n] => (bufferOperand b).bind fun b => (numberOf 32 n).map fun n => [.rbFout b n]
  | "RB.FIN", [b, l] => (bufferOperand b).bind fun b => (byteList l).bind fun l =>
      if l.length < 2 ^ 32 then some [.rbFin b (BitVec.ofNat 32 l.length) l] else none
  | "RB.USED", [b] => (bufferOperand b).map fun b => [.rbUsed b]
  | "RB.RESET", [b] => (bufferOperand b).map fun b => [.rbReset b]
  | "FS.SCAN", [] => some [.fsScan]
  | "CV.CRC", [n] => (numberOf 32 n).map fun n => [.cvCrc n]
  | "PL.READ", [k, o] => (numberOf 8 k).bind fun k => (numberOf 32 o).map fun o => [.plRead k o]
  | "TM.TICK", [] => some [.tmTick]
  | "TM.STAT", [k] => (numberOf 8 k).map fun k => [.tmStat k]
  | "TM.ELAPSED", [k] => (numberOf 8 k).map fun k => [.tmElapsed k]
  | "FB.BUILD", [sdi, k, nbf, w] =>
      (numberOf 4 sdi).bind fun sdi => (numberOf 8 k).bind fun k => (numberOf 32 nbf).bind fun nbf =>
        if w = ['n', 'u', 'l', 'l'] then some [.fbBuild sdi k true 0#8 nbf []]
        else (wordList w).bind (buildLine sdi k nbf)
  | "FB.BUILD", [sdi, k, nbf, ['n', 'u', 'l', 'l'], nw] =>
      (numberOf 4 sdi).bind fun sdi => (numberOf 8 k).bind fun k => (numberOf 32 nbf).bind fun nbf =>
        (numberOf 8 nw).map fun nw => [.fbBuild sdi k true nw nbf []]
  | "RB.DRAIN", [b] => (bufferOperand b).map fun b => [Instr.rbDrain b]
  | "RB.PUSHS", [b, l] => (bufferOperand b).bind fun b => (byteList l).map (Instr.rbPushs b)
  | "TM.TICKS", [c] => (number c).map Instr.tmTicks
  | _, _ => none

/-! ## Writing -/

/-- The hexadecimal digits of a number of `w` bits, all `w / 4` of them. -/
def hexText (w : Nat) (x : BitVec w) : String :=
  String.ofList ((List.range (w / 4)).reverse.map fun i => (Nat.digitChar (x.toNat / 16 ^ i % 16)).toUpper)

/-- The items of a list with blanks between them. -/
def spaced (items : List String) : String := String.intercalate " " items

/-- A buffer operand. -/
def bufferText (buf : BitVec 4) : String :=
  if buf = 0#4 then "RX" else if buf = 1#4 then "TX" else toString buf.toNat

/-- A byte list. -/
def byteListText (bytes : List Byte) : String := "[" ++ spaced (bytes.map (hexText 8)) ++ "]"

/-- The word operand of `FB.BUILD`, with the explicit `NW` where it is needed. -/
def wordsText (wnull : Bool) (nw : BitVec 8) (words : List Word) : String :=
  if wnull then (if nw = 0#8 then "null" else "null, " ++ toString nw.toNat)
  else String.singleton openBrace ++ spaced (words.map (hexText 32)) ++ String.singleton closeBrace

/-- A command as a line (rule R102). -/
def lineOf (i : Instr) : String :=
  match i with
  | .rbPush buf byte => i.mnemonic ++ " " ++ bufferText buf ++ ", 0x" ++ hexText 8 byte
  | .rbPop buf => i.mnemonic ++ " " ++ bufferText buf
  | .rbPeek buf offset => i.mnemonic ++ " " ++ bufferText buf ++ ", " ++ toString offset.toNat
  | .rbAdv buf n => i.mnemonic ++ " " ++ bufferText buf ++ ", " ++ toString n.toNat
  | .rbFout buf n => i.mnemonic ++ " " ++ bufferText buf ++ ", " ++ toString n.toNat
  | .rbFin buf _ src => i.mnemonic ++ " " ++ bufferText buf ++ ", " ++ byteListText src
  | .rbUsed buf => i.mnemonic ++ " " ++ bufferText buf
  | .rbReset buf => i.mnemonic ++ " " ++ bufferText buf
  | .fsScan => i.mnemonic
  | .cvCrc n => i.mnemonic ++ " " ++ toString n.toNat
  | .plRead k off => i.mnemonic ++ " " ++ toString k.toNat ++ ", " ++ toString off.toNat
  | .tmTick => i.mnemonic
  | .tmStat k => i.mnemonic ++ " " ++ toString k.toNat
  | .tmElapsed k => i.mnemonic ++ " " ++ toString k.toNat
  | .fbBuild sdi k wnull nw nbf words =>
    i.mnemonic ++ " " ++ toString sdi.toNat ++ ", " ++ toString k.toNat ++ ", " ++ toString nbf.toNat ++ ", " ++
      wordsText wnull nw words

/-- The name of a status code (30_encoding.md rule R86). -/
def Status.name : Status → String
  | .ok => "ST_OK"
  | .noMatch => "ST_NO_MATCH"
  | .incomplete => "ST_INCOMPLETE"
  | .crcMismatch => "ST_CRC_MISMATCH"
  | .invalidArg => "ST_INVALID_ARG"
  | .illegalCmd => "ST_ILLEGAL_CMD"

/-- A response as a line (rule R102), its output list where there is one. -/
def responseText (st : Status) (val : Word) (dout : Option (List Byte)) : String :=
  "-> " ++ st.name ++ ", 0x" ++ hexText 32 val ++
    match dout with
    | none => ""
    | some bytes => ", " ++ byteListText bytes

end Sys2Proof.Machine
end

