-- ==== Sys2Proof/Safety.lean ====
section
/-! DEFINITION. The terms claims about the block are stated in: the invariant of its state, what a buffer holds, what
a command leaves alone, what it answers, and runs of commands. -/

namespace Sys2Proof.Machine

/-- Both cursors of buffer `b` are below `CAP[b]` (10_state.md rule R22). -/
abbrev State.bufOk (s : State) (b : Buf) : Prop := cursorsInRange (s.cap b) (s.ring b) = true

/-- The unread bytes of buffer `b`, in stream order (20_memory.md rules R50, R57). -/
def State.contents (s : State) (b : Buf) : List Byte := (List.range (s.used b)).map (s.peek b)

/-! ## The invariant -/

/-- A ring buffer in order: cursors in range (10_state.md rule R22), storage canonical and inside the physical indices,
and every unread byte written since reset (rule R41: no unread byte is unspecified). -/
abbrev RingOk (cap : Nat) (r : RingBuf) : Prop :=
  r.head < cap ∧ r.tail < cap ∧ Memory.wf r.data ∧ (∀ x ∈ r.data, x.1 < cap) ∧
  ∀ o < used cap r, (Memory.read r.data ((r.tail + o) % cap)).isSome = true

/-- A message state in order, for the catalog entry `e` it belongs to: the counter fits `TICK_W` bits (10_state.md rule
R26), the payload store is canonical and only its first `length - 1` bytes are ever written (95_test_vectors.md section
3.4), `payloadLen` is 0 or `length - 1` and counts written bytes only, and nothing is stored without a payload store. -/
abbrev MsgOk (c : Config) (e : CatEntry) (m : MsgState) : Prop :=
  m.elapsed < 2 ^ c.tickWidth ∧ Memory.wf m.payload ∧ (∀ x ∈ m.payload, x.1 < e.payloadLen) ∧
  (m.payloadLen = 0#8 ∨ m.payloadLen = BitVec.ofNat 8 e.payloadLen) ∧
  (∀ j < m.payloadLen.toNat, (Memory.read m.payload j).isSome = true) ∧
  (e.payloadEn = false → m.payload = [] ∧ m.payloadLen = 0#8)

/-- The invariant of the block's state. -/
abbrev State.Inv (s : State) : Prop :=
  RingOk (s.cap .rx) s.rx ∧ RingOk (s.cap .tx) s.tx ∧ s.msgs.length = s.cfg.nmsg ∧
  ∀ k < s.cfg.nmsg, MsgOk s.cfg (s.cfg.entry k) (s.msg k)

/-- The values of 10_state.md rule R46: cursors 0, counters 0, flags 1, payload lengths 0, every store unwritten. -/
abbrev State.AtReset (s : State) : Prop :=
  s.rx = { data := [], head := 0, tail := 0 } ∧ s.tx = { data := [], head := 0, tail := 0 } ∧
  s.msgs.length = s.cfg.nmsg ∧
  ∀ k < s.cfg.nmsg, s.msg k = { elapsed := 0, busFailed := true, payload := [], payloadLen := 0#8 }

/-! ## Frames and answers -/

/-- `t` is `s` with one response more, and nothing else changed. -/
def OnlyAnswers (s t : State) : Prop := t = { s with responses := t.responses }

/-- `t` is `s` but for buffer `b` and the responses. -/
def OnlyRing (b : Buf) (s t : State) : Prop := t = { s.setRing b (t.ring b) with responses := t.responses }

/-- `t` is `s` but for the cursor `tail[RX]`, the message states and the responses. -/
def OnlyTailAndMsgs (s t : State) : Prop :=
  t = { s with rx := { s.rx with tail := t.rx.tail }, msgs := t.msgs, responses := t.responses }

/-- `t` is `s` but for the message states and the responses. -/
def OnlyMsgs (s t : State) : Prop := t = { s with msgs := t.msgs, responses := t.responses }

/-- The command run from `s` returned `(st, val)` and the output list `dout`, on the port it came from, and that
response only. -/
def Answered (s t : State) (st : Status) (val : Word) (dout : List Byte) : Prop :=
  t.responses = s.responses ++ [{ port := s.port, word := responseWord st val, dout := dout }]

/-! ## The scanner's terms -/

/-- `Match(k, i)` as 41_frame_scanner.md rule R145 writes it. -/
abbrev State.Matches (s : State) (i k : Nat) : Prop :=
  s.peek .rx (i + 4) = (s.cfg.entry k).command ∧ s.peek .rx (i + 3) = (s.cfg.entry k).length ∧
  (s.peek .rx (i + 1) = (s.cfg.entry k).leftDestination ∨ s.peek .rx (i + 1) = (s.cfg.entry k).rightDestination) ∧
  (s.peek .rx (i + 2) = (s.cfg.entry k).leftSource ∨ s.peek .rx (i + 2) = (s.cfg.entry k).rightSource)

/-- Every offset below `i` is passed over: no preamble stands there, or one that is not short and matches no entry
(41_frame_scanner.md rules R144, R147). -/
abbrev State.PassesTo (s : State) (i : Nat) : Prop :=
  ∀ j < i, s.peek .rx j = preamble → minFrame ≤ s.used .rx - j ∧ ∀ k < s.cfg.nmsg, ¬ s.Matches j k

/-- The scan stops at offset `i` on a preamble that matches entry `m` first (41_frame_scanner.md rules R145, R146). -/
abbrev State.Candidate (s : State) (i m : Nat) : Prop :=
  i < s.used .rx ∧ s.PassesTo i ∧ s.peek .rx i = preamble ∧ minFrame ≤ s.used .rx - i ∧
  m < s.cfg.nmsg ∧ s.Matches i m ∧ ∀ k < m, ¬ s.Matches i k

/-- `FS.SCAN` may run: on the main port, with a message set and the cursors of `RX` in range. -/
abbrev State.CanScan (s : State) : Prop := s.port = .M ∧ s.cfg.catValid = true ∧ s.bufOk .rx

/-! ## Encodings and frames to build -/

/-- The input list a row of the table asks for beside the command word `w` (rule R87). -/
abbrev DinFits (mnemonic : String) (c : Command) : Prop :=
  if mnemonic = "RB.FIN" then c.din.words = [] ∧ c.din.bytes.length = (c.word.extractLsb' 0 32).toNat
  else if mnemonic = "FB.BUILD" then
    c.din.bytes = [] ∧ c.din.words.length = if c.word.getLsbD 40 then 0 else (c.word.extractLsb' 32 8).toNat
  else c.din.bytes = [] ∧ c.din.words = []

/-- The preconditions P1 to P5 of rule R197 on the arguments of `FB.BUILD`. -/
abbrev BuildArgsOk (s : State) (sdi : BitVec 4) (k : BitVec 8) (wnull : Bool) (nw : BitVec 8) (nbf : Word) :
    Prop :=
  s.cfg.catValid = true ∧ k.toNat < s.cfg.nmsg ∧ sdi.toNat ≤ 3 ∧ nbf.toNat ≤ s.cfg.buildMaxBytes ∧
    nw.toNat ≤ s.cfg.buildMaxWords ∧ (wnull = true → nw.toNat = 0)

/-- The header and payload region of a frame (rules R200 to R202): preamble, the right address pair for SDI 3 and the
left pair otherwise, length and command from the catalog, and each stamped word as four bytes. -/
def frameRegion (s : State) (sdi : BitVec 4) (k : Nat) (stamped : List Word) : List Byte :=
  [preamble, if sdi = 3#4 then (s.cfg.entry k).rightDestination else (s.cfg.entry k).leftDestination,
    if sdi = 3#4 then (s.cfg.entry k).rightSource else (s.cfg.entry k).leftSource,
    (s.cfg.entry k).length, (s.cfg.entry k).command] ++
  stamped.flatMap (fun w =>
    if s.cfg.wordMsbFirst then [w.extractLsb' 24 8, w.extractLsb' 16 8, w.extractLsb' 8 8, w.extractLsb' 0 8]
    else [w.extractLsb' 0 8, w.extractLsb' 8 8, w.extractLsb' 16 8, w.extractLsb' 24 8])

/-- The odd-parity stamp of a word whose bit 31 is clear (rule R198). -/
def oddStamp (x : Word) : Word :=
  if (List.range 31).countP (fun i => x.getLsbD i) % 2 = 0 then x ||| 0x80000000#32 else x

/-! ## Runs -/

/-- The commands run one after the other; no state where one stops. -/
def runCommands : List Instr → State → Option State
  | [], s => some s
  | i :: is, s =>
    match exec i s with
    | .next t => runCommands is t
    | .fault _ => none
    | .refused _ => none

/-- A step that answers a state: what a safe run consists of. -/
def StepCompletes (s : State) : Prop := ∃ t, step s = .next t

/-- A run of bytes through buffer `b` in which no byte put in is dropped: `ins` are the bytes put in by `RB.PUSH` and
`RB.FIN`, `outs` the bytes taken out by `RB.POP` and `RB.FOUT`, in order (40_ring_buffer.md rule R132). -/
inductive FifoRun (buf : BitVec 4) (b : Buf) : State → List Byte → List Byte → State → Prop where
  | done (s : State) : FifoRun buf b s [] [] s
  | push {s t u : State} {ins outs : List Byte} (byte : Byte) (room : 0 < s.free b)
      (runs : exec (.rbPush buf byte) s = .next t) (rest : FifoRun buf b t ins outs u) :
      FifoRun buf b s (byte :: ins) outs u
  | fin {s t u : State} {ins outs : List Byte} (n : Word) (src : List Byte) (len : src.length = n.toNat)
      (room : src.length ≤ s.free b) (runs : exec (.rbFin buf n src) s = .next t)
      (rest : FifoRun buf b t ins outs u) : FifoRun buf b s (src ++ ins) outs u
  | pop {s t u : State} {ins outs : List Byte} (v : Byte) (held : 0 < s.used b)
      (runs : exec (.rbPop buf) s = .next t) (answer : Answered s t .ok (valOfByte v) [])
      (rest : FifoRun buf b t ins outs u) : FifoRun buf b s ins (v :: outs) u
  | fout {s t u : State} {ins outs dest : List Byte} (n : Word) (count : Word)
      (runs : exec (.rbFout buf n) s = .next t) (answer : Answered s t .ok count dest)
      (rest : FifoRun buf b t ins outs u) : FifoRun buf b s ins (dest ++ outs) u

end Sys2Proof.Machine
end

