-- ==== Sys2Proof/Certificates/Slice0/Obligations.lean ====
section
/-! DEFINITION. The statements about the block, one `def Obligations.<Name> : Prop` each. Where a statement rests on
a decision the spec marks as its own (D<n> of 92_eei_decisions.md) or on a choice of the model (log n), its docstring
says so. -/

open Sys2Proof Sys2Proof.Machine

/-! ## Encoding -/

/-- Every well-formed command is read back from its encoding, every operand at every value (rules R81, R82, R87, the
spec's own decisions D17, D19). -/
def Obligations.DecodeOfEncodeIsTheCommand : Prop :=
  ∀ i : Instr, i.wf = true → decode (encode i) = some i

/-- Every pair the decoder accepts is the encoding of the command it reads, and that command is well formed: no two
encodings mean one command, and no bit of a word is ignored (rules R82, R87, R98, decisions D17, D20). -/
def Obligations.EncodeOfDecodeIsTheWord : Prop :=
  ∀ (c : Command) (i : Instr), decode c = some i → encode i = c ∧ i.wf = true

/-- The decoder and spec/opcode_table.json accept the same words under the same mnemonics (rules R80, R87, R98,
decisions D17, D19, D20). -/
def Obligations.DecoderAgreesWithOpcodeTable : Prop :=
  ∀ (c : Command) (name : String),
    (∃ i, decode c = some i ∧ i.mnemonic = name) ↔
    (∃ row ∈ opcodeTable, row.mnemonic = name ∧ c.word &&& row.mask = row.value ∧ DinFits name c)

/-- All eighteen words of rule R104 decode to the commands they are written for (decision D17); the bytes and words the
rule leaves open in its two lists are any. -/
def Obligations.WorkedEncodingsDecode : Prop :=
  (∀ b0 b1 b2 b3 b4 : Byte, decode ⟨0x1510000000000005#64, ⟨[b0, b1, b2, b3, b4], []⟩⟩ =
    some (.rbFin 1#4 5#32 [b0, b1, b2, b3, b4])) ∧
  (∀ w0 w1 w2 w3 w4 : Word, decode ⟨0x403000050000001B#64, ⟨[], [w0, w1, w2, w3, w4]⟩⟩ =
    some (.fbBuild 3#4 0#8 false 5#8 27#32 [w0, w1, w2, w3, w4])) ∧
  decode ⟨0x10000000000000EA#64, ⟨[], []⟩⟩ = some (.rbPush 0#4 0xEA#8) ∧
  decode ⟨0x1010000000000001#64, ⟨[], []⟩⟩ = some (.rbPush 1#4 0x01#8) ∧
  decode ⟨0x1110000000000000#64, ⟨[], []⟩⟩ = some (.rbPop 1#4) ∧
  decode ⟨0x1200000000000003#64, ⟨[], []⟩⟩ = some (.rbPeek 0#4 3#32) ∧
  decode ⟨0x13000000FFFFFFFF#64, ⟨[], []⟩⟩ = some (.rbAdv 0#4 0xFFFFFFFF#32) ∧
  decode ⟨0x141000000000001B#64, ⟨[], []⟩⟩ = some (.rbFout 1#4 27#32) ∧
  decode ⟨0x1600000000000000#64, ⟨[], []⟩⟩ = some (.rbUsed 0#4) ∧
  decode ⟨0x1700000000000000#64, ⟨[], []⟩⟩ = some (.rbReset 0#4) ∧
  decode ⟨0x2000000000000000#64, ⟨[], []⟩⟩ = some .fsScan ∧
  decode ⟨0x210000000000001B#64, ⟨[], []⟩⟩ = some (.cvCrc 27#32) ∧
  decode ⟨0x2200000000000013#64, ⟨[], []⟩⟩ = some (.plRead 0#8 19#32) ∧
  decode ⟨0x2200200000000001#64, ⟨[], []⟩⟩ = some (.plRead 2#8 1#32) ∧
  decode ⟨0x3000000000000000#64, ⟨[], []⟩⟩ = some .tmTick ∧
  decode ⟨0x3100100000000000#64, ⟨[], []⟩⟩ = some (.tmStat 1#8) ∧
  decode ⟨0x3200100000000000#64, ⟨[], []⟩⟩ = some (.tmElapsed 1#8) ∧
  decode ⟨0x4000110000000007#64, ⟨[], []⟩⟩ = some (.fbBuild 0#4 1#8 true 0#8 7#32 [])

/-- All eighteen worked lines of rule R104, its two open lists filled with five bytes and five words, assemble to one
command each, whose command word is the one the rule gives; those two lines carry the bytes and the words as their
input lists; and the pseudo-commands of rule R103 assemble to their expansions (the line syntax is the spec's own
decision D21, its details log 17). -/
def Obligations.WorkedLinesAssemble : Prop :=
  let word (line : String) : Option (List Word64) := (assemble line.toList).map fun is => is.map fun i => (encode i).word
  let fiveWords := "FB.BUILD 3, 0, 27, ".toList ++ [openBrace] ++
    "00000001 00000003 12345678 7FFFFFFF 00000000".toList ++ [closeBrace]
  word "RB.PUSH RX, 0xEA" = some [0x10000000000000EA#64] ∧ word "RB.PUSH TX, 0x01" = some [0x1010000000000001#64] ∧
  word "RB.POP TX" = some [0x1110000000000000#64] ∧ word "RB.PEEK RX, 3" = some [0x1200000000000003#64] ∧
  word "RB.ADV RX, 0xFFFFFFFF" = some [0x13000000FFFFFFFF#64] ∧ word "RB.FOUT TX, 27" = some [0x141000000000001B#64] ∧
  word "RB.FIN TX, [01 02 03 04 05]" = some [0x1510000000000005#64] ∧
  assemble "RB.FIN TX, [01 02 03 04 05]".toList = some [.rbFin 1#4 5#32 [1#8, 2#8, 3#8, 4#8, 5#8]] ∧
  word "RB.USED RX" = some [0x1600000000000000#64] ∧ word "RB.RESET RX" = some [0x1700000000000000#64] ∧
  word "FS.SCAN" = some [0x2000000000000000#64] ∧ word "CV.CRC 27" = some [0x210000000000001B#64] ∧
  word "PL.READ 0, 19" = some [0x2200000000000013#64] ∧ word "PL.READ 2, 1" = some [0x2200200000000001#64] ∧
  word "TM.TICK" = some [0x3000000000000000#64] ∧ word "TM.STAT 1" = some [0x3100100000000000#64] ∧
  word "TM.ELAPSED 1" = some [0x3200100000000000#64] ∧
  (assemble fiveWords).map (List.map fun i => (encode i).word) = some [0x403000050000001B#64] ∧
  assemble fiveWords =
    some [.fbBuild 3#4 0#8 false 5#8 27#32 [1#32, 3#32, 0x12345678#32, 0x7FFFFFFF#32, 0#32]] ∧
  word "FB.BUILD 0, 1, 7, null" = some [0x4000110000000007#64] ∧
  word "RB.DRAIN RX ; empties the buffer" = some [0x13000000FFFFFFFF#64] ∧
  word "RB.PUSHS TX, [C0 01]" = some [0x10100000000000C0#64, 0x1010000000000001#64] ∧
  word "TM.TICKS 2" = some [0x3000000000000000#64, 0x3000000000000000#64]

/-! ## The step -/

/-- A step that finds a command at the head of its inputs removes it, latches its port and runs the command the
decoder reads; a pair that is no command is answered `ST_ILLEGAL_CMD` with `VAL = 0` and no output list and changes
nothing else (rules R62, R98, R99, decisions D4, D20; the inputs as a list are the model's, log 7). -/
def Obligations.StepRunsTheDecodedCommand : Prop :=
  ∀ (s : State) (p : Port) (c : Command) (rest : List Arrival),
    s.pending = (match p with | .T => Arrival.transport c | .M => Arrival.main c) :: rest →
    (∀ i, decode c = some i → step s = exec i { s with port := p, pending := rest }) ∧
    (decode c = none →
      ∃ t, step s = .next t ∧ OnlyAnswers { s with port := p, pending := rest } t ∧
        Answered { s with port := p, pending := rest } t .illegalCmd 0#32 [])

/-- Two commands that arrive together are taken one after the other, in one of the two orders (rule R62, decision
D4; which order is a free value, log 7). -/
def Obligations.SimultaneousCommandsAreSerialised : Prop :=
  ∀ (s : State) (ct cm : Command) (rest : List Arrival), s.pending = .both ct cm :: rest →
    step s = step { s with arbiter := s.arbiter + 1, pending := .transport ct :: .main cm :: rest } ∨
    step s = step { s with arbiter := s.arbiter + 1, pending := .main cm :: .transport ct :: rest }

/-- With nothing presented a step changes nothing: the block never acts on its own (rules R28, R222, R249; log 8). -/
def Obligations.IdleStepChangesNothing : Prop :=
  ∀ s : State, s.pending = [] → step s = .next s

/-! ## Reset -/

/-- After reset, whether by construction or by the reset input, every `busFailed[k]` is 1 (rule R43). -/
def Obligations.ResetSetsEveryBusFailedFlag : Prop :=
  (∀ (c : Config) (k : Nat), k < c.nmsg → ((State.resetWith c).msg k).busFailed = true) ∧
  (∀ (s : State) (rest : List Arrival), s.pending = .reset :: rest →
    ∃ t, step s = .next t ∧ ∀ k < t.cfg.nmsg, (t.msg k).busFailed = true)

/-- Reset puts every piece of the spec's state at its value of rule R46, every store unwritten, and leaves the
configuration; the reset input returns no response (rules R40 to R46, R240, decisions D11, D12, D14; what the reset
input does to the model's own fields is log 11). -/
def Obligations.ResetGivesTheResetValues : Prop :=
  (∀ c : Config, (State.resetWith c).AtReset ∧ (State.resetWith c).cfg = c) ∧
  (∀ (s : State) (rest : List Arrival), s.pending = .reset :: rest →
    ∃ t, step s = .next t ∧ t.AtReset ∧ t.cfg = s.cfg ∧ t.responses = s.responses ∧ t.pending = rest)

/-- The reset state of every configuration meets the invariant (rules R22, R40 to R46, and the invariant of Safety.lean). -/
def Obligations.ResetMeetsTheInvariant : Prop :=
  ∀ c : Config, (State.resetWith c).Inv

/-! ## Whole-machine rules -/

/-- Every step keeps the invariant: cursors in range, every store canonical and within its indices, every unread byte
of a ring buffer written since reset, `NMSG` message states, counters of `TICK_W` bits, payload lengths and payload
bytes as their catalog entries allow (rules R22, R26, R27, R36, R41, R115, and 95_test_vectors.md section 3.4). -/
def Obligations.EveryStepKeepsTheInvariant : Prop :=
  ∀ s t : State, s.Inv → step s = .next t → t.Inv

/-- From a state that meets the invariant a step always completes, but for one case: the command taken is an
`FB.BUILD` some of whose words has bit 31 set (rules R13, R15, R199, decision D1; the refusal is log 5). -/
def Obligations.OnlyASetParityBitStopsTheBlock : Prop :=
  ∀ s : State, s.Inv →
    StepCompletes s ∨
    (step s = .refused .parityBitSet ∧
      ∃ c t sdi k wnull nw nbf words, take s = .command c t ∧
        decode c = some (.fbBuild sdi k wnull nw nbf words) ∧ ∃ w ∈ words, w.getLsbD 31 = true)

/-- No step changes the configuration: not the catalog, not a threshold, not a size (rule R11). -/
def Obligations.ConfigurationNeverChanges : Prop :=
  ∀ s t : State, step s = .next t → t.cfg = s.cfg

/-- Only `TM.TICK` writes a `busFailed` flag; a counter is written only by `TM.TICK` and, to zero, by an accepted
`FS.SCAN` of its own message; a payload store and its length only by an accepted `FS.SCAN` of their own message that
has a payload store (rules R26, R27, R30; partly inferences of the spec). -/
def Obligations.MessageStateWriters : Prop :=
  ∀ (i : Instr) (s t : State) (k : Nat), i ≠ .tmTick → exec i s = .next t →
    (t.msg k).busFailed = (s.msg k).busFailed ∧
    (t.msg k = s.msg k ∨
      (i = .fsScan ∧ (t.msg k).elapsed = 0 ∧
        (∃ d, Answered s t .ok (scanVal d k) []) ∧
        ((s.cfg.entry k).payloadEn = false →
          (t.msg k).payload = (s.msg k).payload ∧ (t.msg k).payloadLen = (s.msg k).payloadLen)))

/-- With the cursors of buffer `b` in range, `head[b]` is written only by `RB.PUSH`, `RB.FIN` and `RB.RESET` and, for
`TX`, by `FB.BUILD`; `tail[b]` only by `RB.POP`, `RB.ADV`, `RB.FOUT` and `RB.RESET` and, for `RX`, by `FS.SCAN`
(rule R24, an inference of the spec). -/
def Obligations.CursorWriters : Prop :=
  ∀ (i : Instr) (s t : State) (b : Buf), s.bufOk b → exec i s = .next t →
    ((t.ring b).head = (s.ring b).head ∨
      (∃ buf byte, i = .rbPush buf byte ∧ bufOf buf = some b) ∨
      (∃ buf n src, i = .rbFin buf n src ∧ bufOf buf = some b) ∨
      (∃ buf, i = .rbReset buf ∧ bufOf buf = some b) ∨
      (b = .tx ∧ ∃ sdi k wnull nw nbf words, i = .fbBuild sdi k wnull nw nbf words)) ∧
    ((t.ring b).tail = (s.ring b).tail ∨
      (∃ buf, i = .rbPop buf ∧ bufOf buf = some b) ∨
      (∃ buf n, i = .rbAdv buf n ∧ bufOf buf = some b) ∨
      (∃ buf n, i = .rbFout buf n ∧ bufOf buf = some b) ∨
      (∃ buf, i = .rbReset buf ∧ bufOf buf = some b) ∨
      (b = .rx ∧ i = .fsScan))

/-- Every command returns exactly one response, on the port it came from; `RSP[55:32] = 0`; a status other than
`ST_OK` comes with `VAL = 0` except for `FS.SCAN`; only `RB.FOUT` emits an output list (rules R85, R87, decisions D18,
D19). -/
def Obligations.EveryCommandReturnsOneResponse : Prop :=
  ∀ (i : Instr) (s t : State), exec i s = .next t →
    ∃ st val dout, Answered s t st val dout ∧
      (responseWord st val).extractLsb' 56 8 = st.code ∧ (responseWord st val).extractLsb' 32 24 = 0#24 ∧
      (responseWord st val).extractLsb' 0 32 = val ∧
      (st ≠ .ok → i ≠ .fsScan → val = 0#32) ∧
      (dout ≠ [] → ∃ buf n, i = .rbFout buf n)

/-- `RB.PEEK`, `RB.USED`, `CV.CRC`, `PL.READ`, `TM.STAT` and `TM.ELAPSED` change no state (rule R56). -/
def Obligations.ReadOutsChangeNoState : Prop :=
  ∀ (i : Instr) (s t : State),
    ((∃ buf o, i = .rbPeek buf o) ∨ (∃ buf, i = .rbUsed buf) ∨ (∃ n, i = .cvCrc n) ∨ (∃ k o, i = .plRead k o) ∨
      (∃ k, i = .tmStat k) ∨ (∃ k, i = .tmElapsed k)) →
    exec i s = .next t → OnlyAnswers s t

/-- A command taken on the T port never changes a message state, whatever its word: the transport agent cannot scan,
tick or build (rule R228, decision D4). -/
def Obligations.TransportPortNeverChangesMessages : Prop :=
  ∀ (s t : State) (c : Command) (rest : List Arrival), s.pending = .transport c :: rest → step s = .next t →
    t.msgs = s.msgs

/-- The seven commands that are not ring-buffer commands are illegal on the T port, and `FB.BUILD` is illegal in a
block without a builder: `ST_ILLEGAL_CMD`, `VAL = 0`, nothing changed (rules R98, R228, decisions D2, D4, D20). -/
def Obligations.CommandsWithoutTheRightAreIllegal : Prop :=
  ∀ (i : Instr) (s : State),
    (s.port = .T ∧ (i = .fsScan ∨ (∃ n, i = .cvCrc n) ∨ (∃ k o, i = .plRead k o) ∨ i = .tmTick ∨
        (∃ k, i = .tmStat k) ∨ (∃ k, i = .tmElapsed k) ∨
        ∃ sdi k wnull nw nbf words, i = .fbBuild sdi k wnull nw nbf words)) ∨
      (s.cfg.hasBuilder = false ∧ ∃ sdi k wnull nw nbf words, i = .fbBuild sdi k wnull nw nbf words) →
    ∃ t, exec i s = .next t ∧ OnlyAnswers s t ∧ Answered s t .illegalCmd 0#32 []

/-! ## Ring buffers -/

/-- A ring-buffer command with `BUF > 1` is an invalid argument and changes nothing, on either port (rules R83, R110,
R216, decisions D17, D18). -/
def Obligations.BadBufferIsAnInvalidArgument : Prop :=
  ∀ (i : Instr) (buf : BitVec 4) (s : State), 1 < buf.toNat →
    ((∃ byte, i = .rbPush buf byte) ∨ i = .rbPop buf ∨ (∃ o, i = .rbPeek buf o) ∨ (∃ n, i = .rbAdv buf n) ∨
      (∃ n, i = .rbFout buf n) ∨ (∃ n src, i = .rbFin buf n src) ∨ i = .rbUsed buf ∨ i = .rbReset buf) →
    ∃ t, exec i s = .next t ∧ OnlyAnswers s t ∧ Answered s t .invalidArg 0#32 []

/-- `RB.PUSH` appends its byte when there is room, written at the old head, and is silently dropped when the buffer is
full; it answers `ST_OK` and 0 either way; the tail, every other byte of the storage and the rest of the state stay
(rule R116, decision D22). -/
def Obligations.RbPushAppendsOrDrops : Prop :=
  ∀ (buf : BitVec 4) (b : Buf) (byte : Byte) (s : State), bufOf buf = some b → s.bufOk b →
    ∃ t, exec (.rbPush buf byte) s = .next t ∧ OnlyRing b s t ∧ Answered s t .ok 0#32 [] ∧
      (t.ring b).tail = (s.ring b).tail ∧
      ((s.ring b).tail = ((s.ring b).head + 1) % s.cap b → t.ring b = s.ring b) ∧
      ((s.ring b).tail ≠ ((s.ring b).head + 1) % s.cap b →
        t.contents b = s.contents b ++ [byte] ∧ (t.ring b).head = ((s.ring b).head + 1) % s.cap b ∧
        t.dataByte b (s.ring b).head = byte ∧
        ∀ p, p ≠ (s.ring b).head → t.dataByte b p = s.dataByte b p)

/-- `RB.POP` takes the first unread byte, or answers the sentinel 0 and changes nothing when the buffer is empty; the
head, the storage and the rest of the state stay (rule R118, decision D22). -/
def Obligations.RbPopTakesTheFirstByte : Prop :=
  ∀ (buf : BitVec 4) (b : Buf) (s : State), bufOf buf = some b → s.bufOk b →
    ∃ t, exec (.rbPop buf) s = .next t ∧ OnlyRing b s t ∧
      (t.ring b).head = (s.ring b).head ∧ (t.ring b).data = (s.ring b).data ∧
      ((s.ring b).head = (s.ring b).tail → t.ring b = s.ring b ∧ Answered s t .ok 0#32 []) ∧
      ((s.ring b).head ≠ (s.ring b).tail →
        (t.ring b).tail = ((s.ring b).tail + 1) % s.cap b ∧
        ∃ v, s.contents b = v :: t.contents b ∧ Answered s t .ok (v.setWidth 32) [])

/-- `RB.PEEK` answers the byte at physical index `(tail + offset) mod CAP` and changes nothing; below `Used` that is
the unread byte at that offset (rule R120, decision D5). -/
def Obligations.RbPeekReadsWithoutConsuming : Prop :=
  ∀ (buf : BitVec 4) (b : Buf) (offset : Word) (s : State), bufOf buf = some b → s.bufOk b →
    ∃ t, exec (.rbPeek buf offset) s = .next t ∧ OnlyAnswers s t ∧
      Answered s t .ok ((s.dataByte b (((s.ring b).tail + offset.toNat) % s.cap b)).setWidth 32) [] ∧
      ∀ v, (s.contents b)[offset.toNat]? = some v → Answered s t .ok (v.setWidth 32) []

/-- `RB.ADV` drops the first `min(n, Used)` unread bytes and nothing else: the tail never passes the head, and the
head, the storage and the rest of the state stay; a `BUF` that names no buffer is an invalid argument (rules R83, R122;
the refusal of a bad cursor is outside it, log 6). Its command word is that of format BO with `OPC = 0x13` (rules R80
to R82, the spec's own decision D17). -/
def Obligations.RbAdvDropsAtMostUsedBytes : Prop :=
  (∀ (buf : BitVec 4) (b : Buf) (n : Word) (s : State), bufOf buf = some b → s.bufOk b →
    ∃ t, exec (.rbAdv buf n) s = .next t ∧ OnlyRing b s t ∧ Answered s t .ok 0#32 [] ∧
      (t.ring b).head = (s.ring b).head ∧ (t.ring b).data = (s.ring b).data ∧
      (t.ring b).tail = ((s.ring b).tail + min n.toNat (s.used b)) % s.cap b ∧
      t.contents b = (s.contents b).drop n.toNat ∧
      (s.used b ≤ n.toNat → (t.ring b).tail = (t.ring b).head)) ∧
  (∀ (buf : BitVec 4) (n : Word) (s : State), 1 < buf.toNat →
    ∃ t, exec (.rbAdv buf n) s = .next t ∧ OnlyAnswers s t ∧ Answered s t .invalidArg 0#32 []) ∧
  (∀ (buf : BitVec 4) (n : Word), (encode (.rbAdv buf n)).word = 0x13#8 ++ buf ++ 0#20 ++ n)

/-- `RB.FOUT` copies out and consumes the first `min(n, Used)` unread bytes, in order; with `n > CAP` it does nothing
and answers 0; the head, the storage and the rest of the state stay (rule R124, decision D23). -/
def Obligations.RbFoutCopiesOutInOrder : Prop :=
  ∀ (buf : BitVec 4) (b : Buf) (n : Word) (s : State), bufOf buf = some b → s.bufOk b →
    ∃ t, exec (.rbFout buf n) s = .next t ∧ OnlyRing b s t ∧
      (t.ring b).head = (s.ring b).head ∧ (t.ring b).data = (s.ring b).data ∧
      (s.cap b < n.toNat → t.ring b = s.ring b ∧ Answered s t .ok 0#32 []) ∧
      (n.toNat ≤ s.cap b →
        t.contents b = (s.contents b).drop n.toNat ∧
        Answered s t .ok (BitVec.ofNat 32 (min n.toNat (s.used b))) ((s.contents b).take n.toNat))

/-- `RB.FIN` appends the first `min(n, Free)` bytes of its input list, in order, and answers how many; with `n > CAP` it
does nothing and answers 0; the tail, every byte of the storage outside the slots from the head on that it fills and
the rest of the state stay (rule R127, decision D23). -/
def Obligations.RbFinCopiesInWhatFits : Prop :=
  ∀ (buf : BitVec 4) (b : Buf) (n : Word) (src : List Byte) (s : State), bufOf buf = some b → s.bufOk b →
    src.length = n.toNat →
    ∃ t, exec (.rbFin buf n src) s = .next t ∧ OnlyRing b s t ∧ (t.ring b).tail = (s.ring b).tail ∧
      (s.cap b < n.toNat → t.ring b = s.ring b ∧ Answered s t .ok 0#32 []) ∧
      (n.toNat ≤ s.cap b →
        t.contents b = s.contents b ++ src.take (s.free b) ∧
        Answered s t .ok (BitVec.ofNat 32 (min n.toNat (s.free b))) [] ∧
        ∀ p, (∀ j < min n.toNat (s.free b), p ≠ ((s.ring b).head + j) % s.cap b) →
          t.dataByte b p = s.dataByte b p)

/-- `RB.USED` answers the number of unread bytes, `head - tail` or `CAP - (tail - head)`, which is at most `CAP - 1`, is
0 exactly when the buffer is empty and equals `(head - tail) mod CAP`, and changes nothing; a `BUF` that names no buffer
is an invalid argument (rules R83, R112; that the count equals `(head - tail) mod CAP` is an inference of the spec). Its
command word is that of format B with `OPC = 0x16` (rules R80 to R82, the spec's own decision D17). -/
def Obligations.RbUsedCountsAcrossTheWrap : Prop :=
  (∀ (buf : BitVec 4) (b : Buf) (s : State), bufOf buf = some b → s.bufOk b →
    ∃ t u, exec (.rbUsed buf) s = .next t ∧ OnlyAnswers s t ∧ Answered s t .ok (BitVec.ofNat 32 u) [] ∧
      ((s.ring b).tail ≤ (s.ring b).head → u = (s.ring b).head - (s.ring b).tail) ∧
      ((s.ring b).head < (s.ring b).tail → u = s.cap b - ((s.ring b).tail - (s.ring b).head)) ∧
      u ≤ s.cap b - 1 ∧ (u = 0 ↔ (s.ring b).head = (s.ring b).tail) ∧
      u = ((s.ring b).head + s.cap b - (s.ring b).tail) % s.cap b ∧ u = (s.contents b).length) ∧
  (∀ (buf : BitVec 4) (s : State), 1 < buf.toNat →
    ∃ t, exec (.rbUsed buf) s = .next t ∧ OnlyAnswers s t ∧ Answered s t .invalidArg 0#32 []) ∧
  (∀ buf : BitVec 4, (encode (.rbUsed buf)).word = 0x16#8 ++ buf ++ 0#52)

/-- `RB.RESET` puts both cursors of its buffer at zero, whatever they were, and touches nothing else: not the storage,
not the other buffer, not a message state; a `BUF` that names no buffer is an invalid argument (rules R83, R130). Its
command word is that of format B with `OPC = 0x17` (rules R80 to R82, the spec's own decision D17). -/
def Obligations.RbResetZeroesTheCursorsOnly : Prop :=
  (∀ (buf : BitVec 4) (b : Buf) (s : State), bufOf buf = some b →
    ∃ t, exec (.rbReset buf) s = .next t ∧ OnlyRing b s t ∧ Answered s t .ok 0#32 [] ∧
      (t.ring b).head = 0 ∧ (t.ring b).tail = 0 ∧ (t.ring b).data = (s.ring b).data ∧ t.contents b = []) ∧
  (∀ (buf : BitVec 4) (s : State), 1 < buf.toNat →
    ∃ t, exec (.rbReset buf) s = .next t ∧ OnlyAnswers s t ∧ Answered s t .invalidArg 0#32 []) ∧
  (∀ buf : BitVec 4, (encode (.rbReset buf)).word = 0x17#8 ++ buf ++ 0#52)

/-- The defensive cursor check: with a cursor out of range `RB.FOUT` and `RB.FIN` of at most `CAP` bytes zero both
cursors, write no byte and answer 0; of more than `CAP` bytes they answer 0 and leave the buffer as it is (rules R125,
R226, decision D23). -/
def Obligations.CorruptedCursorsAreResetDefensively : Prop :=
  ∀ (i : Instr) (buf : BitVec 4) (b : Buf) (n : Word) (s : State), bufOf buf = some b → ¬ s.bufOk b →
    (i = .rbFout buf n ∨ ∃ src, i = .rbFin buf n src) →
    ∃ t, exec i s = .next t ∧ OnlyRing b s t ∧ Answered s t .ok 0#32 [] ∧
      (s.cap b < n.toNat → t.ring b = s.ring b) ∧
      (n.toNat ≤ s.cap b →
        (t.ring b).head = 0 ∧ (t.ring b).tail = 0 ∧ (t.ring b).data = (s.ring b).data)

/-- With a cursor of its buffer out of range every other command that uses the buffer is refused by the model, its
arguments being valid (93_implementation_defined.md U3; log 6). -/
def Obligations.CorruptedCursorsAreOtherwiseRefused : Prop :=
  ∀ (i : Instr) (buf : BitVec 4) (b : Buf) (s : State), ¬ s.bufOk b →
    (bufOf buf = some b ∧ ((∃ byte, i = .rbPush buf byte) ∨ i = .rbPop buf ∨ (∃ o, i = .rbPeek buf o) ∨
        (∃ n, i = .rbAdv buf n) ∨ i = .rbUsed buf)) ∨
      (b = .rx ∧ s.port = .M ∧ ((i = .fsScan ∧ s.cfg.catValid = true) ∨
        ∃ n : Word, i = .cvCrc n ∧ n.toNat ≤ s.cap .rx)) ∨
      (b = .tx ∧ s.port = .M ∧ s.cfg.hasBuilder = true ∧ ∃ sdi k wnull nw nbf words,
        i = .fbBuild sdi k wnull nw nbf words ∧ BuildArgsOk s sdi k wnull nw nbf ∧
          ∀ w ∈ words, w.getLsbD 31 = false) →
    exec i s = .refused (.cursorOutOfRange b)

/-- `Runs` splits a logical range into at most two contiguous runs inside the storage, whose bytes in order are the
range's bytes in order; the second is empty exactly when the range does not cross the physical end (rule R114). -/
def Obligations.RunsSplitARangeInOrder : Prop :=
  ∀ (cap start len : Nat), start < cap → len ≤ cap →
    ∃ p1 l1 p2 l2, runs cap start len = ((p1, l1), (p2, l2)) ∧
      l1 + l2 = len ∧ p1 + l1 ≤ cap ∧ p2 + l2 ≤ cap ∧ p1 = start ∧ p2 = 0 ∧
      (l2 = 0 ↔ start + len ≤ cap) ∧ (cap < start + len → l1 = cap - start) ∧
      (List.range l1).map (p1 + ·) ++ (List.range l2).map (p2 + ·) =
        (List.range len).map (fun j => (start + j) % cap) ∧
      ∀ (fill : Nat → Byte) (m : Memory),
        memRead fill m p1 l1 ++ memRead fill m p2 l2 =
          (List.range len).map (fun j => Memory.byteAt fill m ((start + j) % cap))

/-- First in, first out, however often the cursors wrap: in every run of `RB.PUSH`, `RB.FIN`, `RB.POP` and `RB.FOUT` on
one buffer in which no byte put in is dropped, the bytes held at first and the bytes put in are, in order, the bytes
taken out and the bytes held at the end (rule R132; its form for all four commands is an inference of the spec). -/
def Obligations.BytesLeaveInTheOrderTheyCame : Prop :=
  ∀ (buf : BitVec 4) (b : Buf) (s t : State) (ins outs : List Byte), bufOf buf = some b → s.bufOk b →
    FifoRun buf b s ins outs t → s.contents b ++ ins = outs ++ t.contents b

/-- At every moment of every run of commands on cursors in range, a buffer holds at most `CAP - 1` bytes, and a push
never overwrites an unread byte: what was held stays held, in front (rule R115; its form for all commands is an
inference of the spec). -/
def Obligations.NoRunOverfillsABuffer : Prop :=
  (∀ (is : List Instr) (s t : State) (b : Buf), s.bufOk .rx → s.bufOk .tx → runCommands is s = some t →
    t.bufOk b ∧ t.used b ≤ t.cap b - 1) ∧
  (∀ (buf : BitVec 4) (b : Buf) (byte : Byte) (s t : State), bufOf buf = some b → s.bufOk b →
    exec (.rbPush buf byte) s = .next t → s.contents b <+: t.contents b)

/-! ## CRC and payload read-out -/

/-- The split-buffer CRC equals the single-call CRC over the same bytes in logical order, for every lawful CRC
primitive, every start and every length; and a computation split at any inner boundary gives the same (rule R169). -/
def Obligations.SplitCrcEqualsSingleCall : Prop :=
  ∀ (C : LawfulCrc) (cap : Nat) (fill : Nat → Byte) (m : Memory) (t len : Nat), t < cap → len ≤ cap →
    crcOver C cap fill m t len =
      C.fn ((List.range len).map fun j => Memory.byteAt fill m ((t + j) % cap)) C.seed ∧
    ∀ j ≤ len, crcOver C cap fill m t len =
      C.fn ((List.range (len - j)).map fun i => Memory.byteAt fill m ((t + j + i) % cap)) (crcOver C cap fill m t j)

/-- `CV.CRC n` answers the CRC of the `n` bytes from `tail[RX]` in logical order, which for `n <= Used` are the first
`n` unread bytes, and changes nothing; `n > CAP[RX]` is an invalid argument (rule R170, decision D25). -/
def Obligations.CvCrcAnswersTheRemainder : Prop :=
  (∀ (n : Word) (s : State), s.port = .M → s.bufOk .rx → n.toNat ≤ s.cap .rx →
    ∃ t, exec (.cvCrc n) s = .next t ∧ OnlyAnswers s t ∧
      Answered s t .ok ((Config.crc.fn ((List.range n.toNat).map (s.peek .rx)) Config.crc.seed).setWidth 32) [] ∧
      (n.toNat ≤ s.used .rx →
        Answered s t .ok ((Config.crc.fn ((s.contents .rx).take n.toNat) Config.crc.seed).setWidth 32) [])) ∧
  (∀ (n : Word) (s : State), s.port = .M → s.cap .rx < n.toNat →
    ∃ t, exec (.cvCrc n) s = .next t ∧ OnlyAnswers s t ∧ Answered s t .invalidArg 0#32 [])

/-- `PL.READ k, off` answers `payloadLen[k]` in `VAL[15:8]` and the payload byte in `VAL[7:0]` and changes nothing; a
message index or an offset out of range is an invalid argument (rule R172, decision D11). -/
def Obligations.PlReadAnswersLengthAndByte : Prop :=
  (∀ (k : BitVec 8) (off : Word) (s : State), s.port = .M → k.toNat < s.cfg.nmsg → off.toNat < s.cfg.payloadMax →
    ∃ t val, exec (.plRead k off) s = .next t ∧ OnlyAnswers s t ∧ Answered s t .ok val [] ∧
      val.extractLsb' 0 8 = s.payloadByte k.toNat off.toNat ∧
      val.extractLsb' 8 8 = (s.msg k.toNat).payloadLen ∧ val.extractLsb' 16 16 = 0#16) ∧
  (∀ (k : BitVec 8) (off : Word) (s : State), s.port = .M →
    s.cfg.nmsg ≤ k.toNat ∨ s.cfg.payloadMax ≤ off.toNat →
    ∃ t, exec (.plRead k off) s = .next t ∧ OnlyAnswers s t ∧ Answered s t .invalidArg 0#32 [])

/-! ## The frame scanner -/

/-- A scan with nothing to find, no preamble that is short or matches an entry, discards every byte held and answers
`ST_NO_MATCH` with their number; an empty buffer is the case of none (rules R140, R143, R147, R148, R149, R218, decisions
D18, D24). -/
def Obligations.ScanDiscardsAllWhenNothingMatches : Prop :=
  ∀ s : State, s.CanScan → s.PassesTo (s.used .rx) →
    ∃ t, exec .fsScan s = .next t ∧ OnlyTailAndMsgs s t ∧ t.msgs = s.msgs ∧ t.contents .rx = [] ∧
      Answered s t .noMatch (BitVec.ofNat 32 (s.used .rx * 65536)) []

/-- A scan that comes to a preamble with fewer than 6 bytes from it on discards what stands before it, keeps it and
all behind it, and answers `ST_INCOMPLETE` with the number discarded (rules R144, R148, R217, decisions D18, D24). -/
def Obligations.ScanKeepsAShortPreamble : Prop :=
  ∀ (s : State) (i : Nat), s.CanScan → i < s.used .rx → s.PassesTo i → s.peek .rx i = preamble →
    s.used .rx - i < minFrame →
    ∃ t, exec .fsScan s = .next t ∧ OnlyTailAndMsgs s t ∧ t.msgs = s.msgs ∧
      t.contents .rx = (s.contents .rx).drop i ∧ Answered s t .incomplete (BitVec.ofNat 32 (i * 65536)) []

/-- A scan whose candidate is still incomplete discards what stands before it, consumes nothing of it, and answers
`ST_INCOMPLETE`; the next scan finds the same candidate at offset 0 (rules R146, R150, R217, decisions D18, D24). -/
def Obligations.ScanWaitsForAnIncompleteCandidate : Prop :=
  ∀ (s : State) (i m : Nat), s.CanScan → s.Candidate i m → s.used .rx - i < (s.cfg.entry m).frameLen →
    ∃ t, exec .fsScan s = .next t ∧ OnlyTailAndMsgs s t ∧ t.msgs = s.msgs ∧
      t.contents .rx = (s.contents .rx).drop i ∧ Answered s t .incomplete (BitVec.ofNat 32 (i * 65536)) [] ∧
      t.Candidate 0 m

/-- A complete candidate whose CRC over all `L` bytes is not zero is rejected: what stands before it and exactly one
byte more are dropped, no message state is written, and the answer is `ST_CRC_MISMATCH` with the discard count, which
does not count that byte (rules R163, R164, R219). It is said of every lawful CRC primitive `C`, the block's own
included: of that one no rule says that any remainder is not zero. -/
def Obligations.ScanRejectsByDroppingOneByte : Prop :=
  (∀ s : State, exec .fsScan s = fsScanWith Config.crc s) ∧
  ∀ (C : LawfulCrc) (s : State) (i m : Nat), s.CanScan → s.Candidate i m →
    (s.cfg.entry m).frameLen ≤ s.used .rx - i →
    C.fn (((s.contents .rx).drop i).take (s.cfg.entry m).frameLen) C.seed ≠ 0#16 →
    ∃ t, fsScanWith C s = .next t ∧ OnlyTailAndMsgs s t ∧ t.msgs = s.msgs ∧
      t.contents .rx = (s.contents .rx).drop (i + 1) ∧
      Answered s t .crcMismatch (BitVec.ofNat 32 (i * 65536)) []

/-- A complete candidate whose CRC over all `L` bytes is zero is accepted: what stands before it and the whole frame
are consumed, the payload is stored in stream order and its length recorded where a payload store is configured, the
matched counter is zeroed, every other message state and every flag stays, and the answer is `ST_OK` with the index
and the discard count (rules R161, R163, R165, R166, R168; with no payload store decision D13: only 7 bytes are
consumed when `NOPAYLOAD_SKIPS` is false). -/
def Obligations.ScanAcceptsAWholeFrame : Prop :=
  ∀ (s : State) (i m : Nat), s.CanScan → s.msgs.length = s.cfg.nmsg → s.Candidate i m →
    (s.cfg.entry m).frameLen ≤ s.used .rx - i →
    Config.crc.fn (((s.contents .rx).drop i).take (s.cfg.entry m).frameLen) Config.crc.seed = 0#16 →
    ∃ t, exec .fsScan s = .next t ∧ OnlyTailAndMsgs s t ∧
      Answered s t .ok (BitVec.ofNat 32 (i * 65536 + m)) [] ∧
      t.contents .rx = (s.contents .rx).drop
        (i + if (s.cfg.entry m).payloadEn || s.cfg.noPayloadSkips then (s.cfg.entry m).frameLen else 7) ∧
      t.msgs.length = s.msgs.length ∧ (∀ k, k ≠ m → t.msg k = s.msg k) ∧
      (t.msg m).elapsed = 0 ∧ (t.msg m).busFailed = (s.msg m).busFailed ∧
      ((s.cfg.entry m).payloadEn = true →
        (t.msg m).payloadLen = (s.cfg.entry m).length - 1#8 ∧
        (∀ j < (s.cfg.entry m).length.toNat - 1, some (t.payloadByte m j) = (s.contents .rx)[i + 5 + j]?) ∧
        ∀ j, (s.cfg.entry m).length.toNat - 1 ≤ j → t.payloadByte m j = s.payloadByte m j) ∧
      ((s.cfg.entry m).payloadEn = false →
        (t.msg m).payloadLen = (s.msg m).payloadLen ∧ (t.msg m).payload = (s.msg m).payload)

/-- With no message set `FS.SCAN` is an invalid argument and writes nothing (rule R142, decision D10). -/
def Obligations.ScanWithoutACatalogIsInvalid : Prop :=
  ∀ s : State, s.port = .M → s.cfg.catValid = false →
    ∃ t, exec .fsScan s = .next t ∧ OnlyAnswers s t ∧ Answered s t .invalidArg 0#32 []

/-- A scan always completes, in one of its outcomes: it writes nothing but `tail[RX]` and message states, and what it
leaves is what was held less the bytes in front; an outcome that is neither acceptance nor rejection leaves exactly
what stands behind the discard count (rules R140, R148, R152, decision D18). -/
def Obligations.ScanAlwaysCompletes : Prop :=
  ∀ s : State, s.CanScan →
    ∃ t st d m n, exec .fsScan s = .next t ∧ OnlyTailAndMsgs s t ∧
      Answered s t st (BitVec.ofNat 32 (d * 65536 + m)) [] ∧ d ≤ s.used .rx ∧ d ≤ n ∧
      t.contents .rx = (s.contents .rx).drop n ∧
      ((st = .ok ∧ m < s.cfg.nmsg) ∨ (st = .crcMismatch ∧ m = 0 ∧ n = d + 1 ∧ t.msgs = s.msgs) ∨
        ((st = .noMatch ∨ st = .incomplete) ∧ m = 0 ∧ n = d ∧ t.msgs = s.msgs))

/-- Resynchronisation: any number of bytes that are no preamble, then one frame of a catalogued message whose CRC is
zero: one scan discards the garbage, accepts the frame and answers how many bytes of garbage it discarded; the frame
is consumed and what came behind it stays, but for a message with no payload store where the block is configured not
to skip payloads (rule R154; that the frame is consumed rests on rules R165, R167 and the spec's own decision D13). -/
def Obligations.ScanResynchronisesOnGarbage : Prop :=
  ∀ (s : State) (m : Nat) (garbage rest payload : List Byte) (dst src hi lo : Byte), s.CanScan →
    s.msgs.length = s.cfg.nmsg →
    m < s.cfg.nmsg →
    (dst = (s.cfg.entry m).leftDestination ∨ dst = (s.cfg.entry m).rightDestination) →
    (src = (s.cfg.entry m).leftSource ∨ src = (s.cfg.entry m).rightSource) →
    payload.length = (s.cfg.entry m).payloadLen →
    (∀ k < m, ¬ ((s.cfg.entry k).command = (s.cfg.entry m).command ∧ (s.cfg.entry k).length = (s.cfg.entry m).length ∧
      (dst = (s.cfg.entry k).leftDestination ∨ dst = (s.cfg.entry k).rightDestination) ∧
      (src = (s.cfg.entry k).leftSource ∨ src = (s.cfg.entry k).rightSource))) →
    (∀ g ∈ garbage, g ≠ preamble) →
    s.contents .rx = garbage ++ ([preamble, dst, src, (s.cfg.entry m).length, (s.cfg.entry m).command] ++ payload ++
      [hi, lo]) ++ rest →
    Config.crc.fn ([preamble, dst, src, (s.cfg.entry m).length, (s.cfg.entry m).command] ++ payload ++ [hi, lo])
      Config.crc.seed = 0#16 →
    ∃ t, exec .fsScan s = .next t ∧ Answered s t .ok (BitVec.ofNat 32 (garbage.length * 65536 + m)) [] ∧
      (t.msg m).elapsed = 0 ∧
      (((s.cfg.entry m).payloadEn || s.cfg.noPayloadSkips) = true → t.contents .rx = rest)

/-- The document's scenario: with the entry `cmd=0x32, leftSrc=0x81, rightSrc=0x82, leftDst=0x51, rightDst=0x52,
length=0x15` first in the catalog, the buffer `EA 51 81 15 32`, any 20 payload bytes and two CRC bytes that make the
remainder zero, a scan answers a match at index 0 with discard count 0 and leaves no byte; where the entry has a
payload store, it holds the 20 bytes (rule R155). The payload is consumed in every block but one configured not to
skip the payloads it does not store (decision D13), which is left aside. -/
def Obligations.ScenarioFrameIsAccepted : Prop :=
  ∀ (s : State) (payload : List Byte) (hi lo : Byte), s.CanScan → s.msgs.length = s.cfg.nmsg → 0 < s.cfg.nmsg →
    (s.cfg.entry 0).command = 0x32#8 → (s.cfg.entry 0).leftSource = 0x81#8 → (s.cfg.entry 0).rightSource = 0x82#8 →
    (s.cfg.entry 0).leftDestination = 0x51#8 → (s.cfg.entry 0).rightDestination = 0x52#8 →
    (s.cfg.entry 0).length = 0x15#8 → ((s.cfg.entry 0).payloadEn || s.cfg.noPayloadSkips) = true →
    payload.length = 20 → s.contents .rx = [0xEA#8, 0x51#8, 0x81#8, 0x15#8, 0x32#8] ++ payload ++ [hi, lo] →
    Config.crc.fn ([0xEA#8, 0x51#8, 0x81#8, 0x15#8, 0x32#8] ++ payload ++ [hi, lo]) Config.crc.seed = 0#16 →
    ∃ t, exec .fsScan s = .next t ∧ Answered s t .ok 0#32 [] ∧ t.used .rx = 0 ∧
      ((s.cfg.entry 0).payloadEn = true →
        (List.range 20).map (t.payloadByte 0) = payload ∧ (t.msg 0).payloadLen = 20#8)

/-- More bytes arriving do not change what a scan that has a complete candidate finds: a byte pushed into `RX` before
the scan gives the same response and the same message states, and that byte behind what is left (rule R63, an
inference of the spec). -/
def Obligations.LaterBytesDoNotChangeTheFrameFound : Prop :=
  ∀ (s u : State) (i m : Nat) (byte : Byte), s.CanScan → s.Candidate i m →
    (s.cfg.entry m).frameLen ≤ s.used .rx - i → 0 < s.free .rx → exec (.rbPush 0#4 byte) s = .next u →
    ∃ t v st val, exec .fsScan s = .next t ∧ exec .fsScan u = .next v ∧ v.msgs = t.msgs ∧
      Answered s t st val [] ∧ Answered u v st val [] ∧ v.contents .rx = t.contents .rx ++ [byte]

/-! ## The timeout monitor -/

/-- `TM.TICK` increments every counter modulo `2^TICK_W`, then gives every flag and the answer the aggregate: failure
exactly when every message's counter has reached its threshold; it writes nothing else. With no message set it answers
failure and writes nothing (rules R181 to R184, decisions D10, D26, D27). -/
def Obligations.TickCountsAndAggregates : Prop :=
  (∀ s : State, s.port = .M → s.cfg.catValid = true → s.msgs.length = s.cfg.nmsg →
    ∃ t fail, exec .tmTick s = .next t ∧ OnlyMsgs s t ∧ Answered s t .ok (if fail then 1#32 else 0#32) [] ∧
      t.msgs.length = s.msgs.length ∧
      (fail = true ↔ ∀ k < s.cfg.nmsg,
        (s.cfg.entry k).maxTicks ≤ ((s.msg k).elapsed + 1) % 2 ^ s.cfg.tickWidth) ∧
      ∀ k < s.cfg.nmsg, (t.msg k).elapsed = ((s.msg k).elapsed + 1) % 2 ^ s.cfg.tickWidth ∧
        (t.msg k).busFailed = fail ∧ (t.msg k).payload = (s.msg k).payload ∧
        (t.msg k).payloadLen = (s.msg k).payloadLen) ∧
  (∀ s : State, s.port = .M → s.cfg.catValid = false →
    ∃ t, exec .tmTick s = .next t ∧ OnlyAnswers s t ∧ Answered s t .ok 1#32 [])

/-- With two monitored messages a tick asserts failure exactly when both have reached their own thresholds; when one of
them has just been refreshed and its threshold is above 1, the tick answers no failure and clears both flags (rule
R188). -/
def Obligations.OneLiveMessageSuppressesBusFailure : Prop :=
  ∀ s : State, s.port = .M → s.cfg.catValid = true → s.cfg.nmsg = 2 → s.Inv →
    ∃ t, exec .tmTick s = .next t ∧
      ((t.msg 0).busFailed = true ↔
        (s.cfg.entry 0).maxTicks ≤ (t.msg 0).elapsed ∧ (s.cfg.entry 1).maxTicks ≤ (t.msg 1).elapsed) ∧
      (t.msg 1).busFailed = (t.msg 0).busFailed ∧
      ∀ k < 2, (s.msg k).elapsed = 0 → 1 < (s.cfg.entry k).maxTicks →
        (t.msg 0).busFailed = false ∧ (t.msg 1).busFailed = false ∧ Answered s t .ok 0#32 []

/-- The first tick after reset, from any state at the reset values with a message set, on the main port: it makes every
counter 1, and clears every flag and answers no failure unless every threshold is at most 1; then it answers failure
and every flag is 1 (rules R184, R255; it follows from the spec's own reset value of the counters, R42, decision D14). -/
def Obligations.FirstTickAfterResetClearsTheFlags : Prop :=
  ∀ s : State, s.AtReset → s.port = .M → s.cfg.catValid = true →
    ∃ t, exec .tmTick s = .next t ∧ (∀ k < s.cfg.nmsg, (t.msg k).elapsed = 1) ∧
      ((∃ k < s.cfg.nmsg, 1 < (s.cfg.entry k).maxTicks) →
        (∀ k < s.cfg.nmsg, (t.msg k).busFailed = false) ∧ Answered s t .ok 0#32 []) ∧
      ((∀ k < s.cfg.nmsg, (s.cfg.entry k).maxTicks ≤ 1) →
        (∀ k < s.cfg.nmsg, (t.msg k).busFailed = true) ∧ Answered s t .ok 1#32 [])

/-- `TM.STAT k` and `TM.ELAPSED k` answer the flag and the counter of message `k` and change nothing; an index out of
range is an invalid argument (rules R186, R187, decision D26). -/
def Obligations.MonitorReadOutsAnswerFlagAndCounter : Prop :=
  (∀ (k : BitVec 8) (s : State), s.port = .M → k.toNat < s.cfg.nmsg →
    (∃ t, exec (.tmStat k) s = .next t ∧ OnlyAnswers s t ∧
      Answered s t .ok (if (s.msg k.toNat).busFailed then 1#32 else 0#32) []) ∧
    (∃ t, exec (.tmElapsed k) s = .next t ∧ OnlyAnswers s t ∧
      Answered s t .ok (BitVec.ofNat 32 (s.msg k.toNat).elapsed) [])) ∧
  (∀ (k : BitVec 8) (s : State), s.port = .M → s.cfg.nmsg ≤ k.toNat →
    (∃ t, exec (.tmStat k) s = .next t ∧ OnlyAnswers s t ∧ Answered s t .invalidArg 0#32 []) ∧
    (∃ t, exec (.tmElapsed k) s = .next t ∧ OnlyAnswers s t ∧ Answered s t .invalidArg 0#32 []))

/-! ## The frame builder -/

/-- A violated precondition makes `FB.BUILD` an invalid argument that writes nothing, bit 31 of the words and the
cursors of `TX` notwithstanding (rules R197, R216, decision D28). -/
def Obligations.BuildPreconditionsAreEnforced : Prop :=
  ∀ (sdi : BitVec 4) (k : BitVec 8) (wnull : Bool) (nw : BitVec 8) (nbf : Word) (words : List Word) (s : State),
    s.port = .M → s.cfg.hasBuilder = true → ¬ BuildArgsOk s sdi k wnull nw nbf →
    ∃ t, exec (.fbBuild sdi k wnull nw nbf words) s = .next t ∧ OnlyAnswers s t ∧ Answered s t .invalidArg 0#32 []

/-- `FB.BUILD` appends to `TX` the first `min(nbf, Free)` bytes of the frame: header, stamped words, CRC high byte first.
Bytes beyond the frame's `7 + 4*NW` are appended too, nothing said of their values. It answers the number appended,
and writes nothing but the slots of `TX` from the head on that it fills, `head[TX]` and the model's counter of builds
(rules R195, R196, R198, R200 to R205, decisions D15, D28 to D30; log 4, log 16). -/
def Obligations.BuildFlushesTheSealedFrame : Prop :=
  ∀ (sdi : BitVec 4) (k : BitVec 8) (wnull : Bool) (nw : BitVec 8) (nbf : Word) (words : List Word) (s : State),
    s.port = .M → s.cfg.hasBuilder = true → BuildArgsOk s sdi k wnull nw nbf →
    words.length = nw.toNat → (∀ w ∈ words, w.getLsbD 31 = false) → s.bufOk .tx →
    ∃ t flushed,
      let region := frameRegion s sdi k.toNat (words.map oddStamp)
      let crc := Config.crc.fn region Config.crc.seed
      let frame := region ++ [crc.extractLsb' 8 8, crc.extractLsb' 0 8]
      exec (.fbBuild sdi k wnull nw nbf words) s = .next t ∧
      OnlyRing .tx s { t with builds := s.builds } ∧ t.builds = s.builds + 1 ∧
      t.tx.tail = s.tx.tail ∧ t.contents .tx = s.contents .tx ++ flushed ∧
      flushed.length = min nbf.toNat (s.free .tx) ∧ frame.length = 7 + 4 * nw.toNat ∧
      flushed.take frame.length = frame.take flushed.length ∧
      Answered s t .ok (BitVec.ofNat 32 flushed.length) [] ∧
      ∀ p, (∀ j < flushed.length, p ≠ (s.tx.head + j) % s.cap .tx) → t.dataByte .tx p = s.dataByte .tx p

/-- SDI 0, 1 and 2 build the same frame: the two values that name no side fall back to the left pair (rule R200,
decision D29). -/
def Obligations.UnnamedSdiFallsBackToTheLeft : Prop :=
  ∀ (k : BitVec 8) (wnull : Bool) (nw : BitVec 8) (nbf : Word) (words : List Word) (s : State),
    exec (.fbBuild 1#4 k wnull nw nbf words) s = exec (.fbBuild 0#4 k wnull nw nbf words) s ∧
    exec (.fbBuild 2#4 k wnull nw nbf words) s = exec (.fbBuild 0#4 k wnull nw nbf words) s

/-- A word whose bit 31 is already set is a precondition violation the model refuses, the other preconditions being met;
it is neither masked nor answered (rule R199; log 5). -/
def Obligations.BuildRefusesASetParityBit : Prop :=
  ∀ (sdi : BitVec 4) (k : BitVec 8) (wnull : Bool) (nw : BitVec 8) (nbf : Word) (words : List Word) (s : State),
    s.port = .M → s.cfg.hasBuilder = true → BuildArgsOk s sdi k wnull nw nbf →
    (∃ w ∈ words, w.getLsbD 31 = true) →
    exec (.fbBuild sdi k wnull nw nbf words) s = .refused .parityBitSet

/-- The stamp of a word whose bit 31 is clear keeps bits 30 to 0, sets bit 31 exactly when an even number of them is
set, and always has an odd number of set bits (rule R198). -/
def Obligations.StampGivesOddParity : Prop :=
  (∀ x : Word, x.getLsbD 31 = false →
    ∃ y, stamp x = some y ∧ (∀ i < 31, y.getLsbD i = x.getLsbD i) ∧
      (y.getLsbD 31 = true ↔ (List.range 31).countP (fun i => x.getLsbD i) % 2 = 0) ∧
      (List.range 32).countP (fun i => y.getLsbD i) % 2 = 1) ∧
  stamp 0x00000000#32 = some 0x80000000#32 ∧ stamp 0x00000001#32 = some 0x00000001#32 ∧
  stamp 0x00000003#32 = some 0x80000003#32 ∧ stamp 0x7FFFFFFF#32 = some 0x7FFFFFFF#32 ∧
  stamp 0x12345678#32 = some 0x12345678#32 ∧ stamp 0x00ABCDEF#32 = some 0x00ABCDEF#32 ∧
  stamp 0x40000000#32 = some 0x40000000#32

/-- The word reconstruction is the inverse of the byte split, in both byte orders and in both directions (rules R52,
R202, R208, decision D15). -/
def Obligations.WordReconstructionInvertsTheSplit : Prop :=
  ∀ (msbFirst : Bool),
    (∀ w : Word, ∃ b0 b1 b2 b3, wordBytes msbFirst w = [b0, b1, b2, b3] ∧ wordOf msbFirst b0 b1 b2 b3 = w) ∧
    (∀ b0 b1 b2 b3 : Byte, wordBytes msbFirst (wordOf msbFirst b0 b1 b2 b3) = [b0, b1, b2, b3])

/-- The round trip: a frame built from `NW` words into an empty `TX`, moved byte for byte into an empty `RX` and
scanned, is accepted at the first entry that matches its header, and where that entry has a payload store the words
read back from it are the stamped words, bit for bit (rule R207). -/
def Obligations.BuiltFrameRoundTrips : Prop :=
  ∀ (sdi : BitVec 4) (k : BitVec 8) (wnull : Bool) (nw : BitVec 8) (nbf : Word) (words : List Word) (s : State),
    s.port = .M → s.cfg.hasBuilder = true → BuildArgsOk s sdi k wnull nw nbf →
    words.length = nw.toNat → (∀ w ∈ words, w.getLsbD 31 = false) →
    s.bufOk .rx → s.bufOk .tx → s.msgs.length = s.cfg.nmsg → s.contents .tx = [] → s.contents .rx = [] →
    nbf.toNat = 7 + 4 * nw.toNat → 4 * nw.toNat = (s.cfg.entry k.toNat).length.toNat - 1 →
    nbf.toNat ≤ s.cap .tx - 1 →
    ∃ s1 s2 s3 s4 frame m,
      exec (.fbBuild sdi k wnull nw nbf words) s = .next s1 ∧
      exec (.rbFout 1#4 nbf) s1 = .next s2 ∧ Answered s1 s2 .ok nbf frame ∧
      exec (.rbFin 0#4 nbf frame) s2 = .next s3 ∧
      exec .fsScan s3 = .next s4 ∧ Answered s3 s4 .ok (BitVec.ofNat 32 m) [] ∧
      m ≤ k.toNat ∧ s3.Matches 0 m ∧ (∀ j < m, ¬ s3.Matches 0 j) ∧
      ((s.cfg.entry m).payloadEn = true →
        ∀ j x, words[j]? = some x →
          wordOf s.cfg.wordMsbFirst (s4.payloadByte m (4 * j)) (s4.payloadByte m (4 * j + 1))
            (s4.payloadByte m (4 * j + 2)) (s4.payloadByte m (4 * j + 3)) = oddStamp x)
end

