-- ==== Sys2Proof/Laws/State.lean ====
section
/-! SUPPORT. One lemma per field per update of the state, so that no proof unfolds a record update. -/

namespace Sys2Proof.Machine

/-! ## setRing -/

@[simp] theorem setRing_cfg (s : State) (b : Buf) (r : RingBuf) : (s.setRing b r).cfg = s.cfg := by cases b <;> rfl
@[simp] theorem setRing_msgs (s : State) (b : Buf) (r : RingBuf) : (s.setRing b r).msgs = s.msgs := by cases b <;> rfl
@[simp] theorem setRing_epoch (s : State) (b : Buf) (r : RingBuf) : (s.setRing b r).epoch = s.epoch := by cases b <;> rfl
@[simp] theorem setRing_builds (s : State) (b : Buf) (r : RingBuf) : (s.setRing b r).builds = s.builds := by cases b <;> rfl
@[simp] theorem setRing_arbiter (s : State) (b : Buf) (r : RingBuf) : (s.setRing b r).arbiter = s.arbiter := by cases b <;> rfl
@[simp] theorem setRing_port (s : State) (b : Buf) (r : RingBuf) : (s.setRing b r).port = s.port := by cases b <;> rfl
@[simp] theorem setRing_pending (s : State) (b : Buf) (r : RingBuf) : (s.setRing b r).pending = s.pending := by cases b <;> rfl
@[simp] theorem setRing_responses (s : State) (b : Buf) (r : RingBuf) : (s.setRing b r).responses = s.responses := by cases b <;> rfl
@[simp] theorem setRing_rx_rx (s : State) (r : RingBuf) : (s.setRing .rx r).rx = r := rfl
@[simp] theorem setRing_rx_tx (s : State) (r : RingBuf) : (s.setRing .rx r).tx = s.tx := rfl
@[simp] theorem setRing_tx_tx (s : State) (r : RingBuf) : (s.setRing .tx r).tx = r := rfl
@[simp] theorem setRing_tx_rx (s : State) (r : RingBuf) : (s.setRing .tx r).rx = s.rx := rfl
@[simp] theorem setRing_ring (s : State) (b : Buf) (r : RingBuf) : (s.setRing b r).ring b = r := by cases b <;> rfl
theorem setRing_ring_other (s : State) (b b' : Buf) (r : RingBuf) (h : b' ≠ b) :
    (s.setRing b r).ring b' = s.ring b' := by cases b <;> cases b' <;> first | rfl | exact absurd rfl h
@[simp] theorem setRing_self (s : State) (b : Buf) : s.setRing b (s.ring b) = s := by cases b <;> rfl
@[simp] theorem setRing_setRing (s : State) (b : Buf) (r r' : RingBuf) :
    (s.setRing b r).setRing b r' = s.setRing b r' := by cases b <;> rfl

@[simp] theorem ring_rx (s : State) : s.ring .rx = s.rx := rfl
@[simp] theorem ring_tx (s : State) : s.ring .tx = s.tx := rfl
@[simp] theorem setRing_cap (s : State) (b b' : Buf) (r : RingBuf) : (s.setRing b r).cap b' = s.cap b' := by cases b <;> rfl
@[simp] theorem setRing_initial (s : State) (b : Buf) (r : RingBuf) (i : StoreId) :
    (s.setRing b r).initial i = s.initial i := by cases b <;> rfl
@[simp] theorem setRing_msg (s : State) (b : Buf) (r : RingBuf) (k : Nat) : (s.setRing b r).msg k = s.msg k := by
  cases b <;> rfl

/-! ## respond -/

@[simp] theorem respond_cfg (s : State) (st : Status) (v : Word) (d : List Byte) : (s.respond st v d).cfg = s.cfg := rfl
@[simp] theorem respond_rx (s : State) (st : Status) (v : Word) (d : List Byte) : (s.respond st v d).rx = s.rx := rfl
@[simp] theorem respond_tx (s : State) (st : Status) (v : Word) (d : List Byte) : (s.respond st v d).tx = s.tx := rfl
@[simp] theorem respond_msgs (s : State) (st : Status) (v : Word) (d : List Byte) : (s.respond st v d).msgs = s.msgs := rfl
@[simp] theorem respond_epoch (s : State) (st : Status) (v : Word) (d : List Byte) : (s.respond st v d).epoch = s.epoch := rfl
@[simp] theorem respond_builds (s : State) (st : Status) (v : Word) (d : List Byte) : (s.respond st v d).builds = s.builds := rfl
@[simp] theorem respond_arbiter (s : State) (st : Status) (v : Word) (d : List Byte) : (s.respond st v d).arbiter = s.arbiter := rfl
@[simp] theorem respond_port (s : State) (st : Status) (v : Word) (d : List Byte) : (s.respond st v d).port = s.port := rfl
@[simp] theorem respond_pending (s : State) (st : Status) (v : Word) (d : List Byte) : (s.respond st v d).pending = s.pending := rfl
@[simp] theorem respond_responses (s : State) (st : Status) (v : Word) (d : List Byte) :
    (s.respond st v d).responses = s.responses ++ [{ port := s.port, word := responseWord st v, dout := d }] := rfl
@[simp] theorem respond_ring (s : State) (st : Status) (v : Word) (d : List Byte) (b : Buf) :
    (s.respond st v d).ring b = s.ring b := rfl
@[simp] theorem respond_cap (s : State) (st : Status) (v : Word) (d : List Byte) (b : Buf) :
    (s.respond st v d).cap b = s.cap b := rfl
@[simp] theorem respond_initial (s : State) (st : Status) (v : Word) (d : List Byte) (i : StoreId) :
    (s.respond st v d).initial i = s.initial i := rfl
@[simp] theorem respond_used (s : State) (st : Status) (v : Word) (d : List Byte) (b : Buf) :
    (s.respond st v d).used b = s.used b := rfl
@[simp] theorem respond_free (s : State) (st : Status) (v : Word) (d : List Byte) (b : Buf) :
    (s.respond st v d).free b = s.free b := rfl
@[simp] theorem respond_peek (s : State) (st : Status) (v : Word) (d : List Byte) (b : Buf) :
    (s.respond st v d).peek b = s.peek b := rfl
@[simp] theorem respond_contents (s : State) (st : Status) (v : Word) (d : List Byte) (b : Buf) :
    (s.respond st v d).contents b = s.contents b := rfl
@[simp] theorem respond_msg (s : State) (st : Status) (v : Word) (d : List Byte) (k : Nat) :
    (s.respond st v d).msg k = s.msg k := rfl

/-! ## setMsg -/

@[simp] theorem setMsg_cfg (s : State) (k : Nat) (m : MsgState) : (s.setMsg k m).cfg = s.cfg := rfl
@[simp] theorem setMsg_rx (s : State) (k : Nat) (m : MsgState) : (s.setMsg k m).rx = s.rx := rfl
@[simp] theorem setMsg_tx (s : State) (k : Nat) (m : MsgState) : (s.setMsg k m).tx = s.tx := rfl
@[simp] theorem setMsg_msgs (s : State) (k : Nat) (m : MsgState) : (s.setMsg k m).msgs = s.msgs.set k m := rfl
@[simp] theorem setMsg_epoch (s : State) (k : Nat) (m : MsgState) : (s.setMsg k m).epoch = s.epoch := rfl
@[simp] theorem setMsg_builds (s : State) (k : Nat) (m : MsgState) : (s.setMsg k m).builds = s.builds := rfl
@[simp] theorem setMsg_arbiter (s : State) (k : Nat) (m : MsgState) : (s.setMsg k m).arbiter = s.arbiter := rfl
@[simp] theorem setMsg_port (s : State) (k : Nat) (m : MsgState) : (s.setMsg k m).port = s.port := rfl
@[simp] theorem setMsg_pending (s : State) (k : Nat) (m : MsgState) : (s.setMsg k m).pending = s.pending := rfl
@[simp] theorem setMsg_responses (s : State) (k : Nat) (m : MsgState) : (s.setMsg k m).responses = s.responses := rfl
@[simp] theorem setMsg_ring (s : State) (k : Nat) (m : MsgState) (b : Buf) :
    (s.setMsg k m).ring b = s.ring b := rfl
@[simp] theorem setMsg_cap (s : State) (k : Nat) (m : MsgState) (b : Buf) :
    (s.setMsg k m).cap b = s.cap b := rfl
@[simp] theorem setMsg_initial (s : State) (k : Nat) (m : MsgState) (i : StoreId) :
    (s.setMsg k m).initial i = s.initial i := rfl

theorem setMsg_msg (s : State) (k k' : Nat) (m : MsgState) :
    (s.setMsg k m).msg k' = if k' = k ∧ k < s.msgs.length then m else s.msg k' := by
  by_cases h : k' = k <;> by_cases hk : k < s.msgs.length <;>
    simp_all [State.msg, State.setMsg, List.getD_eq_getElem?_getD, eq_comm]

@[simp] theorem setMsg_msg_same (s : State) (k : Nat) (m : MsgState) (h : k < s.msgs.length) :
    (s.setMsg k m).msg k = m := by rw [setMsg_msg, if_pos ⟨rfl, h⟩]

@[simp] theorem setMsg_msg_other (s : State) (k k' : Nat) (m : MsgState) (h : k' ≠ k) :
    (s.setMsg k m).msg k' = s.msg k' := by rw [setMsg_msg, if_neg (fun c => h c.1)]

/-! ## advance -/

@[simp] theorem advance_cfg (s : State) (b : Buf) (n : Nat) : (s.advance b n).cfg = s.cfg := by simp [State.advance]
@[simp] theorem advance_msgs (s : State) (b : Buf) (n : Nat) : (s.advance b n).msgs = s.msgs := by simp [State.advance]
@[simp] theorem advance_epoch (s : State) (b : Buf) (n : Nat) : (s.advance b n).epoch = s.epoch := by simp [State.advance]
@[simp] theorem advance_builds (s : State) (b : Buf) (n : Nat) : (s.advance b n).builds = s.builds := by simp [State.advance]
@[simp] theorem advance_arbiter (s : State) (b : Buf) (n : Nat) : (s.advance b n).arbiter = s.arbiter := by simp [State.advance]
@[simp] theorem advance_port (s : State) (b : Buf) (n : Nat) : (s.advance b n).port = s.port := by simp [State.advance]
@[simp] theorem advance_pending (s : State) (b : Buf) (n : Nat) : (s.advance b n).pending = s.pending := by simp [State.advance]
@[simp] theorem advance_responses (s : State) (b : Buf) (n : Nat) : (s.advance b n).responses = s.responses := by simp [State.advance]
@[simp] theorem advance_ring (s : State) (b : Buf) (n : Nat) :
    (s.advance b n).ring b = Machine.advance (s.cap b) (s.ring b) n := by simp [State.advance]
@[simp] theorem advance_rx_rx (s : State) (n : Nat) :
    (s.advance .rx n).rx = Machine.advance (s.cap .rx) s.rx n := rfl
@[simp] theorem advance_rx_tx (s : State) (n : Nat) : (s.advance .rx n).tx = s.tx := rfl
@[simp] theorem advance_cap (s : State) (b b' : Buf) (n : Nat) : (s.advance b n).cap b' = s.cap b' := by simp [State.advance]
@[simp] theorem advance_initial (s : State) (b : Buf) (n : Nat) (i : StoreId) :
    (s.advance b n).initial i = s.initial i := by simp [State.advance]
@[simp] theorem advance_msg (s : State) (b : Buf) (n k : Nat) : (s.advance b n).msg k = s.msg k := by simp [State.advance]

/-! ## assertReset and tick -/

@[simp] theorem assertReset_cfg (s : State) : s.assertReset.cfg = s.cfg := rfl
@[simp] theorem assertReset_rx (s : State) : s.assertReset.rx = RingBuf.reset := rfl
@[simp] theorem assertReset_tx (s : State) : s.assertReset.tx = RingBuf.reset := rfl
@[simp] theorem assertReset_msgs (s : State) : s.assertReset.msgs = List.replicate s.cfg.nmsg MsgState.reset := rfl
@[simp] theorem assertReset_epoch (s : State) : s.assertReset.epoch = s.epoch + 1 := rfl
@[simp] theorem assertReset_builds (s : State) : s.assertReset.builds = s.builds := rfl
@[simp] theorem assertReset_arbiter (s : State) : s.assertReset.arbiter = s.arbiter := rfl
@[simp] theorem assertReset_port (s : State) : s.assertReset.port = s.port := rfl
@[simp] theorem assertReset_pending (s : State) : s.assertReset.pending = s.pending := rfl
@[simp] theorem assertReset_responses (s : State) : s.assertReset.responses = s.responses := rfl
@[simp] theorem tick_cfg (s : State) : s.tick.cfg = s.cfg := rfl
@[simp] theorem tick_rx (s : State) : s.tick.rx = s.rx := rfl
@[simp] theorem tick_tx (s : State) : s.tick.tx = s.tx := rfl
@[simp] theorem tick_epoch (s : State) : s.tick.epoch = s.epoch := rfl
@[simp] theorem tick_builds (s : State) : s.tick.builds = s.builds := rfl
@[simp] theorem tick_arbiter (s : State) : s.tick.arbiter = s.arbiter := rfl
@[simp] theorem tick_port (s : State) : s.tick.port = s.port := rfl
@[simp] theorem tick_pending (s : State) : s.tick.pending = s.pending := rfl
@[simp] theorem tick_responses (s : State) : s.tick.responses = s.responses := rfl

end Sys2Proof.Machine
end

