-- ==== Sys2Proof/Laws/Memory.lean ====
section
/-! SUPPORT. What the byte-store operations do: reading after writing, the canonical form, and the indices listed. -/

namespace Sys2Proof.Machine

/-! ## One byte -/

theorem Memory.read_write_same (m : Memory) (a : Nat) (b : Byte) : Memory.read (Memory.write m a b) a = some b := by
  induction m with
  | nil => simp [Memory.write, Memory.read]
  | cons x m ih =>
    obtain ⟨a', b'⟩ := x
    simp only [Memory.write]
    split
    · simp [Memory.read]
    · split
      · simp [Memory.read]
      · rename_i h1 h2
        simp only [Memory.read, ih]
        rw [if_neg (fun h => h2 h.symm)]

theorem Memory.read_write_other (m : Memory) (a a' : Nat) (b : Byte) (h : a' ≠ a) :
    Memory.read (Memory.write m a b) a' = Memory.read m a' := by
  induction m with
  | nil => simp [Memory.write, Memory.read, Ne.symm h]
  | cons x m ih =>
    obtain ⟨a1, b1⟩ := x
    simp only [Memory.write]
    split
    · simp [Memory.read, Ne.symm h]
    · split
      · rename_i h1 h2; subst h2; simp [Memory.read, Ne.symm h]
      · simp only [Memory.read, ih]

theorem Memory.read_write (m : Memory) (a a' : Nat) (b : Byte) :
    Memory.read (Memory.write m a b) a' = if a' = a then some b else Memory.read m a' := by
  split
  · rename_i h; subst h; exact Memory.read_write_same _ _ _
  · rename_i h; exact Memory.read_write_other _ _ _ _ h

/-- The indices listed after a write: the old ones and the index written. -/
theorem Memory.mem_write (m : Memory) (a : Nat) (b : Byte) (x : Host.Cell) (hx : x ∈ Memory.write m a b) :
    x = (a, b) ∨ x ∈ m := by
  induction m with
  | nil => simpa [Memory.write] using hx
  | cons y m ih =>
    obtain ⟨a1, b1⟩ := y
    simp only [Memory.write] at hx
    split at hx
    · simpa using hx
    · split at hx
      · simp at hx ⊢; tauto
      · simp at hx ⊢
        rcases hx with rfl | hx
        · exact .inr (.inl rfl)
        · rcases ih hx with h | h
          · exact .inl h
          · exact .inr (.inr h)

/-- A write keeps the canonical form. -/
theorem Memory.wf_write (m : Memory) (a : Nat) (b : Byte) (h : Memory.wf m) : Memory.wf (Memory.write m a b) := by
  induction m with
  | nil => simp [Memory.write]
  | cons y m ih =>
    obtain ⟨a1, b1⟩ := y
    obtain ⟨h1, h2⟩ := List.pairwise_cons.mp h
    simp only [Memory.write]
    split
    · rename_i hlt
      refine List.pairwise_cons.mpr ⟨?_, h⟩
      intro x hx
      rcases List.mem_cons.mp hx with rfl | hx
      · exact hlt
      · exact lt_trans hlt (h1 x hx)
    · split
      · rename_i heq
        subst heq
        exact List.pairwise_cons.mpr ⟨h1, h2⟩
      · refine List.pairwise_cons.mpr ⟨?_, ih h2⟩
        intro x hx
        rcases Memory.mem_write m a b x hx with rfl | hx
        · show a1 < a; omega
        · exact h1 x hx

theorem Memory.bound_write (m : Memory) (a n : Nat) (b : Byte) (ha : a < n) (h : ∀ x ∈ m, x.1 < n) :
    ∀ x ∈ Memory.write m a b, x.1 < n := by
  intro x hx
  rcases Memory.mem_write m a b x hx with rfl | hx
  · exact ha
  · exact h x hx

/-! ## Runs of bytes -/

@[simp] theorem memRead_length (fill : Nat → Byte) (m : Memory) (p n : Nat) : (memRead fill m p n).length = n := by
  simp [memRead]

theorem memRead_getElem (fill : Nat → Byte) (m : Memory) (p n j : Nat) (h : j < (memRead fill m p n).length) :
    (memRead fill m p n)[j] = Memory.byteAt fill m (p + j) := by simp [memRead]

/-- What a run of writes leaves at each index. -/
theorem read_memWrite (v : List Byte) : ∀ (m : Memory) (p a : Nat),
    Memory.read (memWrite m p v) a = if h : p ≤ a ∧ a - p < v.length then some v[a - p] else Memory.read m a := by
  induction v with
  | nil => intro m p a; simp [memWrite]
  | cons b bs ih =>
    intro m p a
    simp only [memWrite]
    rw [ih, Memory.read_write]
    by_cases h1 : a = p
    · subst h1; simp
    · by_cases h2 : p + 1 ≤ a ∧ a - (p + 1) < bs.length
      · have h3 : p ≤ a ∧ a - p < (b :: bs).length := by simp; omega
        rw [dif_pos h2, dif_pos h3]
        have : a - p = (a - (p + 1)) + 1 := by omega
        simp [this]
      · have h3 : ¬ (p ≤ a ∧ a - p < (b :: bs).length) := by simp; omega
        rw [dif_neg h2, dif_neg h3, if_neg h1]

theorem memWrite_wf (v : List Byte) : ∀ (m : Memory) (p : Nat), Memory.wf m → Memory.wf (memWrite m p v) := by
  induction v with
  | nil => intro m p h; exact h
  | cons b bs ih => intro m p h; exact ih _ _ (Memory.wf_write _ _ _ h)

theorem memWrite_bound (v : List Byte) : ∀ (m : Memory) (p n : Nat), p + v.length ≤ n → (∀ x ∈ m, x.1 < n) →
    ∀ x ∈ memWrite m p v, x.1 < n := by
  induction v with
  | nil => intro m p n _ h; exact h
  | cons b bs ih =>
    intro m p n hp h
    simp at hp
    exact ih _ _ _ (by omega) (Memory.bound_write _ _ _ _ (by omega) h)

/-- The byte an index holds after a run of writes. -/
theorem byteAt_memWrite (fill : Nat → Byte) (v : List Byte) (m : Memory) (p a : Nat) :
    Memory.byteAt fill (memWrite m p v) a =
      if h : p ≤ a ∧ a - p < v.length then v[a - p] else Memory.byteAt fill m a := by
  unfold Memory.byteAt
  rw [read_memWrite]
  split <;> rfl

theorem byteAt_write (fill : Nat → Byte) (m : Memory) (a a' : Nat) (b : Byte) :
    Memory.byteAt fill (Memory.write m a b) a' = if a' = a then b else Memory.byteAt fill m a' := by
  unfold Memory.byteAt
  rw [Memory.read_write]
  split <;> rfl

end Sys2Proof.Machine
end

