-- ==== Sys2Proof/Laws/Ring.lean ====
section
/-! SUPPORT. What the ring-buffer operations do to the unread bytes: one lemma per operation that says all of it. -/

namespace Sys2Proof.Machine

/-- The unread bytes of a ring buffer, in stream order. -/
def ringContents (cap : Nat) (fill : Nat → Byte) (r : RingBuf) : List Byte :=
  (List.range (used cap r)).map (peek cap fill r)

theorem contents_eq (s : State) (b : Buf) :
    s.contents b = ringContents (s.cap b) (s.initial (.data b)) (s.ring b) := rfl

@[simp] theorem contents_length (s : State) (b : Buf) : (s.contents b).length = s.used b := by simp [State.contents]

@[simp] theorem ringContents_length (cap : Nat) (fill : Nat → Byte) (r : RingBuf) :
    (ringContents cap fill r).length = used cap r := by simp [ringContents]

theorem contents_getElem (s : State) (b : Buf) (i : Nat) (h : i < (s.contents b).length) :
    (s.contents b)[i] = s.peek b i := by simp [State.contents]

theorem cursorsInRange_iff (cap : Nat) (r : RingBuf) :
    cursorsInRange cap r = true ↔ r.head < cap ∧ r.tail < cap := by simp [cursorsInRange]

/-! ## Cursor arithmetic -/

/-- A sum of a cursor and at most one turn, reduced. -/
theorem wrap_eq {a o cap : Nat} (ha : a < cap) (ho : o ≤ cap) :
    (a + o) % cap = if a + o < cap then a + o else a + o - cap := by
  split
  · rename_i h; exact Nat.mod_eq_of_lt h
  · rename_i h
    rw [Nat.mod_eq_sub_mod (by omega), Nat.mod_eq_of_lt (by omega)]

theorem wrap_lt {a o cap : Nat} (ha : a < cap) : (a + o) % cap < cap := Nat.mod_lt _ (by omega)

theorem wrap_add (a i j cap : Nat) : ((a + i) % cap + j) % cap = (a + (i + j)) % cap := by
  rw [Nat.mod_add_mod, Nat.add_assoc]

theorem wrap_inj {a i j cap : Nat} (ha : a < cap) (hi : i < cap) (hj : j < cap)
    (h : (a + i) % cap = (a + j) % cap) : i = j := by
  rw [wrap_eq ha hi.le, wrap_eq ha hj.le] at h
  split at h <;> split at h <;> omega

theorem used_lt {cap : Nat} {r : RingBuf} (hh : r.head < cap) (_ht : r.tail < cap) : used cap r < cap := by
  unfold used; split <;> omega

theorem used_add_free {cap : Nat} {r : RingBuf} (hh : r.head < cap) (ht : r.tail < cap) :
    used cap r + free cap r = cap - 1 := by
  have := used_lt hh ht
  unfold free; omega

/-- The head stands `Used` slots after the tail. -/
theorem tail_add_used {cap : Nat} {r : RingBuf} (hh : r.head < cap) (ht : r.tail < cap) :
    (r.tail + used cap r) % cap = r.head := by
  rw [wrap_eq ht (used_lt hh ht).le]
  unfold used
  split <;> split <;> omega

/-- A head `u < CAP` slots after the tail holds `u` bytes. -/
theorem used_of_head {cap t u : Nat} (ht : t < cap) (hu : u < cap) (d : Memory) :
    used cap { data := d, head := (t + u) % cap, tail := t } = u := by
  have h := wrap_eq ht hu.le
  unfold used
  simp only
  rw [h]
  split <;> split <;> omega

/-- A tail moved `d` slots toward the head leaves `Used - d` bytes. -/
theorem used_of_tail {cap : Nat} {r : RingBuf} (hh : r.head < cap) (ht : r.tail < cap) {d : Nat}
    (hd : d ≤ used cap r) : used cap { r with tail := (r.tail + d) % cap } = used cap r - d := by
  have h := wrap_eq ht (le_trans hd (used_lt hh ht).le)
  have hu := used_lt hh ht
  unfold used at *
  simp only
  rw [h]
  split at hd <;> split <;> split <;> omega

/-- The buffer is full exactly when the next head would be the tail. -/
theorem full_iff {cap : Nat} {r : RingBuf} (hh : r.head < cap) (ht : r.tail < cap) :
    (r.head + 1) % cap = r.tail ↔ free cap r = 0 := by
  rw [wrap_eq hh (by omega)]
  unfold free used
  split <;> split <;> omega

theorem empty_iff {cap : Nat} {r : RingBuf} (_hh : r.head < cap) (ht : r.tail < cap) :
    r.head = r.tail ↔ used cap r = 0 := by unfold used; split <;> omega

/-! ## Runs -/

/-- A logical range read through its runs is the bytes at the reduced indices, in order. -/
theorem readRange_eq {cap start len : Nat} (fill : Nat → Byte) (m : Memory) (hs : start < cap) (hl : len ≤ cap) :
    readRange cap fill m start len = (List.range len).map fun j => Memory.byteAt fill m ((start + j) % cap) := by
  unfold readRange runs
  by_cases h : start + len ≤ cap
  · simp only [h, if_true]
    apply List.ext_getElem
    · simp
    · intro i h1 h2
      have hi : i < len := by simpa using h1
      rw [List.getElem_append_left (by simpa using hi)]
      simp [memRead, Nat.mod_eq_of_lt (show start + i < cap by omega)]
  · simp only [h, if_false]
    apply List.ext_getElem
    · simp; omega
    · intro i h1 h2
      have hi : i < len := by simp at h2; exact h2
      by_cases hlt : i < cap - start
      · rw [List.getElem_append_left (by simpa using hlt)]
        simp [memRead, Nat.mod_eq_of_lt (show start + i < cap by omega)]
      · rw [List.getElem_append_right (by simpa using hlt)]
        simp only [memRead, List.getElem_map, List.getElem_range, List.length_map, List.length_range]
        rw [wrap_eq hs (by omega), if_neg (by omega)]
        congr 1; omega

@[simp] theorem readRange_length (cap : Nat) (fill : Nat → Byte) (m : Memory) (start len : Nat) :
    (readRange cap fill m start len).length = len := by
  unfold readRange runs; split <;> simp; omega

/-- What is written at each index by a logical range written through its runs. -/
theorem read_writeRange {cap start len : Nat} (m : Memory) (src : List Byte) (hs : start < cap) (hl : len ≤ cap)
    (hsrc : len ≤ src.length) (j : Nat) (hj : j < len) :
    Memory.read (writeRange cap m start len src) ((start + j) % cap) = some src[j] := by
  unfold writeRange runs
  by_cases h : start + len ≤ cap
  · simp only [h, if_true]
    rw [Nat.mod_eq_of_lt (show start + j < cap by omega)]
    simp only [List.take_zero, memWrite, read_memWrite]
    rw [dif_pos (by simp; omega)]
    simp
  · simp only [h, if_false]
    rw [wrap_eq hs (by omega), read_memWrite, read_memWrite]
    by_cases h1 : start + j < cap
    · rw [if_pos h1, dif_neg (by simp; omega), dif_pos (by simp; omega)]
      simp
    · rw [if_neg h1, dif_pos (by simp; omega)]
      simp only [Nat.sub_zero, List.getElem_take, List.getElem_drop]
      congr 2; omega

theorem read_writeRange_other {cap start len : Nat} (m : Memory) (src : List Byte) (hs : start < cap) (hl : len ≤ cap)
    (a : Nat) (ha : ∀ j < len, (start + j) % cap ≠ a) :
    Memory.read (writeRange cap m start len src) a = Memory.read m a := by
  unfold writeRange runs
  by_cases h : start + len ≤ cap
  · simp only [h, if_true]
    simp only [List.take_zero, memWrite, read_memWrite]
    rw [dif_neg]
    rintro ⟨h1, h2⟩
    simp at h2
    apply ha (a - start) (by omega)
    rw [Nat.mod_eq_of_lt (by omega)]; omega
  · simp only [h, if_false]
    rw [read_memWrite, read_memWrite, dif_neg, dif_neg]
    · rintro ⟨h1, h2⟩
      simp at h2
      apply ha (a - start) (by omega)
      rw [Nat.mod_eq_of_lt (by omega)]; omega
    · rintro ⟨h1, h2⟩
      simp at h2
      apply ha (a + cap - start) (by omega)
      rw [wrap_eq hs (by omega), if_neg (by omega)]; omega

theorem writeRange_wf {cap start len : Nat} (m : Memory) (src : List Byte) (h : Memory.wf m) :
    Memory.wf (writeRange cap m start len src) := memWrite_wf _ _ _ (memWrite_wf _ _ _ h)

theorem writeRange_bound {cap start len : Nat} (m : Memory) (src : List Byte) (hs : start < cap) (hl : len ≤ cap)
    (h : ∀ x ∈ m, x.1 < cap) : ∀ x ∈ writeRange cap m start len src, x.1 < cap := by
  unfold writeRange runs
  by_cases h1 : start + len ≤ cap
  · simp only [h1, if_true]
    exact memWrite_bound _ _ _ _ (by simp) (memWrite_bound _ _ _ _ (by simp; omega) h)
  · simp only [h1, if_false]
    exact memWrite_bound _ _ _ _ (by simp; omega) (memWrite_bound _ _ _ _ (by simp; omega) h)

/-! ## The operations -/

theorem ringContents_getElem (cap : Nat) (fill : Nat → Byte) (r : RingBuf) (i : Nat)
    (h : i < (ringContents cap fill r).length) : (ringContents cap fill r)[i] = peek cap fill r i := by
  simp [ringContents]

/-- Everything `pushByte` can do. -/
theorem pushByte_cases (cap : Nat) (r : RingBuf) (b : Byte) (hh : r.head < cap) (ht : r.tail < cap) :
    (free cap r = 0 ∧ pushByte cap r b = r) ∨
    (0 < free cap r ∧ pushByte cap r b =
      { data := Memory.write r.data r.head b, head := (r.head + 1) % cap, tail := r.tail }) := by
  by_cases h : (r.head + 1) % cap = r.tail
  · exact .inl ⟨(full_iff hh ht).mp h, by simp [pushByte, h]⟩
  · refine .inr ⟨Nat.pos_of_ne_zero fun c => h ((full_iff hh ht).mpr c), by simp [pushByte, h]⟩

/-- Bytes stored from the head on, and the head moved past them, are appended to the unread bytes. -/
theorem ringContents_store (cap : Nat) (fill : Nat → Byte) (r : RingBuf) (d : Memory) (v : List Byte)
    (hh : r.head < cap) (ht : r.tail < cap) (hk : v.length ≤ free cap r)
    (hin : ∀ j (hj : j < v.length), Memory.byteAt fill d ((r.head + j) % cap) = v[j])
    (hout : ∀ a, (∀ j < v.length, (r.head + j) % cap ≠ a) → Memory.byteAt fill d a = Memory.byteAt fill r.data a) :
    ringContents cap fill { data := d, head := (r.head + v.length) % cap, tail := r.tail } =
      ringContents cap fill r ++ v := by
  have huf := used_add_free hh ht
  have hu := used_lt hh ht
  have htu := tail_add_used hh ht
  have hnew : used cap { data := d, head := (r.head + v.length) % cap, tail := r.tail } = used cap r + v.length := by
    have : (r.head + v.length) % cap = (r.tail + (used cap r + v.length)) % cap := by
      conv_lhs => rw [← htu, wrap_add]
    rw [this]
    exact used_of_head ht (by omega) d
  apply List.ext_getElem
  · simp [hnew]
  · intro i h1 h2
    have hi : i < used cap r + v.length := by simpa [hnew] using h1
    rw [ringContents_getElem]
    simp only [peek]
    by_cases hlt : i < used cap r
    · rw [List.getElem_append_left (by simpa using hlt), ringContents_getElem]
      simp only [peek]
      apply hout
      intro j hj heq
      rw [← htu, wrap_add] at heq
      have := wrap_inj ht (by omega) (by omega) heq
      omega
    · rw [List.getElem_append_right (by simpa using hlt)]
      simp only [ringContents_length]
      rw [← hin (i - used cap r) (by omega)]
      congr 1
      conv_rhs => rw [← htu, wrap_add]
      congr 2; omega

theorem ringContents_pushByte (cap : Nat) (fill : Nat → Byte) (r : RingBuf) (b : Byte) (hh : r.head < cap)
    (ht : r.tail < cap) (hf : 0 < free cap r) :
    ringContents cap fill (pushByte cap r b) = ringContents cap fill r ++ [b] := by
  rcases pushByte_cases cap r b hh ht with ⟨h, _⟩ | ⟨_, h⟩
  · omega
  · rw [h]
    refine ringContents_store cap fill r _ [b] hh ht (by simp; omega) ?_ ?_
    · intro j hj
      have : j = 0 := by simpa using hj
      subst this
      simp [byteAt_write, Nat.mod_eq_of_lt hh]
    · intro a ha
      have := ha 0 (by simp)
      rw [Nat.add_zero, Nat.mod_eq_of_lt hh] at this
      rw [byteAt_write, if_neg (Ne.symm this)]

/-- A tail moved `d` slots toward the head drops the first `d` unread bytes. -/
theorem ringContents_consume (cap : Nat) (fill : Nat → Byte) (r : RingBuf) (d : Nat) (hh : r.head < cap)
    (ht : r.tail < cap) (hd : d ≤ used cap r) :
    ringContents cap fill { r with tail := (r.tail + d) % cap } = (ringContents cap fill r).drop d := by
  apply List.ext_getElem
  · simp [used_of_tail hh ht hd]
  · intro i h1 h2
    rw [List.getElem_drop, ringContents_getElem, ringContents_getElem]
    simp only [peek]
    rw [wrap_add]

theorem ringContents_advance (cap : Nat) (fill : Nat → Byte) (r : RingBuf) (n : Nat) (hh : r.head < cap)
    (ht : r.tail < cap) : ringContents cap fill (advance cap r n) = (ringContents cap fill r).drop n := by
  unfold advance
  rw [ringContents_consume cap fill r _ hh ht (Nat.min_le_right _ _)]
  by_cases h : n ≤ used cap r
  · rw [Nat.min_eq_left h]
  · rw [Nat.min_eq_right (by omega), List.drop_eq_nil_of_le (by simp), List.drop_eq_nil_of_le (by simp; omega)]

/-- The unread bytes are the range of `Used` bytes from the tail. -/
theorem ringContents_take (cap : Nat) (fill : Nat → Byte) (r : RingBuf) (n : Nat) (hh : r.head < cap)
    (ht : r.tail < cap) :
    readRange cap fill r.data r.tail (min n (used cap r)) = (ringContents cap fill r).take n := by
  have hu := used_lt hh ht
  rw [readRange_eq fill _ ht (by omega)]
  apply List.ext_getElem
  · simp
  · intro i h1 h2
    rw [List.getElem_take, ringContents_getElem]
    simp [peek]

/-- Everything `flushOut` can do with cursors in range. -/
theorem flushOut_cases (cap : Nat) (fill : Nat → Byte) (r : RingBuf) (n : Nat) (hh : r.head < cap) (ht : r.tail < cap) :
    (cap < n ∧ flushOut cap fill r n = { count := 0, dest := [], ring := r }) ∨
    (n ≤ cap ∧ flushOut cap fill r n =
      { count := min n (used cap r), dest := (ringContents cap fill r).take n, ring := advance cap r n }) := by
  have hc : cursorsInRange cap r = true := (cursorsInRange_iff cap r).mpr ⟨hh, ht⟩
  by_cases h : cap < n
  · exact .inl ⟨h, by simp [flushOut, h]⟩
  · refine .inr ⟨by omega, ?_⟩
    simp [flushOut, h, hc, advance, ringContents_take cap fill r n hh ht]

/-- Everything `flushIn` can do with cursors in range. -/
theorem flushIn_cases (cap : Nat) (r : RingBuf) (src : List Byte) (n : Nat) (hh : r.head < cap) (ht : r.tail < cap) :
    (cap < n ∧ flushIn cap r src n = { count := 0, ring := r }) ∨
    (n ≤ cap ∧ flushIn cap r src n =
      { count := min n (free cap r),
        ring := { data := writeRange cap r.data r.head (min n (free cap r)) src,
                  head := (r.head + min n (free cap r)) % cap, tail := r.tail } }) := by
  have hc : cursorsInRange cap r = true := (cursorsInRange_iff cap r).mpr ⟨hh, ht⟩
  by_cases h : cap < n
  · exact .inl ⟨h, by simp [flushIn, h]⟩
  · exact .inr ⟨by omega, by simp [flushIn, h, hc]⟩

theorem ringContents_flushIn (cap : Nat) (fill : Nat → Byte) (r : RingBuf) (src : List Byte) (n : Nat)
    (hh : r.head < cap) (ht : r.tail < cap) (hn : n ≤ cap) (hs : src.length = n) :
    ringContents cap fill (flushIn cap r src n).ring = ringContents cap fill r ++ src.take (free cap r) := by
  have huf := used_add_free hh ht
  rcases flushIn_cases cap r src n hh ht with ⟨h, _⟩ | ⟨_, h⟩
  · omega
  · rw [h]
    have hlen : (src.take (free cap r)).length = min n (free cap r) := by simp [hs, Nat.min_comm]
    have := ringContents_store cap fill r (writeRange cap r.data r.head (min n (free cap r)) src)
      (src.take (free cap r)) hh ht (by rw [hlen]; omega) ?_ ?_
    · rw [hlen] at this; exact this
    · intro j hj
      rw [hlen] at hj
      simp only [Memory.byteAt]
      rw [read_writeRange _ _ hh (by omega) (by omega) j hj]
      simp
    · intro a ha
      rw [hlen] at ha
      simp only [Memory.byteAt]
      rw [read_writeRange_other _ _ hh (by omega) a ha]

end Sys2Proof.Machine
end

