-- ==== Sys2Proof/Laws/Operands.lean ====
section
/-! SUPPORT. Everything the shared checks on the operands can do, and what a response leaves alone. -/

namespace Sys2Proof.Machine

/-! ## Responses -/

@[simp] theorem answered_respond (s : State) (st : Status) (v : Word) (d : List Byte) :
    Answered s (s.respond st v d) st v d := rfl

@[simp] theorem onlyAnswers_respond (s : State) (st : Status) (v : Word) (d : List Byte) :
    OnlyAnswers s (s.respond st v d) := rfl

theorem onlyRing_respond (s : State) (b : Buf) (r : RingBuf) (st : Status) (v : Word) (d : List Byte) :
    OnlyRing b s ((s.setRing b r).respond st v d) := by cases b <;> rfl

theorem answered_setRing (s : State) (b : Buf) (r : RingBuf) (st : Status) (v : Word) (d : List Byte) :
    Answered s ((s.setRing b r).respond st v d) st v d := by cases b <;> rfl

/-- What the replaced buffer holds. -/
@[simp] theorem setRing_contents (s : State) (b : Buf) (r : RingBuf) :
    (s.setRing b r).contents b = ringContents (s.cap b) (s.initial (.data b)) r := by cases b <;> rfl

theorem setRing_contents_other (s : State) (b b' : Buf) (r : RingBuf) (h : b' ≠ b) :
    (s.setRing b r).contents b' = s.contents b' := by
  cases b <;> cases b' <;> first | rfl | exact absurd rfl h

/-! ## Operands -/

theorem bufOf_none_iff (buf : BitVec 4) : bufOf buf = none ↔ 1 < buf.toNat := by
  revert buf; decide

theorem withBuffer_of {buf : BitVec 4} {b : Buf} (h : bufOf buf = some b) (s : State) (body : Buf → Result) :
    withBuffer buf s body = body b := by simp [withBuffer, h]

theorem withBuffer_bad {buf : BitVec 4} (h : 1 < buf.toNat) (s : State) (body : Buf → Result) :
    withBuffer buf s body = .next (s.respond .invalidArg 0#32 []) := by
  rw [withBuffer, (bufOf_none_iff buf).mpr h]; rfl

/-- Everything `withBuffer` can answer with. -/
theorem withBuffer_next {buf : BitVec 4} {s t : State} {body : Buf → Result} (h : withBuffer buf s body = .next t) :
    t = s.respond .invalidArg 0#32 [] ∨ ∃ b, bufOf buf = some b ∧ body b = .next t := by
  unfold withBuffer at h
  split at h
  · left
    simpa [raiseInvalidArgument, finish] using h.symm
  · exact .inr ⟨_, ‹_›, h⟩

theorem withMessage_of {k : BitVec 8} {s : State} (h : k.toNat < s.cfg.nmsg) (body : Nat → Result) :
    withMessage k s body = body k.toNat := by simp [withMessage, h]

theorem withMessage_bad {k : BitVec 8} {s : State} (h : s.cfg.nmsg ≤ k.toNat) (body : Nat → Result) :
    withMessage k s body = .next (s.respond .invalidArg 0#32 []) := by
  rw [withMessage, if_neg (by omega)]; rfl

/-- Everything `withMessage` can answer with. -/
theorem withMessage_next {k : BitVec 8} {s t : State} {body : Nat → Result} (h : withMessage k s body = .next t) :
    t = s.respond .invalidArg 0#32 [] ∨ k.toNat < s.cfg.nmsg ∧ body k.toNat = .next t := by
  unfold withMessage at h
  split at h
  · exact .inr ⟨‹_›, h⟩
  · left
    simpa [raiseInvalidArgument, finish] using h.symm

theorem withCursors_of {b : Buf} {s : State} (h : s.bufOk b) (body : Result) : withCursors b s body = body := by
  unfold withCursors; rw [if_pos h]

theorem withCursors_bad {b : Buf} {s : State} (h : ¬ s.bufOk b) (body : Result) :
    withCursors b s body = .refused (.cursorOutOfRange b) := by unfold withCursors; rw [if_neg h]

/-- Everything `withCursors` can answer with. -/
theorem withCursors_next {b : Buf} {s t : State} {body : Result} (h : withCursors b s body = .next t) :
    s.bufOk b ∧ body = .next t := by
  unfold withCursors at h
  split at h
  · exact ⟨‹_›, h⟩
  · cases h

theorem mainPortOnly_main {s : State} (h : s.port = .M) (body : Result) : mainPortOnly s body = body := by
  simp [mainPortOnly, h]

theorem mainPortOnly_transport {s : State} (h : s.port = .T) (body : Result) :
    mainPortOnly s body = .next (s.respond .illegalCmd 0#32 []) := by
  simp [mainPortOnly, h, raiseIllegalCommand, finish]

/-- Everything `mainPortOnly` can answer with. -/
theorem mainPortOnly_next {s t : State} {body : Result} (h : mainPortOnly s body = .next t) :
    t = s.respond .illegalCmd 0#32 [] ∨ s.port = .M ∧ body = .next t := by
  unfold mainPortOnly at h
  split at h
  · left
    simpa [raiseIllegalCommand, finish] using h.symm
  · exact .inr ⟨‹_›, h⟩

theorem finish_next {s t : State} {st : Status} {v : Word} {d : List Byte} (h : finish s st v d = .next t) :
    t = s.respond st v d := by simpa [finish] using h.symm

theorem raiseInvalidArgument_eq (s : State) : raiseInvalidArgument s = .next (s.respond .invalidArg 0#32 []) := rfl

theorem raiseIllegalCommand_eq (s : State) : raiseIllegalCommand s = .next (s.respond .illegalCmd 0#32 []) := rfl

end Sys2Proof.Machine
end

