-- ==== Sys2Proof/Laws/Invariant.lean ====
section
/-! SUPPORT. The ring-buffer operations keep a buffer in order (`RingOk`), and the reset values are in order. -/

namespace Sys2Proof.Machine

/-- A buffer with its cursors at one slot holds nothing. -/
theorem used_self (cap : Nat) (d : Memory) (x : Nat) : used cap { data := d, head := x, tail := x } = 0 := by
  simp [used]

theorem ringOk_of_empty {cap : Nat} (hc : 0 < cap) {d : Memory} (hw : Memory.wf d) (hb : ∀ x ∈ d, x.1 < cap) :
    RingOk cap { data := d, head := 0, tail := 0 } :=
  ⟨hc, hc, hw, hb, fun o ho => by simp [used] at ho⟩

theorem ringOk_reset {cap : Nat} (hc : 0 < cap) : RingOk cap RingBuf.reset :=
  ringOk_of_empty hc (by simp [Memory.wf]) (by simp)

theorem ringOk_resetCursors {cap : Nat} {r : RingBuf} (h : RingOk cap r) : RingOk cap (resetCursors r) :=
  ringOk_of_empty (by have := h.1; omega) h.2.2.1 h.2.2.2.1

/-- A tail moved at most `Used` slots toward the head. -/
theorem ringOk_consume {cap : Nat} {r : RingBuf} (h : RingOk cap r) {d : Nat} (hd : d ≤ used cap r) :
    RingOk cap { r with tail := (r.tail + d) % cap } := by
  obtain ⟨hh, ht, hw, hb, hr⟩ := h
  refine ⟨hh, wrap_lt ht, hw, hb, fun o ho => ?_⟩
  rw [used_of_tail hh ht hd] at ho
  simp only [wrap_add]
  exact hr _ (by omega)

theorem ringOk_advance {cap : Nat} {r : RingBuf} (h : RingOk cap r) (n : Nat) : RingOk cap (advance cap r n) :=
  ringOk_consume h (Nat.min_le_right _ _)

/-- Bytes stored from the head on, and the head moved past them. -/
theorem ringOk_store {cap : Nat} {r : RingBuf} (h : RingOk cap r) {d : Memory} {k : Nat} (hk : k ≤ free cap r)
    (hw : Memory.wf d) (hb : ∀ x ∈ d, x.1 < cap)
    (hin : ∀ j < k, (Memory.read d ((r.head + j) % cap)).isSome = true)
    (hout : ∀ a, (∀ j < k, (r.head + j) % cap ≠ a) → Memory.read d a = Memory.read r.data a) :
    RingOk cap { data := d, head := (r.head + k) % cap, tail := r.tail } := by
  obtain ⟨hh, ht, _, _, hr⟩ := h
  have huf := used_add_free hh ht
  have hu := used_lt hh ht
  have htu := tail_add_used hh ht
  have hnew : used cap { data := d, head := (r.head + k) % cap, tail := r.tail } = used cap r + k := by
    have : (r.head + k) % cap = (r.tail + (used cap r + k)) % cap := by
      conv_lhs => rw [← htu, wrap_add]
    rw [this]
    exact used_of_head ht (by omega) d
  refine ⟨wrap_lt hh, ht, hw, hb, fun o ho => ?_⟩
  rw [hnew] at ho
  simp only
  by_cases hlt : o < used cap r
  · rw [hout]
    · exact hr o hlt
    · intro j hj heq
      rw [← htu, wrap_add] at heq
      have := wrap_inj ht (by omega) (by omega) heq
      omega
  · have := hin (o - used cap r) (by omega)
    rw [← htu, wrap_add] at this
    rwa [show used cap r + (o - used cap r) = o by omega] at this

theorem ringOk_pushByte {cap : Nat} {r : RingBuf} (h : RingOk cap r) (b : Byte) : RingOk cap (pushByte cap r b) := by
  rcases pushByte_cases cap r b h.1 h.2.1 with ⟨_, e⟩ | ⟨hf, e⟩
  · rw [e]; exact h
  · rw [e]
    refine ringOk_store (k := 1) h hf (Memory.wf_write _ _ _ h.2.2.1) (Memory.bound_write _ _ _ _ h.1 h.2.2.2.1) ?_ ?_
    · intro j hj
      have : j = 0 := by omega
      subst this
      simp [Memory.read_write, Nat.mod_eq_of_lt h.1]
    · intro a ha
      have := ha 0 (by omega)
      rw [Nat.add_zero, Nat.mod_eq_of_lt h.1] at this
      rw [Memory.read_write, if_neg (Ne.symm this)]

theorem ringOk_popByte {cap : Nat} {fill : Nat → Byte} {r : RingBuf} (h : RingOk cap r) :
    RingOk cap (popByte cap fill r).2 := by
  unfold popByte
  split
  · exact h
  · rename_i hne
    have := mt (empty_iff h.1 h.2.1).mpr hne
    exact ringOk_consume h (d := 1) (by omega)

theorem ringOk_flushOut {cap : Nat} {fill : Nat → Byte} {r : RingBuf} (h : RingOk cap r) (n : Nat) :
    RingOk cap (flushOut cap fill r n).ring := by
  rcases flushOut_cases cap fill r n h.1 h.2.1 with ⟨_, e⟩ | ⟨_, e⟩ <;> rw [e]
  · exact h
  · exact ringOk_advance h n

theorem ringOk_flushIn {cap : Nat} {r : RingBuf} (h : RingOk cap r) {src : List Byte} {n : Nat}
    (hs : src.length = n) : RingOk cap (flushIn cap r src n).ring := by
  have huf := used_add_free h.1 h.2.1
  rcases flushIn_cases cap r src n h.1 h.2.1 with ⟨_, e⟩ | ⟨hn, e⟩ <;> rw [e]
  · exact h
  · refine ringOk_store h (Nat.min_le_right _ _) (writeRange_wf _ _ h.2.2.1)
      (writeRange_bound _ _ h.1 (by omega) h.2.2.2.1) ?_ ?_
    · intro j hj
      rw [read_writeRange _ _ h.1 (by omega) (by omega) j hj]; rfl
    · intro a ha
      exact read_writeRange_other _ _ h.1 (by omega) a ha

/-! ## Cursors in range, without more -/

theorem cursorsInRange_pushByte {cap : Nat} {r : RingBuf} (h : cursorsInRange cap r = true) (b : Byte) :
    cursorsInRange cap (pushByte cap r b) = true := by
  rw [cursorsInRange_iff] at *
  rcases pushByte_cases cap r b h.1 h.2 with ⟨_, e⟩ | ⟨_, e⟩ <;> rw [e]
  · exact h
  · exact ⟨wrap_lt h.1, h.2⟩

theorem cursorsInRange_consume {cap : Nat} {r : RingBuf} (h : cursorsInRange cap r = true) (d : Nat) :
    cursorsInRange cap { r with tail := (r.tail + d) % cap } = true := by
  rw [cursorsInRange_iff] at *
  exact ⟨h.1, wrap_lt h.2⟩

theorem cursorsInRange_advance {cap : Nat} {r : RingBuf} (h : cursorsInRange cap r = true) (n : Nat) :
    cursorsInRange cap (advance cap r n) = true := cursorsInRange_consume h _

theorem cursorsInRange_popByte {cap : Nat} {fill : Nat → Byte} {r : RingBuf} (h : cursorsInRange cap r = true) :
    cursorsInRange cap (popByte cap fill r).2 = true := by
  unfold popByte
  split
  · exact h
  · exact cursorsInRange_consume h 1

theorem cursorsInRange_resetCursors {cap : Nat} (hc : 0 < cap) (r : RingBuf) :
    cursorsInRange cap (resetCursors r) = true := by
  rw [cursorsInRange_iff]; exact ⟨hc, hc⟩

theorem cursorsInRange_flushOut {cap : Nat} {fill : Nat → Byte} {r : RingBuf} (h : cursorsInRange cap r = true)
    (n : Nat) : cursorsInRange cap (flushOut cap fill r n).ring = true := by
  have h' := (cursorsInRange_iff cap r).mp h
  rcases flushOut_cases cap fill r n h'.1 h'.2 with ⟨_, e⟩ | ⟨_, e⟩ <;> rw [e]
  · exact h
  · exact cursorsInRange_advance h n

theorem cursorsInRange_flushIn {cap : Nat} {r : RingBuf} (h : cursorsInRange cap r = true) (src : List Byte)
    (n : Nat) : cursorsInRange cap (flushIn cap r src n).ring = true := by
  have h' := (cursorsInRange_iff cap r).mp h
  rcases flushIn_cases cap r src n h'.1 h'.2 with ⟨_, e⟩ | ⟨_, e⟩ <;> rw [e]
  · exact h
  · exact (cursorsInRange_iff _ _).mpr ⟨wrap_lt h'.1, h'.2⟩

/-! ## The configuration -/

/-- What the configuration check gives of the sizes. -/
theorem config_sizes (c : Config) :
    2 ≤ c.capRx ∧ c.capRx ≤ 65536 ∧ 2 ≤ c.capTx ∧ c.capTx ≤ 65536 ∧ 1 ≤ c.tickWidth ∧ c.tickWidth ≤ 32 ∧
    254 ≤ c.payloadMax ∧ c.nmsg ≤ 256 ∧ c.buildMaxBytes ≤ c.capTx := by
  have h := c.ok
  simp only [RawConfig.check, RawConfig.builderOk, Bool.and_eq_true, decide_eq_true_eq] at h
  simp only [Config.nmsg]
  tauto

theorem config_cap_pos (c : Config) (b : Buf) : 2 ≤ c.cap b ∧ c.cap b ≤ 65536 := by
  have := config_sizes c
  cases b <;> simp [Config.cap] <;> omega

/-- What the configuration check gives of each catalog entry. -/
theorem config_entry_ok (c : Config) {k : Nat} (hk : k < c.nmsg) :
    1 ≤ (c.entry k).length.toNat ∧ (c.entry k).frameLen ≤ c.capRx - 1 ∧
    (c.entry k).payloadLen ≤ c.payloadMax ∧ (c.entry k).maxTicks < 2 ^ c.tickWidth := by
  have h := c.ok
  simp only [RawConfig.check, Bool.and_eq_true, List.all_eq_true] at h
  have hk' : k < c.catalog.length := hk
  have he : c.entry k = c.catalog[k] := by simp [Config.entry, List.getD_eq_getElem?_getD, hk']
  have := h.2 (c.entry k) (by rw [he]; exact List.getElem_mem _)
  simpa [RawConfig.entryOk, and_assoc] using this

end Sys2Proof.Machine
end

