-- ==== Sys2Proof/Laws/Build.lean ====
section
/-! SUPPORT. The stamp of a word, the size of the frame, and everything `FB.BUILD` can do. -/

namespace Sys2Proof.Machine

/-! ## The stamp -/

theorem foldl_xor (f : Nat → Bool) : ∀ (l : List Nat) (p : Bool),
    l.foldl (fun p i => p ^^ f i) p = (p ^^ decide (l.countP f % 2 = 1)) := by
  intro l
  induction l with
  | nil => intro p; simp
  | cons a l ih =>
    intro p
    rw [List.foldl_cons, ih, List.countP_cons]
    rcases Nat.mod_two_eq_zero_or_one (l.countP f) with h | h <;> cases hf : f a <;> cases p <;>
      simp [h, Nat.add_mod]

/-- The parity of the low bits is that of their number. -/
theorem parityLow31_eq (x : Word) :
    parityLow31 x = decide ((List.range 31).countP (fun i => x.getLsbD i) % 2 = 1) := by
  unfold parityLow31
  rw [foldl_xor]; simp

/-- The stamp of a word whose bit 31 is clear. -/
theorem stamp_clear {x : Word} (h : x.getLsbD 31 = false) : stamp x = some (oddStamp x) := by
  unfold stamp oddStamp
  rw [h, parityLow31_eq]
  rcases Nat.mod_two_eq_zero_or_one ((List.range 31).countP fun i => x.getLsbD i) with e | e <;> rw [e] <;> simp

theorem stamp_set {x : Word} (h : x.getLsbD 31 = true) : stamp x = none := by
  unfold stamp; rw [h]; rfl

/-- The stamps of words whose bits 31 are all clear. -/
theorem stampAll_clear {ws : List Word} (h : ∀ w ∈ ws, w.getLsbD 31 = false) :
    stampAll ws = some (ws.map oddStamp) := by
  induction ws with
  | nil => rfl
  | cons x xs ih =>
    unfold stampAll
    rw [stamp_clear (h x (by simp)), ih (fun w hw => h w (by simp [hw]))]
    rfl

theorem stampAll_set {ws : List Word} (h : ∃ w ∈ ws, w.getLsbD 31 = true) : stampAll ws = none := by
  induction ws with
  | nil => obtain ⟨w, hw, _⟩ := h; simp at hw
  | cons x xs ih =>
    unfold stampAll
    obtain ⟨w, hw, hb⟩ := h
    rcases List.mem_cons.mp hw with rfl | hw
    · rw [stamp_set hb]
    · rw [ih ⟨w, hw, hb⟩]
      cases stamp x <;> rfl

/-- A list of words either has all its bits 31 clear or one set. -/
theorem bits31 (ws : List Word) : (∀ w ∈ ws, w.getLsbD 31 = false) ∨ ∃ w ∈ ws, w.getLsbD 31 = true := by
  by_cases h : ∃ w ∈ ws, w.getLsbD 31 = true
  · exact .inr h
  · refine .inl fun w hw => ?_
    by_contra hc
    exact h ⟨w, hw, by simpa using hc⟩

/-! ## The frame -/

@[simp] theorem wordBytes_length (m : Bool) (w : Word) : (wordBytes m w).length = 4 := by cases m <;> rfl

theorem flatMap_wordBytes_length (m : Bool) (ws : List Word) : (ws.flatMap (wordBytes m)).length = 4 * ws.length := by
  induction ws with
  | nil => rfl
  | cons x xs ih => simp [ih]; omega

@[simp] theorem frameBody_length (m : Bool) (e : CatEntry) (sdi : BitVec 4) (ws : List Word) :
    (frameBody m e sdi ws).length = 5 + 4 * ws.length := by
  simp only [frameBody, frameHeader, List.length_append, flatMap_wordBytes_length]; rfl

@[simp] theorem sealed_length (C : LawfulCrc) (body : List Byte) : (sealed C body).length = body.length + 2 := by
  simp [sealed]

@[simp] theorem flushSource_length (b : Nat) (frame : List Byte) (n : Nat) : (flushSource b frame n).length = n := by
  simp [flushSource]; omega

theorem flushSource_take (b : Nat) (frame : List Byte) (n : Nat) :
    (flushSource b frame n).take frame.length = frame.take n := by
  unfold flushSource
  by_cases h : frame.length ≤ n
  · rw [List.take_of_length_le h, List.take_append_of_le_length (le_refl _), List.take_length]
  · rw [show n - frame.length = 0 by omega]
    simp [List.take_take]; omega

/-- The region of the frame is the one of Safety.lean. -/
theorem frameBody_eq (s : State) (sdi : BitVec 4) (k : Nat) (ws : List Word) :
    frameBody s.cfg.wordMsbFirst (s.cfg.entry k) sdi ws = frameRegion s sdi k ws := by
  unfold frameBody frameRegion frameHeader sidePair wordBytes
  congr 1
  split <;> rfl

theorem buildAllowed_iff (s : State) (sdi : BitVec 4) (k : BitVec 8) (wnull : Bool) (nw : BitVec 8) (nbf : Word) :
    buildAllowed s.cfg sdi k wnull nw nbf = true ↔ BuildArgsOk s sdi k wnull nw nbf := by
  cases wnull <;> simp [buildAllowed, BuildArgsOk, and_assoc]

/-! ## The command -/

/-- What `FB.BUILD` puts into `TX` when it builds, and the state it leaves. -/
theorem fbBuildWith_builds (C : LawfulCrc) {sdi : BitVec 4} {k : BitVec 8} {wnull : Bool} {nw : BitVec 8} {nbf : Word}
    {words : List Word} {s : State} (hp : s.port = .M) (hh : s.cfg.hasBuilder = true)
    (ha : BuildArgsOk s sdi k wnull nw nbf) (hw : ∀ w ∈ words, w.getLsbD 31 = false) (hb : s.bufOk .tx) :
    fbBuildWith C sdi k wnull nw nbf words s =
      (let frame := sealed C (frameRegion s sdi k.toNat (words.map oddStamp))
       let f := flushIn (s.cap .tx) s.tx (flushSource s.builds frame nbf.toNat) nbf.toNat
       finish { s.setRing .tx f.ring with builds := s.builds + 1 } .ok (valOfNat f.count) []) := by
  unfold fbBuildWith
  rw [mainPortOnly_main hp, if_neg (by simp [hh]), if_neg (by simp [(buildAllowed_iff ..).mpr ha]),
    stampAll_clear hw]
  simp only [withCursors_of hb, frameBody_eq]

/-- Everything `FB.BUILD` can answer with. -/
theorem fbBuildWith_cases (C : LawfulCrc) (sdi : BitVec 4) (k : BitVec 8) (wnull : Bool) (nw : BitVec 8) (nbf : Word)
    (words : List Word) (s : State) :
    ((s.port = .T ∨ s.cfg.hasBuilder = false) ∧
      fbBuildWith C sdi k wnull nw nbf words s = .next (s.respond .illegalCmd 0#32 [])) ∨
    (s.port = .M ∧ s.cfg.hasBuilder = true ∧ ¬ BuildArgsOk s sdi k wnull nw nbf ∧
      fbBuildWith C sdi k wnull nw nbf words s = .next (s.respond .invalidArg 0#32 [])) ∨
    (s.port = .M ∧ s.cfg.hasBuilder = true ∧ BuildArgsOk s sdi k wnull nw nbf ∧ (∃ w ∈ words, w.getLsbD 31 = true) ∧
      fbBuildWith C sdi k wnull nw nbf words s = .refused .parityBitSet) ∨
    (s.port = .M ∧ s.cfg.hasBuilder = true ∧ BuildArgsOk s sdi k wnull nw nbf ∧ (∀ w ∈ words, w.getLsbD 31 = false) ∧
      ¬ s.bufOk .tx ∧ fbBuildWith C sdi k wnull nw nbf words s = .refused (.cursorOutOfRange .tx)) ∨
    (s.port = .M ∧ s.cfg.hasBuilder = true ∧ BuildArgsOk s sdi k wnull nw nbf ∧ (∀ w ∈ words, w.getLsbD 31 = false) ∧
      s.bufOk .tx) := by
  cases hp : s.port with
  | T => exact .inl ⟨.inl rfl, by unfold fbBuildWith; rw [mainPortOnly_transport hp]⟩
  | M =>
    by_cases hh : s.cfg.hasBuilder = false
    · exact .inl ⟨.inr hh, by unfold fbBuildWith; rw [mainPortOnly_main hp, if_pos hh]; rfl⟩
    · have hh' : s.cfg.hasBuilder = true := by simpa using hh
      by_cases ha : BuildArgsOk s sdi k wnull nw nbf
      · have ha' := (buildAllowed_iff ..).mpr ha
        rcases bits31 words with hw | hw
        · by_cases hb : s.bufOk .tx
          · exact .inr (.inr (.inr (.inr ⟨rfl, hh', ha, hw, hb⟩)))
          · refine .inr (.inr (.inr (.inl ⟨rfl, hh', ha, hw, hb, ?_⟩)))
            unfold fbBuildWith
            rw [mainPortOnly_main hp, if_neg hh, if_neg (by simp [ha']), stampAll_clear hw]
            simp only [withCursors_bad hb]
        · refine .inr (.inr (.inl ⟨rfl, hh', ha, hw, ?_⟩))
          unfold fbBuildWith
          rw [mainPortOnly_main hp, if_neg hh, if_neg (by simp [ha']), stampAll_set hw]
      · refine .inr (.inl ⟨rfl, hh', ha, ?_⟩)
        have ha' := mt (buildAllowed_iff ..).mp ha
        unfold fbBuildWith
        rw [mainPortOnly_main hp, if_neg hh, if_pos (by simpa using ha')]; rfl

end Sys2Proof.Machine
end

