-- ==== Sys2Proof/Laws/Encoding.lean ====
section
/-! SUPPORT. A command word and its five fields say the same, and so do the fields of a command and its operands. -/

namespace Sys2Proof

/-- The fields read from a word put together from fields. -/
@[simp] theorem fieldsOf_wordOfFields (f : Fields) : fieldsOf (wordOfFields f) = f := by
  obtain ⟨a, b, c, d, e⟩ := f
  simp only [fieldsOf, wordOfFields, Fields.mk.injEq]
  refine ⟨?_, ?_, ?_, ?_, ?_⟩ <;>
  · ext i hi
    simp only [BitVec.getElem_extractLsb', BitVec.getLsbD_append]
    simp only [BitVec.getElem_eq_testBit_toNat, BitVec.getLsbD]
    (repeat' split) <;> first | omega | (congr 1; omega)

/-- The word put together from the fields read from a word. -/
@[simp] theorem wordOfFields_fieldsOf (w : Word64) : wordOfFields (fieldsOf w) = w := by
  apply BitVec.eq_of_getLsbD_eq
  intro i hi
  simp only [fieldsOf, wordOfFields, BitVec.getLsbD_append, BitVec.getLsbD_extractLsb']
  (repeat' split) <;>
  · simp only [BitVec.getLsbD]
    rw [decide_eq_true (by omega), Bool.true_and]
    congr 1
    omega

@[simp] theorem encode_fields (i : Instr) : fieldsOf (encode i).word = encodeFields i := fieldsOf_wordOfFields _

@[simp] theorem commandIf_eq_some (legal : Bool) (i j : Instr) : commandIf legal i = some j ↔ legal = true ∧ i = j := by
  cases legal <;> simp [commandIf]

end Sys2Proof
end

