-- ==== Sys2Proof/Laws/Scan.lean ====
section
/-! SUPPORT. Everything the search loop can end with, in the terms of Safety.lean, and everything an accepted frame
does. -/

namespace Sys2Proof.Machine

/-! ## Advancing a buffer of the state -/

theorem advance_contents {s : State} {b : Buf} (h : s.bufOk b) (n : Nat) :
    (s.advance b n).contents b = (s.contents b).drop n := by
  have hc := (cursorsInRange_iff _ _).mp h
  rw [State.advance, setRing_contents, ringContents_advance _ _ _ _ hc.1 hc.2, ← contents_eq]

theorem advance_used {s : State} {b : Buf} (h : s.bufOk b) (n : Nat) : (s.advance b n).used b = s.used b - n := by
  rw [← contents_length, advance_contents h]; simp

theorem advance_bufOk {s : State} {b : Buf} (h : s.bufOk b) (n : Nat) : (s.advance b n).bufOk b := by
  simpa [State.bufOk] using cursorsInRange_advance h n

/-- The unread byte at an offset behind an advanced tail. -/
theorem advance_peek {s : State} {b : Buf} {n : Nat} (hn : n ≤ s.used b) (o : Nat) :
    (s.advance b n).peek b o = s.peek b (n + o) := by
  simp only [State.peek, advance_cap, advance_initial, advance_ring, peek, advance]
  rw [Nat.min_eq_left (by exact hn), wrap_add]

/-- Advancing writes nothing but one tail. -/
theorem advance_rx_eq (s : State) (n : Nat) :
    s.advance .rx n = { s with rx := { s.rx with tail := (s.advance .rx n).rx.tail } } := rfl

theorem used_lt_cap {s : State} {b : Buf} (h : s.bufOk b) : s.used b < s.cap b :=
  used_lt ((cursorsInRange_iff _ _).mp h).1 ((cursorsInRange_iff _ _).mp h).2

/-- Fewer bytes are held than a discard count has room for. -/
theorem used_lt_65536 {s : State} {b : Buf} (h : s.bufOk b) : s.used b < 65536 :=
  lt_of_lt_of_le (used_lt_cap h) (config_cap_pos s.cfg b).2

/-! ## Matching -/

theorem firstMatch_some_iff (catalog : List CatEntry) (pk : Nat → Byte) (i m : Nat) :
    firstMatch catalog pk i = some m ↔
      ∃ h : m < catalog.length, matchEntry pk i catalog[m] = true ∧
        ∀ k, (hk : k < m) → matchEntry pk i (catalog[k]'(by omega)) = false := by
  unfold firstMatch
  rw [List.findIdx?_eq_some_iff_getElem]
  constructor
  · rintro ⟨h, h1, h2⟩
    exact ⟨h, h1, fun k hk => by simpa using h2 k hk⟩
  · rintro ⟨h, h1, h2⟩
    exact ⟨h, h1, fun k hk => by simpa using h2 k hk⟩

theorem firstMatch_none_iff (catalog : List CatEntry) (pk : Nat → Byte) (i : Nat) :
    firstMatch catalog pk i = none ↔ ∀ k, (hk : k < catalog.length) → matchEntry pk i catalog[k] = false := by
  unfold firstMatch
  rw [List.findIdx?_eq_none_iff]
  constructor
  · intro h k hk
    simpa using h catalog[k] (List.getElem_mem _)
  · intro h x hx
    obtain ⟨k, hk, rfl⟩ := List.getElem_of_mem hx
    simpa using h k hk

theorem matchEntry_iff (s : State) (i k : Nat) : matchEntry (s.peek .rx) i (s.cfg.entry k) = true ↔ s.Matches i k := by
  simp [matchEntry, State.Matches, and_assoc]

theorem entry_eq_getElem (c : Config) {k : Nat} (h : k < c.catalog.length) : c.entry k = c.catalog[k] := by
  simp [Config.entry, List.getD_eq_getElem?_getD, h]

theorem firstMatch_some (s : State) (i m : Nat) :
    firstMatch s.cfg.catalog (s.peek .rx) i = some m ↔ m < s.cfg.nmsg ∧ s.Matches i m ∧ ∀ k < m, ¬ s.Matches i k := by
  rw [firstMatch_some_iff]
  constructor
  · rintro ⟨h, h1, h2⟩
    refine ⟨h, ?_, fun k hk => ?_⟩
    · rw [← matchEntry_iff, entry_eq_getElem _ h, h1]
    · rw [← matchEntry_iff, entry_eq_getElem _ (by omega), h2 k hk]; simp
  · rintro ⟨h, h1, h2⟩
    refine ⟨h, ?_, fun k hk => ?_⟩
    · rw [← matchEntry_iff, entry_eq_getElem _ h] at h1; exact h1
    · have := h2 k hk
      have hlt : k < s.cfg.catalog.length := lt_trans hk h
      rw [← matchEntry_iff, entry_eq_getElem _ hlt] at this
      simpa using this

theorem firstMatch_none (s : State) (i : Nat) :
    firstMatch s.cfg.catalog (s.peek .rx) i = none ↔ ∀ k < s.cfg.nmsg, ¬ s.Matches i k := by
  rw [firstMatch_none_iff]
  constructor
  · intro h k hk
    rw [← matchEntry_iff, entry_eq_getElem _ hk, h k hk]; simp
  · intro h k hk
    have := h k hk
    rw [← matchEntry_iff, entry_eq_getElem _ hk] at this
    simpa using this

/-! ## The search -/

/-- The offset is passed over by the loop over `n` bytes. -/
def Passed (catalog : List CatEntry) (pk : Nat → Byte) (n o : Nat) : Prop :=
  pk o = preamble → minFrame ≤ n - o ∧ firstMatch catalog pk o = none

/-- What it means that the loop from offset `i` with `fuel` offsets left ends as it does. -/
def ScanEnds (catalog : List CatEntry) (pk : Nat → Byte) (n fuel i : Nat) : ScanExit → Prop
  | .exhausted j => j = i + fuel ∧ ∀ o, i ≤ o → o < j → Passed catalog pk n o
  | .short j => i ≤ j ∧ j < i + fuel ∧ (∀ o, i ≤ o → o < j → Passed catalog pk n o) ∧ pk j = preamble ∧ n - j < minFrame
  | .found j m => i ≤ j ∧ j < i + fuel ∧ (∀ o, i ≤ o → o < j → Passed catalog pk n o) ∧ pk j = preamble ∧
      minFrame ≤ n - j ∧ firstMatch catalog pk j = some m

theorem scanEnds_succ {catalog : List CatEntry} {pk : Nat → Byte} {n fuel i : Nat} {e : ScanExit}
    (hp : Passed catalog pk n i) (h : ScanEnds catalog pk n fuel (i + 1) e) : ScanEnds catalog pk n (fuel + 1) i e := by
  have step : ∀ j, (∀ o, i + 1 ≤ o → o < j → Passed catalog pk n o) → ∀ o, i ≤ o → o < j → Passed catalog pk n o := by
    intro j hj o h1 h2
    rcases Nat.eq_or_lt_of_le h1 with rfl | h3
    · exact hp
    · exact hj o h3 h2
  cases e with
  | exhausted j => exact ⟨by have := h.1; omega, step j h.2⟩
  | short j => exact ⟨by have := h.1; omega, by have := h.2.1; omega, step j h.2.2.1, h.2.2.2⟩
  | found j m => exact ⟨by have := h.1; omega, by have := h.2.1; omega, step j h.2.2.1, h.2.2.2⟩

theorem scanFrom_ends (catalog : List CatEntry) (pk : Nat → Byte) (n : Nat) : ∀ fuel i,
    ScanEnds catalog pk n fuel i (scanFrom catalog pk n fuel i) := by
  intro fuel
  induction fuel with
  | zero => intro i; exact ⟨rfl, fun o h1 h2 => by omega⟩
  | succ fuel ih =>
    intro i
    unfold scanFrom
    split
    · rename_i hp
      split
      · rename_i hs
        exact ⟨le_refl _, by omega, fun o h1 h2 => by omega, hp, hs⟩
      · rename_i hs
        split
        · rename_i m hm
          exact ⟨le_refl _, by omega, fun o h1 h2 => by omega, hp, by omega, hm⟩
        · rename_i hm
          exact scanEnds_succ (fun _ => ⟨by omega, hm⟩) (ih (i + 1))
    · rename_i hp
      exact scanEnds_succ (fun h => absurd h hp) (ih (i + 1))

theorem passed_iff (s : State) (o : Nat) :
    Passed s.cfg.catalog (s.peek .rx) (s.used .rx) o ↔
      (s.peek .rx o = preamble → minFrame ≤ s.used .rx - o ∧ ∀ k < s.cfg.nmsg, ¬ s.Matches o k) := by
  unfold Passed; rw [firstMatch_none]

/-- Everything the search can end with. -/
theorem search_cases (s : State) :
    (s.search = .exhausted (s.used .rx) ∧ s.PassesTo (s.used .rx)) ∨
    (∃ i, s.search = .short i ∧ i < s.used .rx ∧ s.PassesTo i ∧ s.peek .rx i = preamble ∧
      s.used .rx - i < minFrame) ∨
    (∃ i m, s.search = .found i m ∧ s.Candidate i m) := by
  have h := scanFrom_ends s.cfg.catalog (s.peek .rx) (s.used .rx) (s.used .rx) 0
  change ScanEnds _ _ _ _ _ s.search at h
  revert h
  cases s.search with
  | exhausted j =>
    rintro ⟨rfl, h⟩
    rw [Nat.zero_add] at h ⊢
    exact .inl ⟨rfl, fun o ho => (passed_iff s o).mp (h o (by omega) ho)⟩
  | short j =>
    rintro ⟨_, h1, h2, h3, h4⟩
    exact .inr (.inl ⟨j, rfl, by omega, fun o ho => (passed_iff s o).mp (h2 o (by omega) ho), h3, h4⟩)
  | found j m =>
    rintro ⟨_, h1, h2, h3, h4, h5⟩
    have h6 := (firstMatch_some s j m).mp h5
    exact .inr (.inr ⟨j, m, rfl, by omega, fun o ho => (passed_iff s o).mp (h2 o (by omega) ho), h3, h4, h6⟩)

/-- A candidate is what the search finds. -/
theorem search_found {s : State} {i m : Nat} (h : s.Candidate i m) : s.search = .found i m := by
  obtain ⟨h1, h2, h3, h4, h5, h6, h7⟩ := h
  rcases search_cases s with ⟨_, hp⟩ | ⟨j, _, hj, hp, hpre, hs⟩ | ⟨j, k, e, hj, hp, hpre, hs, hk, hm, hf⟩
  · exact absurd h6 ((hp i h1 h3).2 m h5)
  · rcases lt_trichotomy i j with hlt | rfl | hlt
    · exact absurd h6 ((hp i hlt h3).2 m h5)
    · omega
    · have := (h2 j hlt hpre).1; omega
  · rcases lt_trichotomy i j with hlt | rfl | hlt
    · exact absurd h6 ((hp i hlt h3).2 m h5)
    · rcases lt_trichotomy m k with hl | rfl | hl
      · exact absurd h6 (hf m hl)
      · exact e
      · exact absurd hm (h7 k hl)
    · exact absurd hm ((h2 j hlt hpre).2 k hk)

/-- A short preamble behind passed-over offsets is what the search ends at. -/
theorem search_short {s : State} {i : Nat} (h1 : i < s.used .rx) (h2 : s.PassesTo i) (h3 : s.peek .rx i = preamble)
    (h4 : s.used .rx - i < minFrame) : s.search = .short i := by
  rcases search_cases s with ⟨_, hp⟩ | ⟨j, e, hj, hp, hpre, hs⟩ | ⟨j, k, _, hj, hp, hpre, hs, hk, hm, hf⟩
  · have := (hp i h1 h3).1; omega
  · rcases lt_trichotomy i j with hlt | rfl | hlt
    · have := (hp i hlt h3).1; omega
    · exact e
    · have := (h2 j hlt hpre).1; omega
  · rcases lt_trichotomy i j with hlt | rfl | hlt
    · have := (hp i hlt h3).1; omega
    · omega
    · exact absurd hm ((h2 j hlt hpre).2 k hk)

/-- With every offset passed over the search ends past the last byte. -/
theorem search_exhausted {s : State} (h : s.PassesTo (s.used .rx)) : s.search = .exhausted (s.used .rx) := by
  rcases search_cases s with ⟨e, _⟩ | ⟨j, _, hj, _, hpre, hs⟩ | ⟨j, k, _, hj, _, hpre, _, hk, hm, _⟩
  · exact e
  · have := (h j hj hpre).1; omega
  · exact absurd hm ((h j hj hpre).2 k hk)

/-- The value of a scan's response, as a sum. -/
theorem scanVal_eq {d m : Nat} (hm : m < 65536) : scanVal d m = BitVec.ofNat 32 (d * 65536 + m) := by
  unfold scanVal valOfNat
  congr 1
  rw [Nat.shiftLeft_eq, show (2 : Nat) ^ 16 = 65536 from rfl, Nat.mul_comm, ← Nat.two_pow_add_eq_or_of_lt (i := 16) (by omega)]

/-! ## An accepted frame -/

/-- The message state an accepted frame leaves for its entry, the frame being `frame`. -/
def acceptedMsg (e : CatEntry) (old : MsgState) (frame : List Byte) : MsgState :=
  if e.payloadEn then
    { elapsed := 0, busFailed := old.busFailed,
      payload := memWrite old.payload 0 ((frame.drop headerLen).take e.payloadLen),
      payloadLen := BitVec.ofNat 8 e.payloadLen }
  else { old with elapsed := 0 }

/-- How many bytes an accepted frame consumes. -/
def acceptedLen (c : Config) (e : CatEntry) : Nat := if e.payloadEn || c.noPayloadSkips then e.frameLen else 7

theorem advance_mod (cap : Nat) (r : RingBuf) (a b : Nat) (hh : r.head < cap) (ht : r.tail < cap) :
    advance cap (advance cap r a) b = advance cap r (a + b) := by
  have hu : used cap (advance cap r a) = used cap r - a := by
    unfold advance
    rw [used_of_tail hh ht (Nat.min_le_right _ _)]; omega
  have e : advance cap (advance cap r a) b =
      { advance cap r a with tail := ((advance cap r a).tail + min b (used cap (advance cap r a))) % cap } := rfl
  rw [e, hu]
  simp only [advance, wrap_add]
  congr 2
  omega

theorem state_advance_advance {s : State} {b : Buf} (h : s.bufOk b) (m n : Nat) :
    (s.advance b m).advance b n = s.advance b (m + n) := by
  have hc := (cursorsInRange_iff _ _).mp h
  simp only [State.advance, setRing_cap, setRing_ring, setRing_setRing, advance_mod _ _ _ _ hc.1 hc.2]

theorem setMsg_advance (s : State) (b : Buf) (n k : Nat) (m : MsgState) :
    (s.setMsg k m).advance b n = (s.advance b n).setMsg k m := by cases b <;> rfl

theorem setMsg_setMsg (s : State) (k : Nat) (m m' : MsgState) : (s.setMsg k m).setMsg k m' = s.setMsg k m' := by
  simp [State.setMsg]

/-- Beyond the message states there is nothing to set. -/
theorem setMsg_out (s : State) {k : Nat} (h : s.msgs.length ≤ k) (m : MsgState) : s.setMsg k m = s := by
  simp [State.setMsg, List.set_eq_of_length_le h]

/-- Refreshing a counter just written. -/
theorem refreshCounter_setMsg (s : State) (k : Nat) (m : MsgState) :
    refreshCounter k (s.setMsg k m) = s.setMsg k { m with elapsed := 0 } := by
  by_cases h : k < s.msgs.length
  · rw [refreshCounter, setMsg_setMsg, setMsg_msg_same _ _ _ h]
  · rw [refreshCounter, setMsg_out _ (by simp; omega), setMsg_out _ (by omega), setMsg_out _ (by omega)]

/-- What moving the payload of entry `m` does, when the payload is held. -/
theorem movePayload_eq {s : State} {m : Nat} (h : s.bufOk .rx) (hm : m < s.cfg.nmsg) :
    movePayload m s =
      if (s.cfg.entry m).payloadEn then
        (s.advance .rx (s.cfg.entry m).payloadLen).setMsg m
          { s.msg m with
            payload := memWrite (s.msg m).payload 0 ((s.contents .rx).take (s.cfg.entry m).payloadLen),
            payloadLen := BitVec.ofNat 8 (s.cfg.entry m).payloadLen }
      else if s.cfg.noPayloadSkips then s.advance .rx (s.cfg.entry m).payloadLen
      else s := by
  have hc := (cursorsInRange_iff _ _).mp h
  have he := config_entry_ok s.cfg hm
  unfold movePayload
  simp only
  split
  · rcases flushOut_cases (s.cap .rx) (s.initial (.data .rx)) s.rx (s.cfg.entry m).payloadLen hc.1 hc.2 with
      ⟨hgt, _⟩ | ⟨_, e⟩
    · exfalso
      simp only [CatEntry.payloadLen, CatEntry.frameLen, State.cap, Config.cap] at *
      omega
    · rw [e]; rfl
  · rfl

/-- Everything accepting the frame of entry `m` does: the bytes consumed and the message state written. -/
theorem acceptFrame_eq {s : State} {m : Nat} (h : s.bufOk .rx) (hm : m < s.cfg.nmsg) :
    acceptFrame m s =
      (s.advance .rx (acceptedLen s.cfg (s.cfg.entry m))).setMsg m
        (acceptedMsg (s.cfg.entry m) (s.msg m) (s.contents .rx)) := by
  have he := config_entry_ok s.cfg hm
  have h1 := advance_bufOk h headerLen
  unfold acceptFrame
  rw [movePayload_eq h1 (by simpa using hm)]
  simp only [advance_cfg]
  split
  · rename_i hen
    simp only [refreshCounter_setMsg, setMsg_advance, state_advance_advance h]
    simp only [acceptedLen, acceptedMsg, hen, Bool.true_or, if_true, advance_msg]
    rw [advance_contents h]
    congr 2
    simp only [CatEntry.frameLen, CatEntry.payloadLen, headerLen, crcLen]
    omega
  · rename_i hen
    split
    · rename_i hs
      simp only [refreshCounter, setMsg_advance, state_advance_advance h]
      simp only [acceptedLen, acceptedMsg, hen, hs, Bool.or_true, if_true, advance_msg]
      congr 2
      simp only [CatEntry.frameLen, CatEntry.payloadLen, headerLen, crcLen]
      omega
    · rename_i hs
      simp only [refreshCounter, setMsg_advance, state_advance_advance h]
      simp only [acceptedLen, acceptedMsg, hen, hs, Bool.or_false, advance_msg]
      rfl

/-! ## The whole scan -/

/-- A scan that finds a candidate. -/
theorem fsScanWith_candidate (C : LawfulCrc) {s : State} (h : s.CanScan) {i m : Nat} (hc : s.Candidate i m) :
    fsScanWith C s =
      if s.used .rx - i < (s.cfg.entry m).frameLen then finish (s.advance .rx i) .incomplete (scanVal i 0) []
      else if rxCrc C (s.advance .rx i) (s.cfg.entry m).frameLen ≠ 0#16 then
        finish (s.advance .rx (i + 1)) .crcMismatch (scanVal i 0) []
      else finish (acceptFrame m (s.advance .rx i)) .ok (scanVal i m) [] := by
  obtain ⟨hp, hv, hb⟩ := h
  unfold fsScanWith
  rw [mainPortOnly_main hp, if_neg (by simp [hv]), withCursors_of hb, search_found hc]
  have hu := advance_used hb i
  show (if (s.advance .rx i).used .rx < (s.cfg.entry m).frameLen then finish (s.advance .rx i) .incomplete (scanVal i 0) []
    else validate C m (s.cfg.entry m).frameLen i (s.advance .rx i)) = _
  by_cases hl : s.used .rx - i < (s.cfg.entry m).frameLen
  · rw [if_pos hl, if_pos (by omega)]
  · rw [if_neg hl, if_neg (by omega), validate, state_advance_advance hb]

/-- Everything `FS.SCAN` can do on the main port with a message set and its cursors in range. -/
theorem fsScanWith_cases (C : LawfulCrc) {s : State} (h : s.CanScan) :
    (s.PassesTo (s.used .rx) ∧ fsScanWith C s = finish (s.advance .rx (s.used .rx)) .noMatch (scanVal (s.used .rx) 0) []) ∨
    (∃ i, i < s.used .rx ∧ s.PassesTo i ∧ s.peek .rx i = preamble ∧ s.used .rx - i < minFrame ∧
      fsScanWith C s = finish (s.advance .rx i) .incomplete (scanVal i 0) []) ∨
    (∃ i m, s.Candidate i m ∧ s.used .rx - i < (s.cfg.entry m).frameLen ∧
      fsScanWith C s = finish (s.advance .rx i) .incomplete (scanVal i 0) []) ∨
    (∃ i m, s.Candidate i m ∧ (s.cfg.entry m).frameLen ≤ s.used .rx - i ∧
      rxCrc C (s.advance .rx i) (s.cfg.entry m).frameLen ≠ 0#16 ∧
      fsScanWith C s = finish (s.advance .rx (i + 1)) .crcMismatch (scanVal i 0) []) ∨
    (∃ i m, s.Candidate i m ∧ (s.cfg.entry m).frameLen ≤ s.used .rx - i ∧
      rxCrc C (s.advance .rx i) (s.cfg.entry m).frameLen = 0#16 ∧
      fsScanWith C s = finish (acceptFrame m (s.advance .rx i)) .ok (scanVal i m) []) := by
  have h' := h
  obtain ⟨hp, hv, hb⟩ := h'
  rcases search_cases s with ⟨e, hall⟩ | ⟨i, e, h1, h2, h3, h4⟩ | ⟨i, m, _, hc⟩
  · refine .inl ⟨hall, ?_⟩
    unfold fsScanWith
    rw [mainPortOnly_main hp, if_neg (by simp [hv]), withCursors_of hb, e]
    rfl
  · refine .inr (.inl ⟨i, h1, h2, h3, h4, ?_⟩)
    unfold fsScanWith
    rw [mainPortOnly_main hp, if_neg (by simp [hv]), withCursors_of hb, e]
    rfl
  · have e := fsScanWith_candidate C h hc
    by_cases hl : s.used .rx - i < (s.cfg.entry m).frameLen
    · exact .inr (.inr (.inl ⟨i, m, hc, hl, by rw [e, if_pos hl]⟩))
    · rw [if_neg hl] at e
      by_cases hr : rxCrc C (s.advance .rx i) (s.cfg.entry m).frameLen ≠ 0#16
      · exact .inr (.inr (.inr (.inl ⟨i, m, hc, by omega, hr, by rw [e, if_pos hr]⟩)))
      · exact .inr (.inr (.inr (.inr ⟨i, m, hc, by omega, by simpa using hr, by rw [e, if_neg hr]⟩)))

/-- Accepting the frame at offset `i`, the bytes in front of it included. -/
theorem acceptFrame_at {s : State} {i m : Nat} (hb : s.bufOk .rx) (hm : m < s.cfg.nmsg) :
    acceptFrame m (s.advance .rx i) =
      (s.advance .rx (i + acceptedLen s.cfg (s.cfg.entry m))).setMsg m
        (acceptedMsg (s.cfg.entry m) (s.msg m) ((s.contents .rx).drop i)) := by
  rw [acceptFrame_eq (advance_bufOk hb i) (by simpa using hm), advance_contents hb]
  simp only [advance_cfg, advance_msg, state_advance_advance hb]

end Sys2Proof.Machine
end

