-- ==== Sys2Proof/Laws/Exec.lean ====
section
/-! SUPPORT. Everything each command can do when it answers a next state: one lemma per command, and the same for the
step's taking of the next command. -/

namespace Sys2Proof.Machine

/-- `t` is `s` with the answer of an invalid argument. -/
abbrev Invalid (s t : State) : Prop := t = s.respond .invalidArg 0#32 []

/-- `t` is `s` with the answer of an illegal command. -/
abbrev Illegal (s t : State) : Prop := t = s.respond .illegalCmd 0#32 []

theorem execRbPush_next {buf : BitVec 4} {byte : Byte} {s t : State} (h : exec (.rbPush buf byte) s = .next t) :
    Invalid s t ∨ ∃ b, bufOf buf = some b ∧ s.bufOk b ∧
      t = (s.setRing b (pushByte (s.cap b) (s.ring b) byte)).respond .ok 0#32 [] := by
  rcases withBuffer_next h with e | ⟨b, hb, h⟩
  · exact .inl e
  · exact .inr ⟨b, hb, (withCursors_next h).1, finish_next (withCursors_next h).2⟩

theorem execRbPop_next {buf : BitVec 4} {s t : State} (h : exec (.rbPop buf) s = .next t) :
    Invalid s t ∨ ∃ b, bufOf buf = some b ∧ s.bufOk b ∧
      t = (s.setRing b (popByte (s.cap b) (s.initial (.data b)) (s.ring b)).2).respond .ok
        (valOfByte (popByte (s.cap b) (s.initial (.data b)) (s.ring b)).1) [] := by
  rcases withBuffer_next h with e | ⟨b, hb, h⟩
  · exact .inl e
  · exact .inr ⟨b, hb, (withCursors_next h).1, finish_next (withCursors_next h).2⟩

theorem execRbPeek_next {buf : BitVec 4} {offset : Word} {s t : State} (h : exec (.rbPeek buf offset) s = .next t) :
    Invalid s t ∨ ∃ b, bufOf buf = some b ∧ s.bufOk b ∧ t = s.respond .ok (valOfByte (s.peek b offset.toNat)) [] := by
  rcases withBuffer_next h with e | ⟨b, hb, h⟩
  · exact .inl e
  · exact .inr ⟨b, hb, (withCursors_next h).1, finish_next (withCursors_next h).2⟩

theorem execRbAdv_next {buf : BitVec 4} {n : Word} {s t : State} (h : exec (.rbAdv buf n) s = .next t) :
    Invalid s t ∨ ∃ b, bufOf buf = some b ∧ s.bufOk b ∧ t = (s.advance b n.toNat).respond .ok 0#32 [] := by
  rcases withBuffer_next h with e | ⟨b, hb, h⟩
  · exact .inl e
  · exact .inr ⟨b, hb, (withCursors_next h).1, finish_next (withCursors_next h).2⟩

theorem execRbFout_next {buf : BitVec 4} {n : Word} {s t : State} (h : exec (.rbFout buf n) s = .next t) :
    Invalid s t ∨ ∃ b, bufOf buf = some b ∧
      t = (s.setRing b (flushOut (s.cap b) (s.initial (.data b)) (s.ring b) n.toNat).ring).respond .ok
        (valOfNat (flushOut (s.cap b) (s.initial (.data b)) (s.ring b) n.toNat).count)
        (flushOut (s.cap b) (s.initial (.data b)) (s.ring b) n.toNat).dest := by
  rcases withBuffer_next h with e | ⟨b, hb, h⟩
  · exact .inl e
  · exact .inr ⟨b, hb, finish_next h⟩

theorem execRbFin_next {buf : BitVec 4} {n : Word} {src : List Byte} {s t : State}
    (h : exec (.rbFin buf n src) s = .next t) :
    Invalid s t ∨ ∃ b, bufOf buf = some b ∧
      t = (s.setRing b (flushIn (s.cap b) (s.ring b) src n.toNat).ring).respond .ok
        (valOfNat (flushIn (s.cap b) (s.ring b) src n.toNat).count) [] := by
  rcases withBuffer_next h with e | ⟨b, hb, h⟩
  · exact .inl e
  · exact .inr ⟨b, hb, finish_next h⟩

theorem execRbUsed_next {buf : BitVec 4} {s t : State} (h : exec (.rbUsed buf) s = .next t) :
    Invalid s t ∨ ∃ b, bufOf buf = some b ∧ s.bufOk b ∧ t = s.respond .ok (valOfNat (s.used b)) [] := by
  rcases withBuffer_next h with e | ⟨b, hb, h⟩
  · exact .inl e
  · exact .inr ⟨b, hb, (withCursors_next h).1, finish_next (withCursors_next h).2⟩

theorem execRbReset_next {buf : BitVec 4} {s t : State} (h : exec (.rbReset buf) s = .next t) :
    Invalid s t ∨ ∃ b, bufOf buf = some b ∧ t = (s.setRing b (resetCursors (s.ring b))).respond .ok 0#32 [] := by
  rcases withBuffer_next h with e | ⟨b, hb, h⟩
  · exact .inl e
  · exact .inr ⟨b, hb, finish_next h⟩

theorem execFsScan_next {s t : State} (h : exec .fsScan s = .next t) :
    Illegal s t ∨ Invalid s t ∨ s.CanScan ∧
      ((∃ i st, (st = .noMatch ∨ st = .incomplete) ∧ i ≤ s.used .rx ∧
          t = (s.advance .rx i).respond st (scanVal i 0) []) ∨
        (∃ i m, s.Candidate i m ∧ (s.cfg.entry m).frameLen ≤ s.used .rx - i ∧
          t = (s.advance .rx (i + 1)).respond .crcMismatch (scanVal i 0) []) ∨
        (∃ i m, s.Candidate i m ∧ (s.cfg.entry m).frameLen ≤ s.used .rx - i ∧
          t = (acceptFrame m (s.advance .rx i)).respond .ok (scanVal i m) [])) := by
  by_cases hs : s.CanScan
  · refine .inr (.inr ⟨hs, ?_⟩)
    have h' : fsScanWith Config.crc s = .next t := h
    rcases fsScanWith_cases Config.crc hs with ⟨_, e⟩ | ⟨i, hi, _, _, _, e⟩ | ⟨i, m, hc, _, e⟩ | ⟨i, m, hc, hl, _, e⟩ |
        ⟨i, m, hc, hl, _, e⟩ <;> rw [e] at h'
    · exact .inl ⟨_, _, .inl rfl, le_refl _, finish_next h'⟩
    · exact .inl ⟨_, _, .inr rfl, hi.le, finish_next h'⟩
    · exact .inl ⟨_, _, .inr rfl, hc.1.le, finish_next h'⟩
    · exact .inr (.inl ⟨i, m, hc, hl, finish_next h'⟩)
    · exact .inr (.inr ⟨i, m, hc, hl, finish_next h'⟩)
  · rcases mainPortOnly_next h with e | ⟨hp, h⟩
    · exact .inl e
    · split at h
      · rw [raiseInvalidArgument_eq] at h; cases h; exact .inr (.inl rfl)
      · exact absurd ⟨hp, by simp_all, (withCursors_next h).1⟩ hs

theorem execCvCrc_next {n : Word} {s t : State} (h : exec (.cvCrc n) s = .next t) :
    Illegal s t ∨ Invalid s t ∨ s.port = .M ∧ n.toNat ≤ s.cap .rx ∧ s.bufOk .rx ∧
      t = s.respond .ok ((rxCrc Config.crc s n.toNat).setWidth 32) [] := by
  rcases mainPortOnly_next h with e | ⟨hp, h⟩
  · exact .inl e
  · split at h
    · rw [raiseInvalidArgument_eq] at h; cases h; exact .inr (.inl rfl)
    · exact .inr (.inr ⟨hp, by omega, (withCursors_next h).1, finish_next (withCursors_next h).2⟩)

theorem execPlRead_next {k : BitVec 8} {off : Word} {s t : State} (h : exec (.plRead k off) s = .next t) :
    Illegal s t ∨ Invalid s t ∨ s.port = .M ∧ k.toNat < s.cfg.nmsg ∧ off.toNat < s.cfg.payloadMax ∧
      t = s.respond .ok
        ((valOfByte (s.msg k.toNat).payloadLen <<< 8) ||| valOfByte (s.payloadByte k.toNat off.toNat)) [] := by
  rcases mainPortOnly_next h with e | ⟨hp, h⟩
  · exact .inl e
  · rcases withMessage_next h with e | ⟨hk, h⟩
    · exact .inr (.inl e)
    · split at h
      · rw [raiseInvalidArgument_eq] at h; cases h; exact .inr (.inl rfl)
      · exact .inr (.inr ⟨hp, hk, by omega, finish_next h⟩)

theorem execTmTick_next {s t : State} (h : exec .tmTick s = .next t) :
    Illegal s t ∨ s.port = .M ∧
      ((s.cfg.catValid = false ∧ t = s.respond .ok 1#32 []) ∨
        (s.cfg.catValid = true ∧ t = s.tick.respond .ok (valOfBool s.tickFails) [])) := by
  rcases mainPortOnly_next h with e | ⟨hp, h⟩
  · exact .inl e
  · refine .inr ⟨hp, ?_⟩
    split at h
    · exact .inl ⟨by assumption, finish_next h⟩
    · exact .inr ⟨by simp_all, finish_next h⟩

theorem execTmStat_next {k : BitVec 8} {s t : State} (h : exec (.tmStat k) s = .next t) :
    Illegal s t ∨ Invalid s t ∨ s.port = .M ∧ k.toNat < s.cfg.nmsg ∧
      t = s.respond .ok (valOfBool (s.msg k.toNat).busFailed) [] := by
  rcases mainPortOnly_next h with e | ⟨hp, h⟩
  · exact .inl e
  · rcases withMessage_next h with e | ⟨hk, h⟩
    · exact .inr (.inl e)
    · exact .inr (.inr ⟨hp, hk, finish_next h⟩)

theorem execTmElapsed_next {k : BitVec 8} {s t : State} (h : exec (.tmElapsed k) s = .next t) :
    Illegal s t ∨ Invalid s t ∨ s.port = .M ∧ k.toNat < s.cfg.nmsg ∧
      t = s.respond .ok (valOfNat (s.msg k.toNat).elapsed) [] := by
  rcases mainPortOnly_next h with e | ⟨hp, h⟩
  · exact .inl e
  · rcases withMessage_next h with e | ⟨hk, h⟩
    · exact .inr (.inl e)
    · exact .inr (.inr ⟨hp, hk, finish_next h⟩)

theorem execFbBuild_next {sdi : BitVec 4} {k : BitVec 8} {wnull : Bool} {nw : BitVec 8} {nbf : Word}
    {words : List Word} {s t : State} (h : exec (.fbBuild sdi k wnull nw nbf words) s = .next t) :
    Illegal s t ∨ Invalid s t ∨ s.port = .M ∧ s.cfg.hasBuilder = true ∧ BuildArgsOk s sdi k wnull nw nbf ∧
      (∀ w ∈ words, w.getLsbD 31 = false) ∧ s.bufOk .tx ∧ ∃ src : List Byte, src.length = nbf.toNat ∧
        t = ({ s.setRing .tx (flushIn (s.cap .tx) s.tx src nbf.toNat).ring with builds := s.builds + 1 }).respond .ok
          (valOfNat (flushIn (s.cap .tx) s.tx src nbf.toNat).count) [] := by
  have h' : fbBuildWith Config.crc sdi k wnull nw nbf words s = .next t := h
  rcases fbBuildWith_cases Config.crc sdi k wnull nw nbf words s with ⟨_, e⟩ | ⟨_, _, _, e⟩ | ⟨_, _, _, _, e⟩ |
      ⟨_, _, _, _, _, e⟩ | ⟨hp, hh, ha, hw, hb⟩
  · rw [e] at h'; cases h'; exact .inl rfl
  · rw [e] at h'; cases h'; exact .inr (.inl rfl)
  · rw [e] at h'; cases h'
  · rw [e] at h'; cases h'
  · rw [fbBuildWith_builds Config.crc hp hh ha hw hb] at h'
    exact .inr (.inr ⟨hp, hh, ha, hw, hb, _, flushSource_length _ _ _, finish_next h'⟩)

/-! ## Taking the next command -/

/-- Everything the block can find on its inputs, and what taking it changes. -/
theorem take_cases (s : State) :
    take s = .idle ∨
    (∃ rest, take s = .reset { s.assertReset with pending := rest }) ∨
    ∃ c p rest a, take s = .command c { s with port := p, pending := rest, arbiter := a } := by
  unfold take
  split
  · exact .inl rfl
  · exact .inr (.inl ⟨_, rfl⟩)
  · exact .inr (.inr ⟨_, _, _, _, rfl⟩)
  · exact .inr (.inr ⟨_, _, _, _, rfl⟩)
  · split
    · exact .inr (.inr ⟨_, _, _, _, rfl⟩)
    · exact .inr (.inr ⟨_, _, _, _, rfl⟩)

/-- Everything a step can do when it answers a next state. -/
theorem step_next {s t : State} (h : step s = .next t) :
    t = s ∨
    (∃ rest, t = { s.assertReset with pending := rest }) ∨
    ∃ c p rest a, take s = .command c { s with port := p, pending := rest, arbiter := a } ∧
      ((decode c = none ∧ Illegal { s with port := p, pending := rest, arbiter := a } t) ∨
        ∃ i, decode c = some i ∧ exec i { s with port := p, pending := rest, arbiter := a } = .next t) := by
  rcases take_cases s with e | ⟨rest, e⟩ | ⟨c, p, rest, a, e⟩ <;> simp only [step, e] at h
  · cases h; exact .inl rfl
  · cases h; exact .inr (.inl ⟨rest, rfl⟩)
  · refine .inr (.inr ⟨c, p, rest, a, e, ?_⟩)
    split at h
    · rename_i hd
      rw [raiseIllegalCommand_eq] at h; cases h
      exact .inl ⟨hd, rfl⟩
    · rename_i i hd
      exact .inr ⟨i, hd, h⟩

end Sys2Proof.Machine
end

