-- ==== Sys2Proof/Laws/PerInstr.lean ====
section
/-! SUPPORT. The family EncodedOpcode: the `OPC` field of a command's encoding is the command's opcode of
30_encoding.md rule R80, whatever its operands. One lemma per command. -/

namespace Sys2Proof.Laws.EncodedOpcode

/-- The word a command encodes to carries the command's opcode. -/
def Statement (i : Instr) : Prop := (encode i).word.extractLsb' 56 8 = i.opcode

theorem of_fields (i : Instr) (h : (encodeFields i).opc = i.opcode) : Statement i :=
  (congrArg Fields.opc (encode_fields i)).trans h

theorem rbPush (buf : BitVec 4) (byte : Byte) :
    Statement (.rbPush buf byte) := of_fields _ rfl

theorem rbPop (buf : BitVec 4) :
    Statement (.rbPop buf) := of_fields _ rfl

theorem rbPeek (buf : BitVec 4) (offset : Word) :
    Statement (.rbPeek buf offset) := of_fields _ rfl

theorem rbAdv (buf : BitVec 4) (n : Word) :
    Statement (.rbAdv buf n) := of_fields _ rfl

theorem rbFout (buf : BitVec 4) (n : Word) :
    Statement (.rbFout buf n) := of_fields _ rfl

theorem rbFin (buf : BitVec 4) (n : Word) (src : List Byte) :
    Statement (.rbFin buf n src) := of_fields _ rfl

theorem rbUsed (buf : BitVec 4) :
    Statement (.rbUsed buf) := of_fields _ rfl

theorem rbReset (buf : BitVec 4) :
    Statement (.rbReset buf) := of_fields _ rfl

theorem fsScan :
    Statement (.fsScan) := of_fields _ rfl

theorem cvCrc (n : Word) :
    Statement (.cvCrc n) := of_fields _ rfl

theorem plRead (k : BitVec 8) (off : Word) :
    Statement (.plRead k off) := of_fields _ rfl

theorem tmTick :
    Statement (.tmTick) := of_fields _ rfl

theorem tmStat (k : BitVec 8) :
    Statement (.tmStat k) := of_fields _ rfl

theorem tmElapsed (k : BitVec 8) :
    Statement (.tmElapsed k) := of_fields _ rfl

theorem fbBuild (sdi : BitVec 4) (k : BitVec 8) (wnull : Bool) (nw : BitVec 8) (nbf : Word) (words : List Word) :
    Statement (.fbBuild sdi k wnull nw nbf words) := of_fields _ rfl

end Sys2Proof.Laws.EncodedOpcode
end

