-- ==== Sys2Proof/Laws/RefCrc.lean ====
section
/-! SUPPORT. The reference CRC of 95_test_vectors.md section 1.2 and its three laws: it shows that a lawful CRC
primitive that is a real checksum exists, and it replays the test vectors. No claim about the block rests on it
(93_implementation_defined.md G1). -/

namespace Sys2Proof

/-- One shift of the register, polynomial `0x1021`. -/
def refShift (r : Half) : Half := if r.getLsbD 15 then (r <<< 1) ^^^ 0x1021#16 else r <<< 1

/-- Eight shifts. -/
def refShift8 (r : Half) : Half :=
  refShift (refShift (refShift (refShift (refShift (refShift (refShift (refShift r)))))))

/-- One byte taken, most significant bit first. -/
def refByte (r : Half) (b : Byte) : Half := refShift8 (r ^^^ (b ++ 0#8))

theorem refShift8_low : ∀ b : Byte, refShift8 (0#8 ++ b) = b ++ 0#8 := by decide +kernel

theorem refShift8_zero : refShift8 0#16 = 0#16 := by decide

theorem half_split (r : Half) : highByte r ++ lowByte r = r := by
  apply BitVec.eq_of_getLsbD_eq
  intro i hi
  simp only [highByte, lowByte, BitVec.getLsbD_append, BitVec.getLsbD_extractLsb']
  split <;>
  · rw [decide_eq_true (by omega), Bool.true_and]
    congr 1
    omega

theorem append_xor_self (a b : Byte) : (a ++ b : Half) ^^^ (a ++ 0#8) = 0#8 ++ b := by
  apply BitVec.eq_of_getLsbD_eq
  intro i hi
  simp only [BitVec.getLsbD_xor, BitVec.getLsbD_append]
  split <;> simp

/-- A register followed by its own two bytes is zero. -/
theorem refByte_seal (r : Half) : refByte (refByte r (highByte r)) (lowByte r) = 0#16 := by
  have h1 : refByte r (highByte r) = lowByte r ++ 0#8 := by
    conv_lhs => rw [← half_split r]
    unfold refByte
    have hh : highByte (highByte r ++ lowByte r) = highByte r := by rw [half_split]
    rw [hh, append_xor_self, refShift8_low]
  rw [h1]
  unfold refByte
  rw [append_xor_self]
  exact refShift8_zero

/-- The reference CRC with seed `0xFFFF`. -/
def refCrc : LawfulCrc where
  fn := fun bytes s => bytes.foldl refByte s
  seed := 0xFFFF#16
  append := by intro a b s; exact List.foldl_append
  nil := by intro s; rfl
  sealing := by
    intro m
    rw [List.foldl_append]
    exact refByte_seal _

end Sys2Proof
end

