-- ==== Sys2Proof/Tests/Slice0.lean ====
section
/-! SUPPORT. Small tests: the well-formedness checks, one decoding per command, illegal words, one step per command
with results from spec/95_test_vectors.md (named VD, VR, VQ, VS, VV, VT, VF as there), and for every obligation with
hypotheses a concrete state and operands that meet them. -/

namespace Sys2Proof.Tests

open Sys2Proof.Machine

set_option maxRecDepth 20000

/-! ## Helpers -/

/-- A configuration like TC. -/
def tc (f : RawConfig → RawConfig) (h : (f testRaw).check = true := by decide) : Config := { f testRaw with ok := h }

/-- Bytes stored from index 0 on. -/
def stored (bytes : List Byte) : Memory := memWrite [] 0 bytes

/-- A buffer that holds the bytes from index 0 on. -/
def holding (bytes : List Byte) : RingBuf := { data := stored bytes, head := bytes.length, tail := 0 }

/-- The block in TC with `bytes` held in `RX`. -/
def rxHolding (bytes : List Byte) : State := { State.reset with rx := holding bytes }

/-- The block with capacities 8. -/
def cap8 : Config := tc fun c => { c with capRx := 8, capTx := 8, catalog := [], buildMaxBytes := 8, buildMaxWords := 0 }

/-- The block with capacities 8 and both buffers with the given cursors over `10 .. 17`. -/
def ring8 (tail head : Nat) : State :=
  let r : RingBuf :=
    { data := stored [0x10#8, 0x11#8, 0x12#8, 0x13#8, 0x14#8, 0x15#8, 0x16#8, 0x17#8], head := head, tail := tail }
  { State.resetWith cap8 with rx := r, tx := r }

/-- The state a meaning answers, if it does. -/
def after (r : Result) : Option State :=
  match r with
  | .next s => some s
  | .fault _ => none
  | .refused _ => none

/-- The last response: its word and output list. -/
def answer (r : Result) : Option (Word64 × List Byte) :=
  (after r).bind fun s => s.responses.getLast?.map fun x => (x.word, x.dout)

/-- The cursors `(tail, head)` of a buffer afterwards. -/
def cursors (r : Result) (b : Buf) : Option (Nat × Nat) := (after r).map fun s => ((s.ring b).tail, (s.ring b).head)

/-- The ack frame of 95_test_vectors.md section 1.3. -/
def ackFrame : List Byte := [0xEA#8, 0x51#8, 0x81#8, 0x01#8, 0x07#8, 0x20#8, 0x9D#8]

/-- Frame B of 95_test_vectors.md section 1.3. -/
def frameB : List Byte :=
  [0xEA#8, 0x61#8, 0x91#8, 0x05#8, 0x40#8, 0x00#8, 0xAB#8, 0xCD#8, 0xEF#8, 0x2D#8, 0x38#8]

/-! ## Well-formedness: each check refuses an ill-formed term -/

theorem test_wf_rbFin_short_list : Instr.wf (.rbFin 0#4 3#32 [0xAA#8, 0xBB#8]) = false := by decide
theorem test_wf_fbBuild_empty_list : Instr.wf (.fbBuild 0#4 2#8 false 1#8 11#32 []) = false := by decide
theorem test_wf_fbBuild_null_with_list : Instr.wf (.fbBuild 0#4 2#8 true 1#8 11#32 [0#32]) = false := by decide
theorem test_wf_fbBuild_list : Instr.wf (.fbBuild 3#4 2#8 false 1#8 11#32 [0#32]) = true := by decide
theorem test_config_tc : testRaw.check = true := by decide
theorem test_config_cap_rx_low : ({ testRaw with capRx := 1 } : RawConfig).check = false := by decide
theorem test_config_cap_rx_high : ({ testRaw with capRx := 65537, cursorWidth := 17 } : RawConfig).check = false := by decide
theorem test_config_cap_tx_low : ({ testRaw with capTx := 1, buildMaxBytes := 1, buildMaxWords := 0 } : RawConfig).check = false := by decide
theorem test_config_cap_tx_high : ({ testRaw with capTx := 65537, cursorWidth := 17 } : RawConfig).check = false := by decide
theorem test_config_cursor_width : ({ testRaw with cursorWidth := 4 } : RawConfig).check = false := by decide
theorem test_config_cursor_width_tx : ({ testRaw with cursorWidth := 5, capTx := 33 } : RawConfig).check = false := by decide
theorem test_config_nmsg : ({ testRaw with catalog := List.replicate 257 (testRaw.catalog.getD 1 CatEntry.blank) } : RawConfig).check = false := by decide
theorem test_config_tick_width_low : ({ testRaw with tickWidth := 0, catalog := [] } : RawConfig).check = false := by decide
theorem test_config_tick_width_high : ({ testRaw with tickWidth := 33 } : RawConfig).check = false := by decide
theorem test_config_payload_max : ({ testRaw with payloadMax := 253 } : RawConfig).check = false := by decide
theorem test_config_build_bytes : ({ testRaw with buildMaxBytes := 33 } : RawConfig).check = false := by decide
theorem test_config_build_words : ({ testRaw with buildMaxWords := 7 } : RawConfig).check = false := by decide
theorem test_config_build_words_255 : ({ testRaw with capTx := 2048, buildMaxBytes := 2048, buildMaxWords := 256 } : RawConfig).check = false := by decide
theorem test_config_small_builder : ({ testRaw with buildMaxBytes := 6, buildMaxWords := 0 } : RawConfig).check = true := by decide

/-- W1: `length >= 1`. -/
theorem test_config_entry_length_zero : testRaw.entryOk { CatEntry.blank with length := 0 } = false := by decide
/-- W2: a frame of the entry fits `RX`: `26 + 6 > 31`. -/
theorem test_config_entry_too_long : testRaw.entryOk { CatEntry.blank with length := 26 } = false := by decide
theorem test_config_entry_longest : testRaw.entryOk { CatEntry.blank with length := 25 } = true := by decide
/-- W3: the payload fits the payload store. -/
theorem test_config_entry_payload : ({ testRaw with capRx := 400, payloadMax := 9 } : RawConfig).entryOk
    { CatEntry.blank with length := 11 } = false := by decide
theorem test_config_entry_ticks : ({ testRaw with tickWidth := 2 } : RawConfig).entryOk
    { CatEntry.blank with length := 1, maxTicks := 4 } = false := by decide

/-! ## Decoding: words written out from 30_encoding.md rules R80 to R82 -/

/-- Five fields side by side, `OPC SEL IDX AUX OPD`. -/
theorem test_decode_rbPush : decode ⟨0b00010000_0001_00000000_000000000000_00000000000000000000000011000000#64, ⟨[], []⟩⟩ =
    some (.rbPush 1#4 0xC0#8) := by decide
theorem test_decode_rbPop : decode ⟨0b00010001_0001_00000000_000000000000_00000000000000000000000000000000#64, ⟨[], []⟩⟩ =
    some (.rbPop 1#4) := by decide
theorem test_decode_rbPeek : decode ⟨0b00010010_0000_00000000_000000000000_10000000000000000000000000000011#64, ⟨[], []⟩⟩ =
    some (.rbPeek 0#4 0x80000003#32) := by decide
theorem test_decode_rbAdv : decode ⟨0x13000000FFFFFFFF#64, ⟨[], []⟩⟩ = some (Instr.rbDrain 0#4) := by decide
theorem test_decode_rbFout : decode ⟨0x141000000000001B#64, ⟨[], []⟩⟩ = some (.rbFout 1#4 27#32) := by decide
theorem test_decode_rbFin : decode ⟨0x15F0000000000002#64, ⟨[7#8, 9#8], []⟩⟩ = some (.rbFin 15#4 2#32 [7#8, 9#8]) := by
  decide
theorem test_decode_rbUsed : decode ⟨0x1610000000000000#64, ⟨[], []⟩⟩ = some (.rbUsed 1#4) := by decide
theorem test_decode_rbReset : decode ⟨0x1700000000000000#64, ⟨[], []⟩⟩ = some (.rbReset 0#4) := by decide
theorem test_decode_fsScan : decode ⟨0x2000000000000000#64, ⟨[], []⟩⟩ = some .fsScan := by decide
theorem test_decode_cvCrc : decode ⟨0x210000000000000B#64, ⟨[], []⟩⟩ = some (.cvCrc 11#32) := by decide
theorem test_decode_plRead : decode ⟨0x2200200000000003#64, ⟨[], []⟩⟩ = some (.plRead 2#8 3#32) := by decide
theorem test_decode_tmTick : decode ⟨0x3000000000000000#64, ⟨[], []⟩⟩ = some .tmTick := by decide
theorem test_decode_tmStat : decode ⟨0x310FF00000000000#64, ⟨[], []⟩⟩ = some (.tmStat 255#8) := by decide
theorem test_decode_tmElapsed : decode ⟨0x3200200000000000#64, ⟨[], []⟩⟩ = some (.tmElapsed 2#8) := by decide
/-- `OPC = 0x40`, `SEL = 3`, `IDX = 2`, `AUX = 000 0 00000001`, `OPD = 11` (VD9). -/
theorem test_decode_fbBuild : decode ⟨0b01000000_0011_00000010_000000000001_00000000000000000000000000001011#64, ⟨[], [0#32]⟩⟩ =
    some (.fbBuild 3#4 2#8 false 1#8 11#32 [0#32]) := by decide
/-- VD10: `AUX = 0x100`, the null word list. -/
theorem test_decode_fbBuild_null : decode ⟨0x4000110000000007#64, ⟨[], []⟩⟩ =
    some (.fbBuild 0#4 1#8 true 0#8 7#32 []) := by decide

/-- VD20, VD21, VD22: opcodes that are not assigned. -/
theorem test_illegal_opcodes : decode ⟨0x0000000000000000#64, ⟨[], []⟩⟩ = none ∧
    decode ⟨0x1800000000000000#64, ⟨[], []⟩⟩ = none ∧ decode ⟨0xFF00000000000000#64, ⟨[], []⟩⟩ = none := by decide
/-- VD23 to VD30, VD38: fields that must be zero. -/
theorem test_illegal_fields : decode ⟨0x10000000000001EA#64, ⟨[], []⟩⟩ = none ∧
    decode ⟨0x1100100000000000#64, ⟨[], []⟩⟩ = none ∧ decode ⟨0x1610000000000001#64, ⟨[], []⟩⟩ = none ∧
    decode ⟨0x2000000000000001#64, ⟨[], []⟩⟩ = none ∧ decode ⟨0x2110000000000005#64, ⟨[], []⟩⟩ = none ∧
    decode ⟨0x3100100000000001#64, ⟨[], []⟩⟩ = none ∧ decode ⟨0x3000000100000000#64, ⟨[], []⟩⟩ = none ∧
    decode ⟨0x4000120000000007#64, ⟨[], []⟩⟩ = none ∧ decode ⟨0x10F0000000000155#64, ⟨[], []⟩⟩ = none := by decide
/-- VD31, VD32, VD33: input lists of the wrong length. -/
theorem test_illegal_lists : decode ⟨0x1500000000000003#64, ⟨[0xAA#8, 0xBB#8], []⟩⟩ = none ∧
    decode ⟨0x400020010000000B#64, ⟨[], []⟩⟩ = none ∧ decode ⟨0x1000000000000055#64, ⟨[0x55#8], []⟩⟩ = none := by decide

/-! ## One step per command -/

/-- VR1 to VR2: with `(0, 7)` of 8 the buffer is full and the byte is dropped. -/
theorem test_rbPush_full : cursors (exec (.rbPush 1#4 0x17#8) (ring8 0 7)) .tx = some (0, 7) ∧
    answer (exec (.rbPush 1#4 0x17#8) (ring8 0 7)) = some (0#64, []) := by decide
/-- VR4: stored at index 7, the head wraps to 0. -/
theorem test_rbPush_wrap : cursors (exec (.rbPush 1#4 0x99#8) (ring8 1 7)) .tx = some (1, 0) ∧
    (after (exec (.rbPush 1#4 0x99#8) (ring8 1 7))).map (fun s => Memory.read s.tx.data 7) = some (some 0x99#8) := by
  decide
/-- VR3. -/
theorem test_rbPop : cursors (exec (.rbPop 0#4) (ring8 0 7)) .rx = some (1, 7) ∧
    answer (exec (.rbPop 0#4) (ring8 0 7)) = some (0x10#64, []) := by decide
/-- VR18: empty, the sentinel. -/
theorem test_rbPop_empty : cursors (exec (.rbPop 0#4) (ring8 3 3)) .rx = some (3, 3) ∧
    answer (exec (.rbPop 0#4) (ring8 3 3)) = some (0#64, []) := by decide
/-- VR6, offset 6 behind tail 1. -/
theorem test_rbPeek : answer (exec (.rbPeek 0#4 6#32) (ring8 1 0)) = some (0x17#64, []) := by decide
/-- VR9: `(1 + 0xFFFFFFFF) mod 8 = 0`. -/
theorem test_rbPeek_huge : answer (exec (.rbPeek 0#4 0xFFFFFFFF#32) (ring8 1 0)) = some (0x10#64, []) := by decide
/-- VR12. -/
theorem test_rbAdv : cursors (exec (.rbAdv 0#4 2#32) (ring8 4 3)) .rx = some (6, 3) := by decide
/-- VR20: an over-large count. -/
theorem test_rbAdv_drain : cursors (exec (Instr.rbDrain 0#4) (ring8 3 4)) .rx = some (4, 4) := by decide
/-- VR10. -/
theorem test_rbFout : cursors (exec (.rbFout 0#4 3#32) (ring8 1 0)) .rx = some (4, 0) ∧
    answer (exec (.rbFout 0#4 3#32) (ring8 1 0)) = some (3#64, [0x11#8, 0x12#8, 0x13#8]) := by decide
/-- The defensive check of rule R125: cursors `(9, 3)`, and the guard `n > CAP` before it. -/
theorem test_rbFout_corrupted : cursors (exec (.rbFout 0#4 2#32) (ring8 9 3)) .rx = some (0, 0) ∧
    cursors (exec (.rbFout 0#4 9#32) (ring8 9 3)) .rx = some (9, 3) := by decide
/-- VR11: `Free = 3`, two bytes dropped. -/
theorem test_rbFin : cursors (exec (.rbFin 0#4 5#32 [0xA1#8, 0xA2#8, 0xA3#8, 0xA4#8, 0xA5#8]) (ring8 4 0)) .rx = some (4, 3) ∧
    answer (exec (.rbFin 0#4 5#32 [0xA1#8, 0xA2#8, 0xA3#8, 0xA4#8, 0xA5#8]) (ring8 4 0)) = some (3#64, []) ∧
    (after (exec (.rbFin 0#4 5#32 [0xA1#8, 0xA2#8, 0xA3#8, 0xA4#8, 0xA5#8]) (ring8 4 0))).map
      (fun s => (List.range 4).map fun p => Memory.read s.rx.data p) =
      some [some 0xA1#8, some 0xA2#8, some 0xA3#8, some 0x13#8] := by decide
/-- VR15: `n > CAP` fails closed. -/
theorem test_rbFin_oversized : cursors (exec (.rbFin 0#4 9#32 (List.replicate 9 1#8)) (ring8 6 3)) .rx = some (6, 3) ∧
    answer (exec (.rbFin 0#4 9#32 (List.replicate 9 1#8)) (ring8 6 3)) = some (0#64, []) := by decide
/-- E8b: `(6, 2) -> 8 - 4 = 4`. -/
theorem test_rbUsed : answer (exec (.rbUsed 0#4) (ring8 6 2)) = some (4#64, []) := by decide
/-- VD41: `BUF = 15`. -/
theorem test_rbUsed_bad_buffer : answer (exec (.rbUsed 15#4) (ring8 6 2)) = some (0x0400000000000000#64, []) := by
  decide
/-- VR22: the storage stays. -/
theorem test_rbReset : cursors (exec (.rbReset 1#4) (ring8 4 6)) .tx = some (0, 0) ∧
    (after (exec (.rbReset 1#4) (ring8 4 6))).map (fun s => s.tx.data.length) = some 8 := by decide

/-- VS7: a false preamble passed over, the ack accepted, discard count 3, entry 1. -/
theorem test_fsScan_accepts :
    answer (fsScanWith refCrc (rxHolding ([0xEA#8, 0x99#8, 0x99#8] ++ ackFrame))) = some (0x00030001#64, []) ∧
    cursors (fsScanWith refCrc (rxHolding ([0xEA#8, 0x99#8, 0x99#8] ++ ackFrame))) .rx = some (10, 10) := by decide
/-- VS10: a corrupted payload byte, one garbage byte and exactly one byte more dropped. -/
theorem test_fsScan_rejects :
    answer (fsScanWith refCrc (rxHolding ([0x77#8] ++ frameB.set 7 0xCC#8))) = some (0x0300000000010000#64, []) ∧
    cursors (fsScanWith refCrc (rxHolding ([0x77#8] ++ frameB.set 7 0xCC#8))) .rx = some (2, 12) := by decide
/-- Section 3.4, split positions: frame B, the first 9 bytes. -/
theorem test_cvCrc : answer (cvCrcWith refCrc 9#32 (rxHolding frameB)) = some (0x2D38#64, []) := by decide
/-- VC1. -/
theorem test_refCrc : refCrc.fn [0x31#8, 0x32#8, 0x33#8, 0x34#8, 0x35#8, 0x36#8, 0x37#8, 0x38#8, 0x39#8] 0xFFFF#16 =
    0x29B1#16 := by decide
/-- The payload of frame B after VS11: `payloadLen[2] = 4`, third byte `CD`. -/
theorem test_plRead : ((after (fsScanWith refCrc (rxHolding frameB))).map fun s => answer (exec (.plRead 2#8 2#32) s)) =
    some (some (0x04CD#64, [])) := by decide
/-- VD45: `off = 254`. -/
theorem test_plRead_bad_offset : answer (exec (.plRead 0#8 254#32) State.reset) = some (0x0400000000000000#64, []) := by
  decide
/-- VT1 step 1. -/
theorem test_tmTick_first : answer (exec .tmTick State.reset) = some (0#64, []) ∧
    (after (exec .tmTick State.reset)).map (fun s => s.msgs.map fun m => (m.elapsed, m.busFailed)) =
      some [(1, false), (1, false), (1, false)] := by decide
/-- VT1 step 5: all three silent. -/
theorem test_tmTick_fails :
    (after (exec .tmTick { State.reset with msgs := List.replicate 3 { MsgState.reset with elapsed := 4, busFailed := false } })).map
      (fun s => s.msgs.map fun m => (m.elapsed, m.busFailed)) = some [(5, true), (5, true), (5, true)] := by decide
/-- VT7, and VD43. -/
theorem test_tmStat : answer (exec (.tmStat 2#8) State.reset) = some (1#64, []) ∧
    answer (exec (.tmStat 3#8) State.reset) = some (0x0400000000000000#64, []) := by decide
/-- VT7, after VT1 step 11. -/
theorem test_tmElapsed :
    answer (exec (.tmElapsed 0#8) { State.reset with msgs := List.replicate 3 { MsgState.reset with elapsed := 10 } }) =
      some (0x0A#64, []) := by decide
/-- VF2c: frame B. -/
theorem test_fbBuild : answer (fbBuildWith refCrc 0#4 2#8 false 1#8 11#32 [0x00ABCDEF#32] State.reset) = some (11#64, []) ∧
    (after (fbBuildWith refCrc 0#4 2#8 false 1#8 11#32 [0x00ABCDEF#32] State.reset)).map
      (fun s => (List.range 11).map fun p => Memory.read s.tx.data p) = some (frameB.map some) := by decide
/-- VF2e and VF2d: the parity stamp, and the right pair. -/
theorem test_fbBuild_right : (after (fbBuildWith refCrc 3#4 2#8 false 1#8 11#32 [0#32] State.reset)).map
    (fun s => (List.range 11).map fun p => Memory.read s.tx.data p) =
    some ([0xEA#8, 0x62#8, 0x92#8, 0x05#8, 0x40#8, 0x80#8, 0x00#8, 0x00#8, 0x00#8, 0xC1#8, 0x53#8].map some) := by
  decide

/-! ## The step -/

/-- A table word runs as the first command after reset: `RB.PUSH RX, 0xEA`. -/
theorem test_step_fetch : (after (step (State.reset.withFetchWord 64 0x10000000000000EA))).map
    (fun s => (s.rx.head, Memory.read s.rx.data 0)) = some (1, some 0xEA#8) := by decide
/-- VD34: `FS.SCAN` on the T port. -/
theorem test_step_transport_scan :
    answer (step { State.reset with pending := [.transport ⟨0x2000000000000000#64, ⟨[], []⟩⟩] }) =
      some (0x0500000000000000#64, []) := by decide
theorem test_decodeTableWord : decodeTableWord 64 0x150000000000000B =
    some (.rbFin 0#4 11#32 (List.replicate 11 0#8)) := by decide

/-! ## The line syntax -/

/-- VF2d, with a comment, and a word that is not hexadecimal. -/
theorem test_assemble_build :
    assemble ("FB.BUILD 3, 2, 11, ".toList ++ [openBrace] ++ "00ABCDEF".toList ++ [closeBrace] ++ " ; B-R".toList) =
      some [.fbBuild 3#4 2#8 false 1#8 11#32 [0x00ABCDEF#32]] ∧
    assemble ("FB.BUILD 3, 2, 11, ".toList ++ [openBrace] ++ "00ABCDEG".toList ++ [closeBrace]) = none ∧
    assemble "FB.BUILD 0, 1, 7, null, 2".toList = some [.fbBuild 0#4 1#8 true 2#8 7#32 []] := by decide
/-- VR10. -/
theorem test_lines : lineOf (.rbFin 1#4 2#32 [0x01#8, 0xA2#8]) = "RB.FIN TX, [01 A2]" ∧
    responseText .ok 3#32 (some [0x11#8, 0x12#8, 0x13#8]) = "-> ST_OK, 0x00000003, [11 12 13]" := by decide

/-! ## Witnesses: concrete states and operands that meet the hypotheses of each obligation

Boundary values of ranges are among them. -/

/-- A frame of entry 1 sealed with the block's own CRC. -/
def ownAck : List Byte := sealed Config.crc [0xEA#8, 0x51#8, 0x81#8, 0x01#8, 0x07#8]

/-- The scenario frame with payload `01 .. 14`, sealed with the block's own CRC. -/
def ownScenario : List Byte :=
  sealed Config.crc ([0xEA#8, 0x51#8, 0x81#8, 0x15#8, 0x32#8] ++ (List.range 20).map fun j => BitVec.ofNat 8 (j + 1))

/-- The block with `c` arriving on the M port. -/
def presenting (c : Command) : State := State.reset.present c

/-- The word of `FB.BUILD 0, 2, 11` with one input word whose bit 31 is set. -/
def badBuild : Command := ⟨0x400020010000000B#64, ⟨[], [0x80000000#32]⟩⟩

theorem test_witness_DecodeOfEncode : Instr.wf (.rbFin 1#4 2#32 [1#8, 2#8]) = true ∧
    Instr.wf (.fbBuild 15#4 255#8 true 255#8 0xFFFFFFFF#32 []) = true := by decide
theorem test_witness_EncodeOfDecode : decode ⟨0x4000110000000007#64, ⟨[], []⟩⟩ =
    some (.fbBuild 0#4 1#8 true 0#8 7#32 []) := by decide
theorem test_witness_StepRuns_decoded : (presenting ⟨0x2000000000000000#64, ⟨[], []⟩⟩).pending =
    .main ⟨0x2000000000000000#64, ⟨[], []⟩⟩ :: [] ∧ decode ⟨0x2000000000000000#64, ⟨[], []⟩⟩ = some .fsScan := by decide
theorem test_witness_StepRuns_illegal : (presenting ⟨0x1800000000000000#64, ⟨[], []⟩⟩).pending =
    .main ⟨0x1800000000000000#64, ⟨[], []⟩⟩ :: [] ∧ decode ⟨0x1800000000000000#64, ⟨[], []⟩⟩ = none := by decide
theorem test_witness_Simultaneous : ({ State.reset with pending := [.both badBuild badBuild] } : State).pending =
    .both badBuild badBuild :: [] := by decide
theorem test_witness_Idle : State.reset.pending = [] := by decide
theorem test_witness_Reset : 2 < Config.test.nmsg ∧
    ({ rxHolding frameB with pending := [.reset] } : State).pending = .reset :: [] := by decide
theorem test_witness_Invariant : (rxHolding frameB).Inv ∧ step (rxHolding frameB) = .next (rxHolding frameB) :=
  ⟨by decide, rfl⟩
theorem test_witness_Invariant_command : ({ rxHolding frameB with pending := [.main ⟨0x1100000000000000#64, ⟨[], []⟩⟩] } : State).Inv ∧
    (after (step { rxHolding frameB with pending := [.main ⟨0x1100000000000000#64, ⟨[], []⟩⟩] })).isSome = true := by decide
theorem test_witness_OnlyASetParityBit : (presenting badBuild).Inv ∧ step (presenting badBuild) = .refused .parityBitSet :=
  ⟨by decide, rfl⟩
theorem test_witness_ConfigurationNeverChanges : ∃ t, step (presenting ⟨0x3000000000000000#64, ⟨[], []⟩⟩) = .next t := ⟨_, rfl⟩
theorem test_witness_MessageStateWriters_scan : Instr.fsScan ≠ .tmTick ∧ ∃ t, exec .fsScan State.reset = .next t :=
  ⟨by decide, _, rfl⟩
theorem test_witness_CursorWriters : (ring8 7 0).bufOk .tx ∧ ∃ t, exec (.rbPush 1#4 0x55#8) (ring8 7 0) = .next t :=
  ⟨by decide, _, rfl⟩
theorem test_witness_EveryCommandReturnsOneResponse : ∃ t, exec (.rbFout 0#4 8#32) (ring8 6 3) = .next t := ⟨_, rfl⟩
theorem test_witness_ReadOuts : ∃ t, exec (.tmElapsed 2#8) State.reset = .next t := ⟨_, rfl⟩
theorem test_witness_TransportPort :
    ({ State.reset with pending := [.transport ⟨0x3000000000000000#64, ⟨[], []⟩⟩] } : State).pending =
      .transport ⟨0x3000000000000000#64, ⟨[], []⟩⟩ :: [] ∧
    ∃ t, step { State.reset with pending := [.transport ⟨0x3000000000000000#64, ⟨[], []⟩⟩] } = .next t :=
  ⟨by decide, _, rfl⟩
theorem test_witness_CommandsWithoutTheRight : ({ State.reset with port := .T } : State).port = .T ∧
    (State.resetWith (tc fun c => { c with hasBuilder := false })).cfg.hasBuilder = false := by decide
theorem test_witness_BadBuffer : 1 < (2#4).toNat ∧ 1 < (15#4).toNat := by decide
theorem test_witness_RingCommands : bufOf 0#4 = some .rx ∧ bufOf 1#4 = some .tx ∧ (ring8 0 7).bufOk .rx ∧
    (ring8 7 0).bufOk .tx := by decide
theorem test_witness_RbPush_full : ((ring8 0 7).ring .rx).tail = (((ring8 0 7).ring .rx).head + 1) % (ring8 0 7).cap .rx := by
  decide
theorem test_witness_RbPush_room : ((ring8 0 6).ring .rx).tail ≠ (((ring8 0 6).ring .rx).head + 1) % (ring8 0 6).cap .rx := by
  decide
theorem test_witness_RbPop : ((ring8 3 3).ring .rx).head = ((ring8 3 3).ring .rx).tail ∧
    ((ring8 7 0).ring .rx).head ≠ ((ring8 7 0).ring .rx).tail := by decide
theorem test_witness_RbPeek : ((ring8 7 2).contents .rx)[(2#32).toNat]? = some 0x11#8 := by decide
theorem test_witness_RbAdv : (ring8 6 2).used .rx ≤ (4#32).toNat := by decide
theorem test_witness_RbFout : (ring8 6 2).cap .rx < (9#32).toNat ∧ (8#32).toNat ≤ (ring8 6 2).cap .rx := by decide
theorem test_witness_RbFin : [1#8, 2#8].length = (2#32).toNat ∧ (2#32).toNat ≤ (ring8 6 2).cap .rx ∧
    (List.replicate 9 0#8).length = (9#32).toNat ∧ (ring8 6 2).cap .rx < (9#32).toNat := by decide
theorem test_witness_RbUsed : ((ring8 6 2).ring .rx).head < ((ring8 6 2).ring .rx).tail ∧
    ((ring8 2 2).ring .rx).tail ≤ ((ring8 2 2).ring .rx).head := by decide
theorem test_witness_Corrupted : ¬ (ring8 8 3).bufOk .rx ∧ ¬ (ring8 3 8).bufOk .tx ∧
    (ring8 8 3).cap .rx < (9#32).toNat ∧ (8#32).toNat ≤ (ring8 8 3).cap .rx := by decide
theorem test_witness_Corrupted_scan : (ring8 8 3).port = .M ∧ (ring8 8 3).cfg.catValid = true ∧ ¬ (ring8 8 3).bufOk .rx ∧
    (8#32).toNat ≤ (ring8 8 3).cap .rx := by decide
theorem test_witness_Corrupted_build :
    ¬ ({ State.reset with tx := { RingBuf.reset with head := 32 } } : State).bufOk .tx ∧
    BuildArgsOk { State.reset with tx := { RingBuf.reset with head := 32 } } 0#4 1#8 true 0#8 7#32 := by decide
theorem test_witness_Runs : 7 < 8 ∧ 8 ≤ 8 ∧ runs 8 7 8 = ((7, 1), (0, 7)) ∧ runs 8 0 8 = ((0, 8), (0, 0)) := by decide
theorem test_witness_FifoRun : ∃ t, FifoRun 0#4 .rx (ring8 3 3) [0x55#8] [0x55#8] t :=
  ⟨_, .push 0x55#8 (by decide) rfl (.pop 0x55#8 (by decide) rfl rfl (.done _))⟩
theorem test_witness_NoRunOverfills : (ring8 0 7).bufOk .rx ∧ (ring8 0 7).bufOk .tx ∧
    (runCommands [.rbPush 0#4 1#8, .rbPop 0#4, .rbPush 0#4 2#8] (ring8 0 7)).isSome = true := by decide
theorem test_witness_CvCrc : State.reset.port = .M ∧ (rxHolding frameB).bufOk .rx ∧
    (32#32).toNat ≤ (rxHolding frameB).cap .rx ∧ (11#32).toNat ≤ (rxHolding frameB).used .rx ∧
    (rxHolding frameB).cap .rx < (33#32).toNat := by decide
theorem test_witness_PlRead : State.reset.port = .M ∧ (2#8).toNat < State.reset.cfg.nmsg ∧
    (253#32).toNat < State.reset.cfg.payloadMax ∧ State.reset.cfg.nmsg ≤ (3#8).toNat ∧
    State.reset.cfg.payloadMax ≤ (254#32).toNat := by decide
/-- VS2 and VS1. -/
theorem test_witness_ScanDiscardsAll : (rxHolding [0x00#8, 0x11#8, 0x22#8]).CanScan ∧
    (rxHolding [0x00#8, 0x11#8, 0x22#8]).used .rx = 3 ∧ (rxHolding [0x00#8, 0x11#8, 0x22#8]).PassesTo 3 ∧
    State.reset.CanScan ∧ State.reset.used .rx = 0 ∧ State.reset.PassesTo 0 :=
  ⟨by decide, by decide, by decide, by decide, by decide, by decide⟩
/-- VS3. -/
theorem test_witness_ScanShort : (rxHolding [0x00#8, 0xEA#8, 0x51#8, 0x81#8]).CanScan ∧
    1 < (rxHolding [0x00#8, 0xEA#8, 0x51#8, 0x81#8]).used .rx ∧
    (rxHolding [0x00#8, 0xEA#8, 0x51#8, 0x81#8]).PassesTo 1 ∧
    (rxHolding [0x00#8, 0xEA#8, 0x51#8, 0x81#8]).peek .rx 1 = preamble ∧
    (rxHolding [0x00#8, 0xEA#8, 0x51#8, 0x81#8]).used .rx - 1 < minFrame := by decide
/-- VS5: one byte short. -/
theorem test_witness_ScanWaits : (rxHolding (ackFrame.take 6)).CanScan ∧ (rxHolding (ackFrame.take 6)).Candidate 0 1 ∧
    (rxHolding (ackFrame.take 6)).used .rx - 0 < ((rxHolding (ackFrame.take 6)).cfg.entry 1).frameLen :=
  ⟨by decide, ⟨by decide, by decide, by decide, by decide, by decide, by decide, by decide⟩, by decide⟩
/-- VS10. -/
theorem test_witness_ScanRejects : (rxHolding ([0x77#8] ++ frameB.set 7 0xCC#8)).CanScan ∧
    (rxHolding ([0x77#8] ++ frameB.set 7 0xCC#8)).Candidate 1 2 ∧
    ((rxHolding ([0x77#8] ++ frameB.set 7 0xCC#8)).cfg.entry 2).frameLen ≤
      (rxHolding ([0x77#8] ++ frameB.set 7 0xCC#8)).used .rx - 1 ∧
    refCrc.fn ((((rxHolding ([0x77#8] ++ frameB.set 7 0xCC#8)).contents .rx).drop 1).take
      ((rxHolding ([0x77#8] ++ frameB.set 7 0xCC#8)).cfg.entry 2).frameLen) refCrc.seed ≠ 0#16 :=
  ⟨by decide, ⟨by decide, by decide, by decide, by decide, by decide, by decide, by decide⟩, by decide, by decide⟩
/-- The ack frame, sealed with the block's own CRC. -/
theorem test_witness_ScanAccepts : (rxHolding ownAck).CanScan ∧ (rxHolding ownAck).msgs.length = (rxHolding ownAck).cfg.nmsg ∧
    (rxHolding ownAck).Candidate 0 1 ∧ ((rxHolding ownAck).cfg.entry 1).frameLen ≤ (rxHolding ownAck).used .rx - 0 ∧
    Config.crc.fn ((((rxHolding ownAck).contents .rx).drop 0).take ((rxHolding ownAck).cfg.entry 1).frameLen)
      Config.crc.seed = 0#16 :=
  ⟨by decide, by decide, ⟨by decide, by decide, by decide, by decide, by decide, by decide, by decide⟩, by decide,
    Config.crc.sealing [0xEA#8, 0x51#8, 0x81#8, 0x01#8, 0x07#8]⟩
theorem test_witness_ScanWithoutACatalog : (State.resetWith (tc fun c => { c with catValid := false })).port = .M ∧
    (State.resetWith (tc fun c => { c with catValid := false })).cfg.catValid = false := by decide
theorem test_witness_ScanAlwaysCompletes : State.reset.CanScan := by decide
/-- Two bytes of garbage, the ack frame sealed with the block's own CRC, one byte behind it. -/
theorem test_witness_Resynchronises :
    (rxHolding ([0x11#8, 0x22#8] ++ ownAck ++ [0x5A#8])).CanScan ∧ 1 < Config.test.nmsg ∧
    ([] : List Byte).length = (Config.test.entry 1).payloadLen ∧
    (∀ g ∈ [0x11#8, 0x22#8], g ≠ preamble) ∧
    (∀ k < 1, ¬ ((Config.test.entry k).command = (Config.test.entry 1).command)) ∧
    (rxHolding ([0x11#8, 0x22#8] ++ ownAck ++ [0x5A#8])).contents .rx = [0x11#8, 0x22#8] ++ ownAck ++ [0x5A#8] ∧
    Config.crc.fn ownAck Config.crc.seed = 0#16 ∧
    ((Config.test.entry 1).payloadEn || Config.test.noPayloadSkips) = true :=
  ⟨by decide, by decide, by decide, by decide, by decide, rfl,
    Config.crc.sealing [0xEA#8, 0x51#8, 0x81#8, 0x01#8, 0x07#8], by decide⟩
theorem test_witness_Scenario : (rxHolding ownScenario).CanScan ∧
    (rxHolding ownScenario).msgs.length = (rxHolding ownScenario).cfg.nmsg ∧
    (Config.test.entry 0).command = 0x32#8 ∧ (Config.test.entry 0).leftSource = 0x81#8 ∧
    (Config.test.entry 0).rightSource = 0x82#8 ∧ (Config.test.entry 0).leftDestination = 0x51#8 ∧
    (Config.test.entry 0).rightDestination = 0x52#8 ∧ (Config.test.entry 0).length = 0x15#8 ∧
    ((Config.test.entry 0).payloadEn || Config.test.noPayloadSkips) = true ∧ (rxHolding ownScenario).contents .rx = ownScenario ∧
    Config.crc.fn ownScenario Config.crc.seed = 0#16 :=
  ⟨by decide, by decide, by decide, by decide, by decide, by decide, by decide, by decide, by decide, rfl,
    Config.crc.sealing _⟩
theorem test_witness_LaterBytes : (rxHolding ackFrame).CanScan ∧ (rxHolding ackFrame).Candidate 0 1 ∧
    ((rxHolding ackFrame).cfg.entry 1).frameLen ≤ (rxHolding ackFrame).used .rx - 0 ∧ 0 < (rxHolding ackFrame).free .rx ∧
    (after (exec (.rbPush 0#4 0x5A#8) (rxHolding ackFrame))).isSome = true :=
  ⟨by decide, ⟨by decide, by decide, by decide, by decide, by decide, by decide, by decide⟩, by decide, by decide, by decide⟩
theorem test_witness_Tick : State.reset.port = .M ∧ State.reset.cfg.catValid = true ∧
    State.reset.msgs.length = State.reset.cfg.nmsg := by decide
/-- Two messages, as VT6 has them. -/
theorem test_witness_OneLiveMessage :
    (State.resetWith (tc fun c => { c with catalog := c.catalog.take 2 })).cfg.nmsg = 2 ∧
    (State.resetWith (tc fun c => { c with catalog := c.catalog.take 2 })).Inv ∧
    ((State.resetWith (tc fun c => { c with catalog := c.catalog.take 2 })).msg 1).elapsed = 0 ∧
    1 < ((State.resetWith (tc fun c => { c with catalog := c.catalog.take 2 })).cfg.entry 1).maxTicks := by decide
theorem test_witness_FirstTick_clears : State.reset.AtReset ∧ State.reset.port = .M ∧ State.reset.cfg.catValid = true ∧
    ∃ k < State.reset.cfg.nmsg, 1 < (State.reset.cfg.entry k).maxTicks := by decide
/-- Every threshold 1, in the state the reset input leaves. -/
theorem test_witness_FirstTick_fails :
    let s := (State.resetWith (tc fun c => { c with catalog := c.catalog.map fun e => { e with maxTicks := 1 } })).assertReset
    s.AtReset ∧ s.port = .M ∧ s.cfg.catValid = true ∧ 0 < s.cfg.nmsg ∧ ∀ k < s.cfg.nmsg, (s.cfg.entry k).maxTicks ≤ 1 := by
  decide
theorem test_witness_MonitorReadOuts : (2#8).toNat < State.reset.cfg.nmsg ∧ State.reset.cfg.nmsg ≤ (3#8).toNat := by decide
theorem test_witness_BuildPreconditions : State.reset.cfg.hasBuilder = true ∧
    ¬ BuildArgsOk State.reset 4#4 1#8 true 0#8 7#32 ∧ ¬ BuildArgsOk State.reset 0#4 3#8 true 0#8 7#32 ∧
    ¬ BuildArgsOk State.reset 0#4 0#8 false 7#8 27#32 ∧ ¬ BuildArgsOk State.reset 0#4 0#8 false 5#8 33#32 ∧
    ¬ BuildArgsOk State.reset 0#4 0#8 true 1#8 27#32 ∧
    ¬ BuildArgsOk (State.resetWith (tc fun c => { c with catValid := false })) 0#4 1#8 true 0#8 7#32 := by decide
theorem test_witness_BuildFlushes : BuildArgsOk State.reset 3#4 2#8 false 1#8 11#32 ∧ [0x00ABCDEF#32].length = (1#8).toNat ∧
    (∀ w ∈ [0x00ABCDEF#32], w.getLsbD 31 = false) ∧ State.reset.bufOk .tx :=
  ⟨by decide, by decide, by simp, by decide⟩
theorem test_witness_BuildRefuses : BuildArgsOk State.reset 0#4 2#8 false 1#8 11#32 ∧
    ∃ w ∈ [0x80000000#32], w.getLsbD 31 = true := ⟨by decide, 0x80000000#32, by simp, by decide⟩
theorem test_witness_Stamp : (0x7FFFFFFE#32).getLsbD 31 = false ∧ stamp 0x7FFFFFFE#32 = some 0xFFFFFFFE#32 := by decide
theorem test_witness_RoundTrip : State.reset.contents .tx = [] ∧ State.reset.contents .rx = [] ∧
    BuildArgsOk State.reset 3#4 2#8 false 1#8 11#32 ∧ (11#32).toNat = 7 + 4 * (1#8).toNat ∧
    4 * (1#8).toNat = (State.reset.cfg.entry (2#8).toNat).length.toNat - 1 ∧ (11#32).toNat ≤ State.reset.cap .tx - 1 := by decide

end Sys2Proof.Tests
end

section
/-! The configuration is written by no operation, so by no command, so by no step (00_scope.md rule R11). -/

namespace Sys2Proof.Machine

@[simp] theorem movePayload_cfg (m : Nat) (s : State) : (movePayload m s).cfg = s.cfg := by
  simp only [movePayload]
  split
  · simp
  · split <;> simp

@[simp] theorem acceptFrame_cfg (m : Nat) (s : State) : (acceptFrame m s).cfg = s.cfg := by
  simp [acceptFrame, refreshCounter]

/-- No command changes the configuration: each command's next states, as its lemma of Laws/Exec.lean lists them, are
built by operations that leave it. -/
theorem exec_keeps_cfg {i : Instr} {s t : State} (h : exec i s = .next t) : t.cfg = s.cfg := by
  cases i with
  | rbPush buf byte => obtain rfl | ⟨b, -, -, rfl⟩ := execRbPush_next h <;> simp
  | rbPop buf => obtain rfl | ⟨b, -, -, rfl⟩ := execRbPop_next h <;> simp
  | rbPeek buf offset => obtain rfl | ⟨b, -, -, rfl⟩ := execRbPeek_next h <;> simp
  | rbAdv buf n => obtain rfl | ⟨b, -, -, rfl⟩ := execRbAdv_next h <;> simp
  | rbFout buf n => obtain rfl | ⟨b, -, rfl⟩ := execRbFout_next h <;> simp
  | rbFin buf n src => obtain rfl | ⟨b, -, rfl⟩ := execRbFin_next h <;> simp
  | rbUsed buf => obtain rfl | ⟨b, -, -, rfl⟩ := execRbUsed_next h <;> simp
  | rbReset buf => obtain rfl | ⟨b, -, rfl⟩ := execRbReset_next h <;> simp
  | fsScan =>
    obtain rfl | rfl | ⟨-, ⟨i, st, -, -, rfl⟩ | ⟨i, m, -, -, rfl⟩ | ⟨i, m, -, -, rfl⟩⟩ := execFsScan_next h <;> simp
  | cvCrc n => obtain rfl | rfl | ⟨-, -, -, rfl⟩ := execCvCrc_next h <;> simp
  | plRead k off => obtain rfl | rfl | ⟨-, -, -, rfl⟩ := execPlRead_next h <;> simp
  | tmTick => obtain rfl | ⟨-, ⟨-, rfl⟩ | ⟨-, rfl⟩⟩ := execTmTick_next h <;> simp
  | tmStat k => obtain rfl | rfl | ⟨-, -, rfl⟩ := execTmStat_next h <;> simp
  | tmElapsed k => obtain rfl | rfl | ⟨-, -, rfl⟩ := execTmElapsed_next h <;> simp
  | fbBuild sdi k wnull nw nbf words =>
    obtain rfl | rfl | ⟨-, -, -, -, -, src, -, rfl⟩ := execFbBuild_next h <;> simp

/-- Settles O14, by what a step can do: nothing, the reset input, an illegal word answered, or a command run from a
state that differs from the given one in the host side of the ports only. -/
theorem configurationNeverChanges : Obligations.ConfigurationNeverChanges := by
  intro s t h
  obtain rfl | ⟨rest, rfl⟩ | ⟨c, p, rest, a, -, ⟨-, rfl⟩ | ⟨i, -, hexec⟩⟩ := step_next h
  case inl => rfl
  case inr.inl => exact assertReset_cfg s
  case inr.inr.inl => exact respond_cfg _ _ _ _
  case inr.inr.inr =>
    have hcfg := exec_keeps_cfg hexec
    exact hcfg

end Sys2Proof.Machine
end

section
/-! What reset leaves in the message states, and the step that takes the reset input (10_state.md rules R41 to R44,
70_reset_and_hazards.md rule R240). -/

namespace Sys2Proof.Machine

theorem resetWith_msgs (c : Config) : (State.resetWith c).msgs = List.replicate c.nmsg MsgState.reset := rfl

/-- The entry is one the list really holds: `h` keeps the default value of `State.msg` out of it. -/
theorem msg_of_msgs_replicate {s : State} {n k : Nat} {m : MsgState} (hs : s.msgs = List.replicate n m) (h : k < n) :
    s.msg k = m := by
  rw [State.msg, hs, List.getD_replicate _ h]

theorem resetWith_msg {c : Config} {k : Nat} (h : k < c.nmsg) : (State.resetWith c).msg k = MsgState.reset :=
  msg_of_msgs_replicate (resetWith_msgs c) h

theorem assertReset_msg {s : State} {k : Nat} (h : k < s.cfg.nmsg) : s.assertReset.msg k = MsgState.reset :=
  msg_of_msgs_replicate (assertReset_msgs s) h

theorem take_of_reset {s : State} {rest : List Arrival} (h : s.pending = .reset :: rest) :
    take s = .reset { s.assertReset with pending := rest } := by
  simp only [take, h]

theorem step_of_reset {s : State} {rest : List Arrival} (h : s.pending = .reset :: rest) :
    step s = .next { s.assertReset with pending := rest } := by
  simp only [step, take_of_reset h]

/-- Settles O9: either way of reset puts the reset record, whose flag is 1, in each of the `NMSG` entries. -/
theorem resetSetsEveryBusFailedFlag : Obligations.ResetSetsEveryBusFailedFlag := by
  refine ⟨fun c k hk => ?construction, fun s rest hreset => ⟨_, step_of_reset hreset, fun k hk => ?input⟩⟩
  case construction => exact congrArg MsgState.busFailed (resetWith_msg hk)
  case input => exact congrArg MsgState.busFailed (assertReset_msg (s := s) hk)

end Sys2Proof.Machine
end

section
/-! The two shapes of `Runs` and the slots each of them names (40_ring_buffer.md rule R114). -/

namespace Sys2Proof.Machine

theorem runs_of_fits {cap start len : Nat} (h : start + len ≤ cap) : runs cap start len = ((start, len), (0, 0)) :=
  if_pos h

theorem runs_of_crosses {cap start len : Nat} (h : cap < start + len) :
    runs cap start len = ((start, cap - start), (0, len - (cap - start))) :=
  if_neg (Nat.not_le.mpr h)

/-- A range is read by reading its two runs, whichever shape they have. -/
theorem readRange_of_runs {cap start len p1 l1 p2 l2 : Nat} (fill : Nat → Byte) (m : Memory)
    (h : runs cap start len = ((p1, l1), (p2, l2))) :
    readRange cap fill m start len = memRead fill m p1 l1 ++ memRead fill m p2 l2 := by
  simp only [readRange, h]

/-- Up to the physical end no index is reduced. -/
theorem wrapped_slots_of_fits {cap start len : Nat} (hs : start < cap) (h : start + len ≤ cap) :
    (List.range len).map (fun j => (start + j) % cap) = (List.range len).map (start + ·) := by
  refine List.map_congr_left fun j hj => ?_
  have hlt : j < len := List.mem_range.mp hj
  rw [wrap_eq hs (by omega), if_pos (by omega)]

/-- From the physical end on the reduced indices count up from 0. -/
theorem wrapped_slots_past_end {cap start rest : Nat} (hs : start < cap) (hr : rest ≤ start) :
    (List.range rest).map (fun j => (start + (cap - start + j)) % cap) = (List.range rest).map (0 + ·) := by
  refine List.map_congr_left fun j hj => ?_
  have hlt : j < rest := List.mem_range.mp hj
  rw [wrap_eq hs (by omega), if_neg (by omega)]
  omega

/-- A range that crosses the physical end is its slots up to the end, then its slots from index 0. -/
theorem wrapped_slots_of_crosses {cap start len : Nat} (hs : start < cap) (hl : len ≤ cap) (h : cap < start + len) :
    (List.range len).map (fun j => (start + j) % cap) =
      (List.range (cap - start)).map (start + ·) ++ (List.range (len - (cap - start))).map (0 + ·) := by
  have hsplit : List.range len =
      List.range (cap - start) ++ (List.range (len - (cap - start))).map (cap - start + ·) := by
    rw [← List.range_add, Nat.add_sub_cancel' (by omega)]
  rw [hsplit, List.map_append, wrapped_slots_of_fits hs (by omega), List.map_map]
  exact congrArg _ (wrapped_slots_past_end hs (by omega))

/-- Settles O32: the range fits before the physical end or crosses it, and in either case its runs name its slots in
order; the bytes are those `readRange_eq` says are read. -/
theorem runsSplitARangeInOrder : Obligations.RunsSplitARangeInOrder := by
  intro cap start len hs hl
  have hbytes {p1 l1 p2 l2 : Nat} (h : runs cap start len = ((p1, l1), (p2, l2))) (fill : Nat → Byte) (m : Memory) :=
    (readRange_of_runs fill m h).symm.trans (readRange_eq fill m hs hl)
  obtain hfits | hcrosses := Nat.lt_or_ge cap (start + len) |>.symm
  · have hruns := runs_of_fits hfits
    refine ⟨_, _, _, _, hruns, by omega, by omega, by omega, rfl, rfl, by omega, by omega, ?slots, hbytes hruns⟩
    case slots => simp [wrapped_slots_of_fits hs hfits]
  · have hruns := runs_of_crosses hcrosses
    exact ⟨_, _, _, _, hruns, by omega, by omega, by omega, rfl, rfl, by omega, fun _ => rfl,
      (wrapped_slots_of_crosses hs hl hcrosses).symm, hbytes hruns⟩

end Sys2Proof.Machine
end

section
/-! The split CRC as one call over a logical range (42_crc_validator.md rules R162, R169). -/

namespace Sys2Proof.Machine

/-- The bytes of the logical range of `len` slots from `start`, each slot index reduced (40_ring_buffer.md rule
R114). -/
def rangeBytes (cap : Nat) (fill : Nat → Byte) (m : Memory) (start len : Nat) : List Byte :=
  (List.range len).map fun j => Memory.byteAt fill m ((start + j) % cap)

/-- A range read through its runs is `rangeBytes`. -/
theorem readRange_eq_rangeBytes {cap start len : Nat} (fill : Nat → Byte) (m : Memory) (hs : start < cap)
    (hl : len ≤ cap) : readRange cap fill m start len = rangeBytes cap fill m start len :=
  readRange_eq fill m hs hl

/-- A range is its first `j` bytes, then the range that starts `j` slots later. -/
theorem rangeBytes_split (cap : Nat) (fill : Nat → Byte) (m : Memory) (start : Nat) {j len : Nat} (hj : j ≤ len) :
    rangeBytes cap fill m start len =
      rangeBytes cap fill m start j ++ rangeBytes cap fill m (start + j) (len - j) := by
  have hrange : List.range len = List.range j ++ (List.range (len - j)).map (j + ·) := by
    rw [← List.range_add, Nat.add_sub_cancel' hj]
  simp only [rangeBytes, hrange, List.map_append, List.map_map, Function.comp_def, Nat.add_assoc]

/-- The accumulator is one call over the bytes of both runs: law L1 joins the two calls, and law L2 makes the call
over an empty second run nothing. -/
theorem crcOver_eq_readRange (C : LawfulCrc) (cap : Nat) (fill : Nat → Byte) (m : Memory) (t len : Nat) :
    crcOver C cap fill m t len = C.fn (readRange cap fill m t len) C.seed := by
  simp only [crcOver, readRange, C.append]
  split
  case isTrue => rfl
  case isFalse hnone =>
    have hempty : (runs cap t len).2.2 = 0 := Nat.eq_zero_of_not_pos hnone
    rw [hempty]
    exact (C.nil _).symm

theorem crcOver_eq_rangeBytes (C : LawfulCrc) {cap t len : Nat} (fill : Nat → Byte) (m : Memory) (ht : t < cap)
    (hl : len ≤ cap) : crcOver C cap fill m t len = C.fn (rangeBytes cap fill m t len) C.seed := by
  rw [crcOver_eq_readRange, readRange_eq_rangeBytes fill m ht hl]

/-- A remainder over a range continues the remainder over any front part of it. -/
theorem crcOver_continue (C : LawfulCrc) {cap t j len : Nat} (fill : Nat → Byte) (m : Memory) (ht : t < cap)
    (hl : len ≤ cap) (hj : j ≤ len) :
    crcOver C cap fill m t len = C.fn (rangeBytes cap fill m (t + j) (len - j)) (crcOver C cap fill m t j) := by
  rw [crcOver_eq_rangeBytes C fill m ht hl, crcOver_eq_rangeBytes C fill m ht (hj.trans hl),
    rangeBytes_split cap fill m t hj, C.append]

/-- Settles O35: the accumulator is one call over the range (`crcOver_eq_rangeBytes`), and law L1 splits that call at
any inner boundary (`crcOver_continue`). -/
theorem splitCrcEqualsSingleCall : Obligations.SplitCrcEqualsSingleCall := by
  intro C cap fill m t len ht hl
  exact ⟨crcOver_eq_rangeBytes C fill m ht hl, fun j hj => crcOver_continue C fill m ht hl hj⟩

end Sys2Proof.Machine
end

section
/-! The remainder of unread bytes, and what a rejected candidate leaves (42_crc_validator.md rules R162 to R164). -/

namespace Sys2Proof.Machine

/-- With at least `n` bytes held, the remainder of `n` bytes from the tail is that of the first `n` unread ones. -/
theorem rxCrc_eq_contents (C : LawfulCrc) {s : State} {n : Nat} (h : s.bufOk .rx) (hn : n ≤ s.used .rx) :
    rxCrc C s n = C.fn ((s.contents .rx).take n) C.seed := by
  obtain ⟨hhead, htail⟩ := (cursorsInRange_iff _ _).mp h
  have hread := ringContents_take (s.cap .rx) (s.initial (.data .rx)) (s.ring .rx) n hhead htail
  rw [Nat.min_eq_left (show n ≤ Machine.used (s.cap .rx) (s.ring .rx) from hn)] at hread
  rw [rxCrc, crcOver_eq_readRange, contents_eq, ← hread, ring_rx]

/-- The remainder of `n` bytes behind `i` discarded ones. -/
theorem rxCrc_advance (C : LawfulCrc) {s : State} {i n : Nat} (h : s.bufOk .rx) (hn : n ≤ s.used .rx - i) :
    rxCrc C (s.advance .rx i) n = C.fn (((s.contents .rx).drop i).take n) C.seed := by
  rw [rxCrc_eq_contents C (advance_bufOk h i) (by rw [advance_used h]; exact hn), advance_contents h]

/-- Advancing `RX` and answering writes one tail and the responses. -/
theorem onlyTailAndMsgs_advance_respond (s : State) (n : Nat) (st : Status) (v : Word) (d : List Byte) :
    OnlyTailAndMsgs s ((s.advance .rx n).respond st v d) := rfl

theorem answered_advance_respond (s : State) (b : Buf) (n : Nat) (st : Status) (v : Word) (d : List Byte) :
    Answered s ((s.advance b n).respond st v d) st v d := answered_setRing s b _ st v d

/-- A scan that finds a complete candidate whose remainder is not zero drops one byte beyond the discard. -/
theorem fsScanWith_rejects (C : LawfulCrc) {s : State} {i m : Nat} (h : s.CanScan) (hc : s.Candidate i m)
    (hlen : (s.cfg.entry m).frameLen ≤ s.used .rx - i)
    (hcrc : C.fn (((s.contents .rx).drop i).take (s.cfg.entry m).frameLen) C.seed ≠ 0#16) :
    fsScanWith C s = .next ((s.advance .rx (i + 1)).respond .crcMismatch (BitVec.ofNat 32 (i * 65536)) []) := by
  have ⟨_, _, hbuf⟩ := h
  have hval : scanVal i 0 = BitVec.ofNat 32 (i * 65536) := by rw [scanVal_eq (by decide), Nat.add_zero]
  rw [fsScanWith_candidate C h hc, if_neg (Nat.not_lt.mpr hlen), rxCrc_advance C hbuf hlen, if_pos hcrc, hval, finish]

/-- Settles O41: `exec` runs the scan with the block's own primitive, and the state a rejection leaves is one advance
by `i + 1` and the answer (`fsScanWith_rejects`). -/
theorem scanRejectsByDroppingOneByte : Obligations.ScanRejectsByDroppingOneByte := by
  refine ⟨fun s => rfl, fun C s i m hscan hcand hlen hcrc => ?_⟩
  refine ⟨_, fsScanWith_rejects C hscan hcand hlen hcrc, onlyTailAndMsgs_advance_respond s _ _ _ _, ?msgs, ?bytes,
    answered_advance_respond s .rx _ _ _ _⟩
  case msgs => rw [respond_msgs, advance_msgs]
  case bytes =>
    have ⟨_, _, hbuf⟩ := hscan
    rw [respond_contents, advance_contents hbuf]

end Sys2Proof.Machine
end

section
/-! The bits of a stamped word (44_frame_builder.md rule R198). -/

namespace Sys2Proof.Machine

/-- The number of bits set among bits 30 to 0. -/
def lowOnes (x : Word) : Nat := (List.range 31).countP fun i => x.getLsbD i

/-- The stamp tells its two cases by the number of low bits set. -/
theorem oddStamp_eq (x : Word) : oddStamp x = if lowOnes x % 2 = 0 then x ||| 0x80000000#32 else x := rfl

/-- The stamp's mask is bit 31 alone. -/
theorem parityMask_getLsbD (i : Nat) : (0x80000000#32).getLsbD i = decide (31 = i) := by
  have hmask : (0x80000000#32) = BitVec.twoPow 32 31 := rfl
  rw [hmask, BitVec.getLsbD_twoPow, decide_eq_true (by decide : 31 < 32), Bool.true_and]

/-- Every bit of a stamped word: the word's own, and bit 31 besides where the low bits set are even in number. -/
theorem oddStamp_getLsbD (x : Word) (i : Nat) :
    (oddStamp x).getLsbD i = (x.getLsbD i || (decide (lowOnes x % 2 = 0) && decide (31 = i))) := by
  rw [oddStamp_eq]
  by_cases heven : lowOnes x % 2 = 0
  · rw [if_pos heven, BitVec.getLsbD_or, parityMask_getLsbD, decide_eq_true heven, Bool.true_and]
  · rw [if_neg heven, decide_eq_false heven, Bool.false_and, Bool.or_false]

theorem oddStamp_getLsbD_low (x : Word) {i : Nat} (hi : i < 31) : (oddStamp x).getLsbD i = x.getLsbD i := by
  rw [oddStamp_getLsbD, decide_eq_false (Nat.ne_of_gt hi), Bool.and_false, Bool.or_false]

theorem oddStamp_getLsbD_parity {x : Word} (h : x.getLsbD 31 = false) :
    (oddStamp x).getLsbD 31 = decide (lowOnes x % 2 = 0) := by
  rw [oddStamp_getLsbD, h, Bool.false_or, decide_eq_true (rfl : 31 = 31), Bool.and_true]

/-- The stamp changes no low bit, so neither their number. -/
theorem lowOnes_oddStamp (x : Word) : lowOnes (oddStamp x) = lowOnes x :=
  List.countP_congr fun i hi => by rw [oddStamp_getLsbD_low x (List.mem_range.mp hi)]

/-- The bits set in a word are those among its low 31 and bit 31. -/
theorem countOnes_eq_lowOnes_add (x : Word) :
    (List.range 32).countP (fun i => x.getLsbD i) = lowOnes x + (x.getLsbD 31).toNat := by
  rw [List.range_succ, List.countP_append, List.countP_singleton, lowOnes]
  cases x.getLsbD 31 <;> rfl

/-- A stamped word has an odd number of bits set: bit 31 adds one exactly to an even number. -/
theorem countOnes_oddStamp_odd {x : Word} (h : x.getLsbD 31 = false) :
    (List.range 32).countP (fun i => (oddStamp x).getLsbD i) % 2 = 1 := by
  rw [countOnes_eq_lowOnes_add, lowOnes_oddStamp, oddStamp_getLsbD_parity h]
  rcases Nat.mod_two_eq_zero_or_one (lowOnes x) with heven | hodd
  · rw [decide_eq_true heven, Bool.toNat_true]; omega
  · rw [decide_eq_false (by omega), Bool.toNat_false]; omega

/-- Settles O56: a word whose bit 31 is clear has `oddStamp` as its stamp (`stamp_clear`), whose bits and their number
are said above; the examples of rule R198 are evaluated. -/
theorem stampGivesOddParity : Obligations.StampGivesOddParity := by
  refine ⟨fun x hclear => ⟨oddStamp x, stamp_clear hclear, fun i => oddStamp_getLsbD_low x, ?parity,
    countOnes_oddStamp_odd hclear⟩, ?examples⟩
  case parity => rw [oddStamp_getLsbD_parity hclear, decide_eq_true_iff, lowOnes]
  case examples => decide

end Sys2Proof.Machine
end

section
/-! A command word read by its fields: what each format says of the five fields, the equations of the decoder, and the
decoder against the encoder (30_encoding.md rules R81, R82, R87, R98). -/

namespace Sys2Proof

/-! ## Parts of a field -/

theorem zeroExtended_byte_high (b : Byte) : (0#24 ++ b).extractLsb' 8 24 = 0#24 :=
  BitVec.extractLsb'_append_eq_left

theorem zeroExtended_byte_low (b : Byte) : (0#24 ++ b).extractLsb' 0 8 = b :=
  BitVec.extractLsb'_append_eq_right

theorem zeroExtended_byte_of_high {x : Word} (h : x.extractLsb' 8 24 = 0#24) : 0#24 ++ x.extractLsb' 0 8 = x := by
  rw [← h]
  exact BitVec.extractLsb'_append_extractLsb' (w := 24) (len := 8)

/-- `AUX` as `FB.BUILD` uses it (rule R82): three zeros, `WNULL`, `NW`. -/
def buildAux (wnull : Bool) (nw : BitVec 8) : BitVec 12 := 0#3 ++ BitVec.ofBool wnull ++ nw

theorem buildAux_high (wnull : Bool) (nw : BitVec 8) : (buildAux wnull nw).extractLsb' 9 3 = 0#3 := by
  have hfront : (buildAux wnull nw).extractLsb' 9 3 = (0#3 ++ BitVec.ofBool wnull).extractLsb' 1 3 :=
    BitVec.extractLsb'_append_eq_of_le (by decide)
  rw [hfront, BitVec.extractLsb'_append_eq_left]

theorem buildAux_wnull (wnull : Bool) (nw : BitVec 8) : (buildAux wnull nw).getLsbD 8 = wnull := by
  rw [buildAux, BitVec.getLsbD_append, BitVec.getLsbD_append, BitVec.getLsbD_ofBool]
  rfl

theorem buildAux_nw (wnull : Bool) (nw : BitVec 8) : (buildAux wnull nw).extractLsb' 0 8 = nw :=
  BitVec.extractLsb'_append_eq_right

theorem ofBool_getLsbD {w : Nat} (x : BitVec w) (i : Nat) : BitVec.ofBool (x.getLsbD i) = x.extractLsb' i 1 := by
  apply BitVec.eq_of_getLsbD_eq
  intro j hj
  obtain rfl : j = 0 := by omega
  simp

theorem buildAux_of_high {x : BitVec 12} (h : x.extractLsb' 9 3 = 0#3) :
    buildAux (x.getLsbD 8) (x.extractLsb' 0 8) = x := by
  have hjoin : x.extractLsb' 9 3 ++ x.extractLsb' 8 1 = x.extractLsb' 8 4 :=
    BitVec.extractLsb'_append_extractLsb'_eq_extractLsb' rfl
  rw [buildAux, ← h, ofBool_getLsbD, hjoin]
  exact BitVec.extractLsb'_append_extractLsb' (w := 4) (len := 8)

/-! ## The formats -/

section
variable {f : Fields}

theorem formatN_iff : formatN f = true ↔ f.sel = 0#4 ∧ f.idx = 0#8 ∧ f.aux = 0#12 ∧ f.opd = 0#32 := by
  simp [formatN, and_assoc]

theorem formatB_iff : formatB f = true ↔ f.idx = 0#8 ∧ f.aux = 0#12 ∧ f.opd = 0#32 := by
  simp [formatB, and_assoc]

theorem formatBO_iff : formatBO f = true ↔ f.idx = 0#8 ∧ f.aux = 0#12 := by
  simp [formatBO]

theorem formatPush_iff : formatPush f = true ↔ f.idx = 0#8 ∧ f.aux = 0#12 ∧ f.opd.extractLsb' 8 24 = 0#24 := by
  simp [formatPush, formatBO, and_assoc]

theorem formatO_iff : formatO f = true ↔ f.sel = 0#4 ∧ f.idx = 0#8 ∧ f.aux = 0#12 := by
  simp [formatO, and_assoc]

theorem formatM_iff : formatM f = true ↔ f.sel = 0#4 ∧ f.aux = 0#12 ∧ f.opd = 0#32 := by
  simp [formatM, and_assoc]

theorem formatMO_iff : formatMO f = true ↔ f.sel = 0#4 ∧ f.aux = 0#12 := by
  simp [formatMO]

theorem formatF_iff : formatF f = true ↔ f.aux.extractLsb' 9 3 = 0#3 := by
  simp [formatF]

/-! ## The fields a format allows are those of the command read from them -/

theorem fields_eq_of_formatN {opc : BitVec 8} (hopc : f.opc = opc) (h : formatN f = true) :
    (⟨opc, 0#4, 0#8, 0#12, 0#32⟩ : Fields) = f := by
  obtain ⟨hsel, hidx, haux, hopd⟩ := formatN_iff.mp h
  rw [← hopc, ← hsel, ← hidx, ← haux, ← hopd]

theorem fields_eq_of_formatB {opc : BitVec 8} (hopc : f.opc = opc) (h : formatB f = true) :
    (⟨opc, f.sel, 0#8, 0#12, 0#32⟩ : Fields) = f := by
  obtain ⟨hidx, haux, hopd⟩ := formatB_iff.mp h
  rw [← hopc, ← hidx, ← haux, ← hopd]

theorem fields_eq_of_formatBO {opc : BitVec 8} (hopc : f.opc = opc) (h : formatBO f = true) :
    (⟨opc, f.sel, 0#8, 0#12, f.opd⟩ : Fields) = f := by
  obtain ⟨hidx, haux⟩ := formatBO_iff.mp h
  rw [← hopc, ← hidx, ← haux]

theorem fields_eq_of_formatPush {opc : BitVec 8} (hopc : f.opc = opc) (h : formatPush f = true) :
    (⟨opc, f.sel, 0#8, 0#12, 0#24 ++ f.opd.extractLsb' 0 8⟩ : Fields) = f := by
  obtain ⟨hidx, haux, hopd⟩ := formatPush_iff.mp h
  rw [← hopc, ← hidx, ← haux, zeroExtended_byte_of_high hopd]

theorem fields_eq_of_formatO {opc : BitVec 8} (hopc : f.opc = opc) (h : formatO f = true) :
    (⟨opc, 0#4, 0#8, 0#12, f.opd⟩ : Fields) = f := by
  obtain ⟨hsel, hidx, haux⟩ := formatO_iff.mp h
  rw [← hopc, ← hsel, ← hidx, ← haux]

theorem fields_eq_of_formatM {opc : BitVec 8} (hopc : f.opc = opc) (h : formatM f = true) :
    (⟨opc, 0#4, f.idx, 0#12, 0#32⟩ : Fields) = f := by
  obtain ⟨hsel, haux, hopd⟩ := formatM_iff.mp h
  rw [← hopc, ← hsel, ← haux, ← hopd]

theorem fields_eq_of_formatMO {opc : BitVec 8} (hopc : f.opc = opc) (h : formatMO f = true) :
    (⟨opc, 0#4, f.idx, 0#12, f.opd⟩ : Fields) = f := by
  obtain ⟨hsel, haux⟩ := formatMO_iff.mp h
  rw [← hopc, ← hsel, ← haux]

theorem fields_eq_of_formatF {opc : BitVec 8} (hopc : f.opc = opc) (h : formatF f = true) :
    (⟨opc, f.sel, f.idx, buildAux (wnullOf f) (nwOf f), f.opd⟩ : Fields) = f := by
  rw [← hopc, wnullOf, nwOf, buildAux_of_high (formatF_iff.mp h)]

end

/-! ## The decoder and the encoder -/

theorem encode_eq_of {i : Instr} {c : Command} (hfields : encodeFields i = fieldsOf c.word) (hdin : dinOf i = c.din) :
    encode i = c := by
  rw [encode, hfields, hdin, wordOfFields_fieldsOf]

@[simp] theorem encode_din (i : Instr) : (encode i).din = dinOf i := rfl

/-- Settles O1: at each command the opcode selects the command's own branch, the unused fields are the zeros its format
asks for, and the operands are read back from the fields they were put in. -/
theorem decodeOfEncodeIsTheCommand : Obligations.DecodeOfEncodeIsTheCommand := by
  intro i hwf
  cases i with
  | rbPush buf byte =>
    simp [decode, encodeFields, Instr.opcode, dinOf, formatPush_iff, zeroExtended_byte_high, zeroExtended_byte_low]
  | rbPop buf => simp [decode, encodeFields, Instr.opcode, dinOf, formatB_iff]
  | rbPeek buf offset => simp [decode, encodeFields, Instr.opcode, dinOf, formatBO_iff]
  | rbAdv buf n => simp [decode, encodeFields, Instr.opcode, dinOf, formatBO_iff]
  | rbFout buf n => simp [decode, encodeFields, Instr.opcode, dinOf, formatBO_iff]
  | rbFin buf n src =>
    have hlen : src.length = n.toNat := by simpa [Instr.wf] using hwf
    simp [decode, encodeFields, Instr.opcode, dinOf, formatBO_iff, hlen]
  | rbUsed buf => simp [decode, encodeFields, Instr.opcode, dinOf, formatB_iff]
  | rbReset buf => simp [decode, encodeFields, Instr.opcode, dinOf, formatB_iff]
  | fsScan => simp [decode, encodeFields, Instr.opcode, dinOf, formatN_iff]
  | cvCrc n => simp [decode, encodeFields, Instr.opcode, dinOf, formatO_iff]
  | plRead k off => simp [decode, encodeFields, Instr.opcode, dinOf, formatMO_iff]
  | tmTick => simp [decode, encodeFields, Instr.opcode, dinOf, formatN_iff]
  | tmStat k => simp [decode, encodeFields, Instr.opcode, dinOf, formatM_iff]
  | tmElapsed k => simp [decode, encodeFields, Instr.opcode, dinOf, formatM_iff]
  | fbBuild sdi k wnull nw nbf words =>
    have hlen : words.length = buildListLen wnull nw := by simpa [Instr.wf] using hwf
    have hfields : encodeFields (.fbBuild sdi k wnull nw nbf words) = ⟨0x40#8, sdi, k, buildAux wnull nw, nbf⟩ := rfl
    have hformat := formatF_iff (f := ⟨0x40#8, sdi, k, buildAux wnull nw, nbf⟩).mpr (buildAux_high wnull nw)
    have hwnull : wnullOf ⟨0x40#8, sdi, k, buildAux wnull nw, nbf⟩ = wnull := buildAux_wnull wnull nw
    have hnw : nwOf ⟨0x40#8, sdi, k, buildAux wnull nw, nbf⟩ = nw := buildAux_nw wnull nw
    simp [decode, hfields, dinOf, hformat, hwnull, hnw, hlen]

/-- One branch of the decoder's chain. -/
theorem of_branch_eq_some {p : Prop} [Decidable p] {legal : Bool} {i j : Instr} {rest : Option Instr}
    (h : (if p then commandIf legal j else rest) = some i) : (p ∧ legal = true ∧ j = i) ∨ rest = some i := by
  by_cases hp : p
  · rw [if_pos hp, commandIf_eq_some] at h
    exact .inl ⟨hp, h⟩
  · rw [if_neg hp] at h
    exact .inr h

/-- A pair with an empty input list, legal in its branch, is the encoding of the command read there. -/
theorem encode_eq_of_legal {format : Bool} {i : Instr} {c : Command} (h : (format && c.din == Din.empty) = true)
    (hfields : format = true → encodeFields i = fieldsOf c.word) (hdin : dinOf i = Din.empty) : encode i = c := by
  simp only [Bool.and_eq_true, beq_iff_eq] at h
  exact encode_eq_of (hfields h.1) (hdin.trans h.2.symm)

/-- Settles O2: in each branch of the decoder the format leaves no field open (`fields_eq_of_formatB` and the like), so
that the fields of the command read are the word's. -/
theorem encodeOfDecodeIsTheWord : Obligations.EncodeOfDecodeIsTheWord := by
  intro c i h
  obtain ⟨hopc, hlegal, rfl⟩ | h := of_branch_eq_some h
  · exact ⟨encode_eq_of_legal hlegal (fields_eq_of_formatPush hopc) rfl, rfl⟩
  obtain ⟨hopc, hlegal, rfl⟩ | h := of_branch_eq_some h
  · exact ⟨encode_eq_of_legal hlegal (fields_eq_of_formatB hopc) rfl, rfl⟩
  obtain ⟨hopc, hlegal, rfl⟩ | h := of_branch_eq_some h
  · exact ⟨encode_eq_of_legal hlegal (fields_eq_of_formatBO hopc) rfl, rfl⟩
  obtain ⟨hopc, hlegal, rfl⟩ | h := of_branch_eq_some h
  · exact ⟨encode_eq_of_legal hlegal (fields_eq_of_formatBO hopc) rfl, rfl⟩
  obtain ⟨hopc, hlegal, rfl⟩ | h := of_branch_eq_some h
  · exact ⟨encode_eq_of_legal hlegal (fields_eq_of_formatBO hopc) rfl, rfl⟩
  obtain ⟨hopc, hlegal, rfl⟩ | h := of_branch_eq_some h
  · simp only [Bool.and_eq_true, beq_iff_eq] at hlegal
    obtain ⟨⟨hformat, hwords⟩, hlen⟩ := hlegal
    have hdin : (⟨c.din.bytes, []⟩ : Din) = c.din := by rw [← hwords]
    exact ⟨encode_eq_of (fields_eq_of_formatBO hopc hformat) hdin, beq_iff_eq.mpr hlen⟩
  obtain ⟨hopc, hlegal, rfl⟩ | h := of_branch_eq_some h
  · exact ⟨encode_eq_of_legal hlegal (fields_eq_of_formatB hopc) rfl, rfl⟩
  obtain ⟨hopc, hlegal, rfl⟩ | h := of_branch_eq_some h
  · exact ⟨encode_eq_of_legal hlegal (fields_eq_of_formatB hopc) rfl, rfl⟩
  obtain ⟨hopc, hlegal, rfl⟩ | h := of_branch_eq_some h
  · exact ⟨encode_eq_of_legal hlegal (fields_eq_of_formatN hopc) rfl, rfl⟩
  obtain ⟨hopc, hlegal, rfl⟩ | h := of_branch_eq_some h
  · exact ⟨encode_eq_of_legal hlegal (fields_eq_of_formatO hopc) rfl, rfl⟩
  obtain ⟨hopc, hlegal, rfl⟩ | h := of_branch_eq_some h
  · exact ⟨encode_eq_of_legal hlegal (fields_eq_of_formatMO hopc) rfl, rfl⟩
  obtain ⟨hopc, hlegal, rfl⟩ | h := of_branch_eq_some h
  · exact ⟨encode_eq_of_legal hlegal (fields_eq_of_formatN hopc) rfl, rfl⟩
  obtain ⟨hopc, hlegal, rfl⟩ | h := of_branch_eq_some h
  · exact ⟨encode_eq_of_legal hlegal (fields_eq_of_formatM hopc) rfl, rfl⟩
  obtain ⟨hopc, hlegal, rfl⟩ | h := of_branch_eq_some h
  · exact ⟨encode_eq_of_legal hlegal (fields_eq_of_formatM hopc) rfl, rfl⟩
  obtain ⟨hopc, hlegal, rfl⟩ | h := of_branch_eq_some h
  · simp only [Bool.and_eq_true, beq_iff_eq] at hlegal
    obtain ⟨⟨hformat, hbytes⟩, hlen⟩ := hlegal
    have hdin : (⟨[], c.din.words⟩ : Din) = c.din := by rw [← hbytes]
    exact ⟨encode_eq_of (fields_eq_of_formatF hopc hformat) hdin, beq_iff_eq.mpr hlen⟩
  cases h

end Sys2Proof
end

section
/-! The masks of spec/opcode_table.json as conditions on the five fields, and the table against the decoder
(30_encoding.md rules R80, R82, R87, R98). -/

namespace Sys2Proof.Machine

/-! ## Masked words by their fields -/

/-- The word whose only field that may differ from zero is `OPC`. -/
def opcodeWord (opc : BitVec 8) : Word64 := wordOfFields ⟨opc, 0#4, 0#8, 0#12, 0#32⟩

theorem word_eq_iff_fields (v w : Word64) : v = w ↔ fieldsOf v = fieldsOf w :=
  ⟨congrArg fieldsOf, fun h => by rw [← wordOfFields_fieldsOf v, h, wordOfFields_fieldsOf]⟩

theorem fieldsOf_and (v w : Word64) : fieldsOf (v &&& w) =
    ⟨(fieldsOf v).opc &&& (fieldsOf w).opc, (fieldsOf v).sel &&& (fieldsOf w).sel,
      (fieldsOf v).idx &&& (fieldsOf w).idx, (fieldsOf v).aux &&& (fieldsOf w).aux,
      (fieldsOf v).opd &&& (fieldsOf w).opd⟩ := by
  simp only [fieldsOf, BitVec.extractLsb'_and]

/-- A word under a mask is an opcode's word when each field under the mask's field is what the opcode's word has. -/
theorem masked_eq_opcodeWord_iff (w : Word64) (opc : BitVec 8) {mask : Word64} (m : Fields)
    (hmask : mask = wordOfFields m) : w &&& mask = opcodeWord opc ↔
      (fieldsOf w).opc &&& m.opc = opc ∧ (fieldsOf w).sel &&& m.sel = 0#4 ∧ (fieldsOf w).idx &&& m.idx = 0#8 ∧
        (fieldsOf w).aux &&& m.aux = 0#12 ∧ (fieldsOf w).opd &&& m.opd = 0#32 := by
  rw [hmask, word_eq_iff_fields, fieldsOf_and, opcodeWord, fieldsOf_wordOfFields, fieldsOf_wordOfFields,
    Fields.mk.injEq]

theorem masked_high_zero_iff {hi lo : Nat} (x : BitVec (hi + lo)) :
    x &&& (BitVec.allOnes hi ++ 0#lo) = 0#(hi + lo) ↔ x.extractLsb' lo hi = 0#hi := by
  have hsplit : x &&& (BitVec.allOnes hi ++ 0#lo) = x.extractLsb' lo hi ++ 0#lo := by
    conv_lhs => rw [← BitVec.extractLsb'_append_extractLsb' (x := x)]
    rw [BitVec.and_append, BitVec.and_allOnes, BitVec.and_zero]
  rw [hsplit]
  constructor
  · intro h
    have hhigh := congrArg (BitVec.extractLsb' lo hi) h
    rwa [BitVec.extractLsb'_append_eq_left, BitVec.extractLsb'_zero] at hhigh
  · intro h
    rw [h, BitVec.zero_append_zero]

theorem masked_opd_high (x : Word) : x &&& 0xFFFFFF00#32 = 0#32 ↔ x.extractLsb' 8 24 = 0#24 :=
  masked_high_zero_iff (hi := 24) (lo := 8) x

theorem masked_aux_high (x : BitVec 12) : x &&& 0xE00#12 = 0#12 ↔ x.extractLsb' 9 3 = 0#3 :=
  masked_high_zero_iff (hi := 3) (lo := 9) x

section
variable (w : Word64) (opc : BitVec 8)

theorem masked_formatN_iff : w &&& 0xFFFFFFFFFFFFFFFF#64 = opcodeWord opc ↔
    (fieldsOf w).opc = opc ∧ formatN (fieldsOf w) = true := by
  rw [masked_eq_opcodeWord_iff w opc
    ⟨BitVec.allOnes 8, BitVec.allOnes 4, BitVec.allOnes 8, BitVec.allOnes 12, BitVec.allOnes 32⟩ (by decide)]
  simp only [BitVec.and_allOnes, formatN_iff]

theorem masked_formatB_iff : w &&& 0xFF0FFFFFFFFFFFFF#64 = opcodeWord opc ↔
    (fieldsOf w).opc = opc ∧ formatB (fieldsOf w) = true := by
  rw [masked_eq_opcodeWord_iff w opc
    ⟨BitVec.allOnes 8, 0#4, BitVec.allOnes 8, BitVec.allOnes 12, BitVec.allOnes 32⟩ (by decide)]
  simp only [BitVec.and_allOnes, BitVec.and_zero, true_and, formatB_iff]

theorem masked_formatBO_iff : w &&& 0xFF0FFFFF00000000#64 = opcodeWord opc ↔
    (fieldsOf w).opc = opc ∧ formatBO (fieldsOf w) = true := by
  rw [masked_eq_opcodeWord_iff w opc
    ⟨BitVec.allOnes 8, 0#4, BitVec.allOnes 8, BitVec.allOnes 12, 0#32⟩ (by decide)]
  simp only [BitVec.and_allOnes, BitVec.and_zero, true_and, and_true, formatBO_iff]

theorem masked_formatPush_iff : w &&& 0xFF0FFFFFFFFFFF00#64 = opcodeWord opc ↔
    (fieldsOf w).opc = opc ∧ formatPush (fieldsOf w) = true := by
  rw [masked_eq_opcodeWord_iff w opc
    ⟨BitVec.allOnes 8, 0#4, BitVec.allOnes 8, BitVec.allOnes 12, 0xFFFFFF00#32⟩ (by decide)]
  simp only [BitVec.and_allOnes, BitVec.and_zero, true_and, formatPush_iff, masked_opd_high]

theorem masked_formatO_iff : w &&& 0xFFFFFFFF00000000#64 = opcodeWord opc ↔
    (fieldsOf w).opc = opc ∧ formatO (fieldsOf w) = true := by
  rw [masked_eq_opcodeWord_iff w opc
    ⟨BitVec.allOnes 8, BitVec.allOnes 4, BitVec.allOnes 8, BitVec.allOnes 12, 0#32⟩ (by decide)]
  simp only [BitVec.and_allOnes, BitVec.and_zero, and_true, formatO_iff]

theorem masked_formatM_iff : w &&& 0xFFF00FFFFFFFFFFF#64 = opcodeWord opc ↔
    (fieldsOf w).opc = opc ∧ formatM (fieldsOf w) = true := by
  rw [masked_eq_opcodeWord_iff w opc
    ⟨BitVec.allOnes 8, BitVec.allOnes 4, 0#8, BitVec.allOnes 12, BitVec.allOnes 32⟩ (by decide)]
  simp only [BitVec.and_allOnes, BitVec.and_zero, true_and, formatM_iff]

theorem masked_formatMO_iff : w &&& 0xFFF00FFF00000000#64 = opcodeWord opc ↔
    (fieldsOf w).opc = opc ∧ formatMO (fieldsOf w) = true := by
  rw [masked_eq_opcodeWord_iff w opc
    ⟨BitVec.allOnes 8, BitVec.allOnes 4, 0#8, BitVec.allOnes 12, 0#32⟩ (by decide)]
  simp only [BitVec.and_allOnes, BitVec.and_zero, true_and, and_true, formatMO_iff]

theorem masked_formatF_iff : w &&& 0xFF000E0000000000#64 = opcodeWord opc ↔
    (fieldsOf w).opc = opc ∧ formatF (fieldsOf w) = true := by
  rw [masked_eq_opcodeWord_iff w opc
    ⟨BitVec.allOnes 8, 0#4, 0#8, 0xE00#12, 0#32⟩ (by decide)]
  simp only [BitVec.and_allOnes, BitVec.and_zero, true_and, and_true, formatF_iff, masked_aux_high]

end

/-! ## The table and the decoder -/

theorem dinFits_empty_iff {name : String} (hfin : name ≠ "RB.FIN") (hbuild : name ≠ "FB.BUILD") (c : Command) :
    DinFits name c ↔ c.din = Din.empty := by
  simp only [DinFits, if_neg hfin, if_neg hbuild, Din.empty]
  constructor
  · rintro ⟨hbytes, hwords⟩
    rw [← hbytes, ← hwords]
  · intro h
    rw [h]
    exact ⟨rfl, rfl⟩

theorem wnullOf_fieldsOf (w : Word64) : wnullOf (fieldsOf w) = w.getLsbD 40 := by
  simp [wnullOf, fieldsOf]

theorem nwOf_fieldsOf (w : Word64) : nwOf (fieldsOf w) = w.extractLsb' 32 8 := by
  apply BitVec.eq_of_getLsbD_eq
  intro i hi
  simp [nwOf, fieldsOf, show i < 12 by omega]

theorem dinFits_rbFin_iff (c : Command) : DinFits "RB.FIN" c ↔
    c.din.words = [] ∧ c.din.bytes.length = (fieldsOf c.word).opd.toNat := by
  simp only [DinFits, if_pos]; rfl

theorem dinFits_fbBuild_iff (c : Command) : DinFits "FB.BUILD" c ↔
    c.din.bytes = [] ∧ c.din.words.length = buildListLen (wnullOf (fieldsOf c.word)) (nwOf (fieldsOf c.word)) := by
  rw [wnullOf_fieldsOf, nwOf_fieldsOf]
  rfl

theorem decode_of_encode_eq {c : Command} {i : Instr} (henc : encode i = c) (hwf : i.wf = true) : decode c = some i :=
  henc ▸ decodeOfEncodeIsTheCommand i hwf

theorem decodes_as {c : Command} {i : Instr} (henc : encode i = c) (hwf : i.wf = true) :
    ∃ j, decode c = some j ∧ j.mnemonic = i.mnemonic :=
  ⟨i, decode_of_encode_eq henc hwf, rfl⟩

/-- The row of each command accepts its encoding. -/
theorem encode_in_opcodeTable (i : Instr) (hwf : i.wf = true) : ∃ row ∈ opcodeTable, row.mnemonic = i.mnemonic ∧
    (encode i).word &&& row.mask = row.value ∧ DinFits i.mnemonic (encode i) := by
  cases i with
  | rbPush buf byte =>
    refine ⟨opcodeTable[0], List.getElem_mem _, rfl, (masked_formatPush_iff _ 0x10#8).mpr ?_,
      (dinFits_empty_iff (name := "RB.PUSH") (by decide) (by decide) _).mpr rfl⟩
    rw [encode_fields]
    exact ⟨rfl, formatPush_iff.mpr ⟨rfl, rfl, zeroExtended_byte_high byte⟩⟩
  | rbPop buf =>
    refine ⟨opcodeTable[1], List.getElem_mem _, rfl, (masked_formatB_iff _ 0x11#8).mpr ?_,
      (dinFits_empty_iff (name := "RB.POP") (by decide) (by decide) _).mpr rfl⟩
    rw [encode_fields]
    exact ⟨rfl, formatB_iff.mpr ⟨rfl, rfl, rfl⟩⟩
  | rbPeek buf offset =>
    refine ⟨opcodeTable[2], List.getElem_mem _, rfl, (masked_formatBO_iff _ 0x12#8).mpr ?_,
      (dinFits_empty_iff (name := "RB.PEEK") (by decide) (by decide) _).mpr rfl⟩
    rw [encode_fields]
    exact ⟨rfl, formatBO_iff.mpr ⟨rfl, rfl⟩⟩
  | rbAdv buf n =>
    refine ⟨opcodeTable[3], List.getElem_mem _, rfl, (masked_formatBO_iff _ 0x13#8).mpr ?_,
      (dinFits_empty_iff (name := "RB.ADV") (by decide) (by decide) _).mpr rfl⟩
    rw [encode_fields]
    exact ⟨rfl, formatBO_iff.mpr ⟨rfl, rfl⟩⟩
  | rbFout buf n =>
    refine ⟨opcodeTable[4], List.getElem_mem _, rfl, (masked_formatBO_iff _ 0x14#8).mpr ?_,
      (dinFits_empty_iff (name := "RB.FOUT") (by decide) (by decide) _).mpr rfl⟩
    rw [encode_fields]
    exact ⟨rfl, formatBO_iff.mpr ⟨rfl, rfl⟩⟩
  | rbFin buf n src =>
    have hlen : src.length = n.toNat := beq_iff_eq.mp hwf
    refine ⟨opcodeTable[5], List.getElem_mem _, rfl, (masked_formatBO_iff _ 0x15#8).mpr ?_,
      (dinFits_rbFin_iff _).mpr ⟨rfl, ?_⟩⟩
    · rw [encode_fields]
      exact ⟨rfl, formatBO_iff.mpr ⟨rfl, rfl⟩⟩
    · rw [encode_fields]
      exact hlen
  | rbUsed buf =>
    refine ⟨opcodeTable[6], List.getElem_mem _, rfl, (masked_formatB_iff _ 0x16#8).mpr ?_,
      (dinFits_empty_iff (name := "RB.USED") (by decide) (by decide) _).mpr rfl⟩
    rw [encode_fields]
    exact ⟨rfl, formatB_iff.mpr ⟨rfl, rfl, rfl⟩⟩
  | rbReset buf =>
    refine ⟨opcodeTable[7], List.getElem_mem _, rfl, (masked_formatB_iff _ 0x17#8).mpr ?_,
      (dinFits_empty_iff (name := "RB.RESET") (by decide) (by decide) _).mpr rfl⟩
    rw [encode_fields]
    exact ⟨rfl, formatB_iff.mpr ⟨rfl, rfl, rfl⟩⟩
  | fsScan =>
    refine ⟨opcodeTable[8], List.getElem_mem _, rfl, (masked_formatN_iff _ 0x20#8).mpr ?_,
      (dinFits_empty_iff (name := "FS.SCAN") (by decide) (by decide) _).mpr rfl⟩
    rw [encode_fields]
    exact ⟨rfl, formatN_iff.mpr ⟨rfl, rfl, rfl, rfl⟩⟩
  | cvCrc n =>
    refine ⟨opcodeTable[9], List.getElem_mem _, rfl, (masked_formatO_iff _ 0x21#8).mpr ?_,
      (dinFits_empty_iff (name := "CV.CRC") (by decide) (by decide) _).mpr rfl⟩
    rw [encode_fields]
    exact ⟨rfl, formatO_iff.mpr ⟨rfl, rfl, rfl⟩⟩
  | plRead k off =>
    refine ⟨opcodeTable[10], List.getElem_mem _, rfl, (masked_formatMO_iff _ 0x22#8).mpr ?_,
      (dinFits_empty_iff (name := "PL.READ") (by decide) (by decide) _).mpr rfl⟩
    rw [encode_fields]
    exact ⟨rfl, formatMO_iff.mpr ⟨rfl, rfl⟩⟩
  | tmTick =>
    refine ⟨opcodeTable[11], List.getElem_mem _, rfl, (masked_formatN_iff _ 0x30#8).mpr ?_,
      (dinFits_empty_iff (name := "TM.TICK") (by decide) (by decide) _).mpr rfl⟩
    rw [encode_fields]
    exact ⟨rfl, formatN_iff.mpr ⟨rfl, rfl, rfl, rfl⟩⟩
  | tmStat k =>
    refine ⟨opcodeTable[12], List.getElem_mem _, rfl, (masked_formatM_iff _ 0x31#8).mpr ?_,
      (dinFits_empty_iff (name := "TM.STAT") (by decide) (by decide) _).mpr rfl⟩
    rw [encode_fields]
    exact ⟨rfl, formatM_iff.mpr ⟨rfl, rfl, rfl⟩⟩
  | tmElapsed k =>
    refine ⟨opcodeTable[13], List.getElem_mem _, rfl, (masked_formatM_iff _ 0x32#8).mpr ?_,
      (dinFits_empty_iff (name := "TM.ELAPSED") (by decide) (by decide) _).mpr rfl⟩
    rw [encode_fields]
    exact ⟨rfl, formatM_iff.mpr ⟨rfl, rfl, rfl⟩⟩
  | fbBuild sdi k wnull nw nbf words =>
    have hlen : words.length = buildListLen wnull nw := beq_iff_eq.mp hwf
    refine ⟨opcodeTable[14], List.getElem_mem _, rfl, (masked_formatF_iff _ 0x40#8).mpr ?_,
      (dinFits_fbBuild_iff _).mpr ⟨rfl, ?_⟩⟩
    · rw [encode_fields]
      exact ⟨rfl, formatF_iff.mpr (buildAux_high wnull nw)⟩
    · rw [encode_fields, wnullOf, nwOf]
      exact hlen.trans (congrArg₂ buildListLen (buildAux_wnull wnull nw).symm (buildAux_nw wnull nw).symm)

/-- A pair a row accepts is the encoding of a command of the row's mnemonic. -/
theorem decode_of_opcodeTable {c : Command} {row : OpcodeRow} (hrow : row ∈ opcodeTable)
    (hmask : c.word &&& row.mask = row.value) (hfits : DinFits row.mnemonic c) :
    ∃ i, decode c = some i ∧ i.mnemonic = row.mnemonic := by
  simp only [opcodeTable, List.mem_cons, List.not_mem_nil, or_false] at hrow
  obtain rfl | rfl | rfl | rfl | rfl | rfl | rfl | rfl | rfl | rfl | rfl | rfl | rfl | rfl | rfl := hrow
  · obtain ⟨hopc, hformat⟩ := (masked_formatPush_iff c.word 0x10#8).mp hmask
    have hdin := (dinFits_empty_iff (by decide) (by decide) c).mp hfits
    exact decodes_as (i := .rbPush (fieldsOf c.word).sel ((fieldsOf c.word).opd.extractLsb' 0 8))
      (encode_eq_of (fields_eq_of_formatPush hopc hformat) hdin.symm) rfl
  · obtain ⟨hopc, hformat⟩ := (masked_formatB_iff c.word 0x11#8).mp hmask
    have hdin := (dinFits_empty_iff (by decide) (by decide) c).mp hfits
    exact decodes_as (i := .rbPop (fieldsOf c.word).sel)
      (encode_eq_of (fields_eq_of_formatB hopc hformat) hdin.symm) rfl
  · obtain ⟨hopc, hformat⟩ := (masked_formatBO_iff c.word 0x12#8).mp hmask
    have hdin := (dinFits_empty_iff (by decide) (by decide) c).mp hfits
    exact decodes_as (i := .rbPeek (fieldsOf c.word).sel (fieldsOf c.word).opd)
      (encode_eq_of (fields_eq_of_formatBO hopc hformat) hdin.symm) rfl
  · obtain ⟨hopc, hformat⟩ := (masked_formatBO_iff c.word 0x13#8).mp hmask
    have hdin := (dinFits_empty_iff (by decide) (by decide) c).mp hfits
    exact decodes_as (i := .rbAdv (fieldsOf c.word).sel (fieldsOf c.word).opd)
      (encode_eq_of (fields_eq_of_formatBO hopc hformat) hdin.symm) rfl
  · obtain ⟨hopc, hformat⟩ := (masked_formatBO_iff c.word 0x14#8).mp hmask
    have hdin := (dinFits_empty_iff (by decide) (by decide) c).mp hfits
    exact decodes_as (i := .rbFout (fieldsOf c.word).sel (fieldsOf c.word).opd)
      (encode_eq_of (fields_eq_of_formatBO hopc hformat) hdin.symm) rfl
  · obtain ⟨hopc, hformat⟩ := (masked_formatBO_iff c.word 0x15#8).mp hmask
    obtain ⟨hwords, hlen⟩ := (dinFits_rbFin_iff c).mp hfits
    have hdin : (⟨c.din.bytes, []⟩ : Din) = c.din := by rw [← hwords]
    exact decodes_as (i := .rbFin (fieldsOf c.word).sel (fieldsOf c.word).opd c.din.bytes)
      (encode_eq_of (fields_eq_of_formatBO hopc hformat) hdin) (beq_iff_eq.mpr hlen)
  · obtain ⟨hopc, hformat⟩ := (masked_formatB_iff c.word 0x16#8).mp hmask
    have hdin := (dinFits_empty_iff (by decide) (by decide) c).mp hfits
    exact decodes_as (i := .rbUsed (fieldsOf c.word).sel)
      (encode_eq_of (fields_eq_of_formatB hopc hformat) hdin.symm) rfl
  · obtain ⟨hopc, hformat⟩ := (masked_formatB_iff c.word 0x17#8).mp hmask
    have hdin := (dinFits_empty_iff (by decide) (by decide) c).mp hfits
    exact decodes_as (i := .rbReset (fieldsOf c.word).sel)
      (encode_eq_of (fields_eq_of_formatB hopc hformat) hdin.symm) rfl
  · obtain ⟨hopc, hformat⟩ := (masked_formatN_iff c.word 0x20#8).mp hmask
    have hdin := (dinFits_empty_iff (by decide) (by decide) c).mp hfits
    exact decodes_as (i := .fsScan)
      (encode_eq_of (fields_eq_of_formatN hopc hformat) hdin.symm) rfl
  · obtain ⟨hopc, hformat⟩ := (masked_formatO_iff c.word 0x21#8).mp hmask
    have hdin := (dinFits_empty_iff (by decide) (by decide) c).mp hfits
    exact decodes_as (i := .cvCrc (fieldsOf c.word).opd)
      (encode_eq_of (fields_eq_of_formatO hopc hformat) hdin.symm) rfl
  · obtain ⟨hopc, hformat⟩ := (masked_formatMO_iff c.word 0x22#8).mp hmask
    have hdin := (dinFits_empty_iff (by decide) (by decide) c).mp hfits
    exact decodes_as (i := .plRead (fieldsOf c.word).idx (fieldsOf c.word).opd)
      (encode_eq_of (fields_eq_of_formatMO hopc hformat) hdin.symm) rfl
  · obtain ⟨hopc, hformat⟩ := (masked_formatN_iff c.word 0x30#8).mp hmask
    have hdin := (dinFits_empty_iff (by decide) (by decide) c).mp hfits
    exact decodes_as (i := .tmTick)
      (encode_eq_of (fields_eq_of_formatN hopc hformat) hdin.symm) rfl
  · obtain ⟨hopc, hformat⟩ := (masked_formatM_iff c.word 0x31#8).mp hmask
    have hdin := (dinFits_empty_iff (by decide) (by decide) c).mp hfits
    exact decodes_as (i := .tmStat (fieldsOf c.word).idx)
      (encode_eq_of (fields_eq_of_formatM hopc hformat) hdin.symm) rfl
  · obtain ⟨hopc, hformat⟩ := (masked_formatM_iff c.word 0x32#8).mp hmask
    have hdin := (dinFits_empty_iff (by decide) (by decide) c).mp hfits
    exact decodes_as (i := .tmElapsed (fieldsOf c.word).idx)
      (encode_eq_of (fields_eq_of_formatM hopc hformat) hdin.symm) rfl
  · obtain ⟨hopc, hformat⟩ := (masked_formatF_iff c.word 0x40#8).mp hmask
    obtain ⟨hbytes, hlen⟩ := (dinFits_fbBuild_iff c).mp hfits
    have hdin : (⟨[], c.din.words⟩ : Din) = c.din := by rw [← hbytes]
    exact decodes_as (i := .fbBuild (fieldsOf c.word).sel (fieldsOf c.word).idx (wnullOf (fieldsOf c.word))
        (nwOf (fieldsOf c.word)) (fieldsOf c.word).opd c.din.words)
      (encode_eq_of (fields_eq_of_formatF hopc hformat) hdin) (beq_iff_eq.mpr hlen)

/-- Settles O3: what the decoder reads is an encoding (O2), which its row accepts; what a row accepts is an encoding,
which the decoder reads (O1). -/
theorem decoderAgreesWithOpcodeTable : Obligations.DecoderAgreesWithOpcodeTable := by
  intro c name
  constructor
  · rintro ⟨i, hdecode, rfl⟩
    obtain ⟨rfl, hwf⟩ := encodeOfDecodeIsTheWord c i hdecode
    exact encode_in_opcodeTable i hwf
  · rintro ⟨row, hrow, rfl, hmask, hfits⟩
    exact decode_of_opcodeTable hrow hmask hfits

/-- Settles O4: the two words with open lists are encodings, read back by O1; the others are evaluated. -/
theorem workedEncodingsDecode : Obligations.WorkedEncodingsDecode := by
  refine ⟨fun b0 b1 b2 b3 b4 => ?fin, fun w0 w1 w2 w3 w4 => ?build, ?closed⟩
  case fin =>
    have hfields : fieldsOf 0x1510000000000005#64 = ⟨0x15#8, 1#4, 0#8, 0#12, 5#32⟩ := by decide
    exact decode_of_encode_eq (encode_eq_of hfields.symm rfl) rfl
  case build =>
    have hfields : fieldsOf 0x403000050000001B#64 = ⟨0x40#8, 3#4, 0#8, 5#12, 27#32⟩ := by decide
    exact decode_of_encode_eq (encode_eq_of hfields.symm rfl) rfl
  case closed => decide

/-- Settles O5: the assembler is run on each line. -/
theorem workedLinesAssemble : Obligations.WorkedLinesAssemble := by
  unfold Obligations.WorkedLinesAssemble
  intro word fiveWords
  and_intros <;> rfl

end Sys2Proof.Machine
end

section
/-! What a step takes from its inputs, one equation per shape of the inputs (20_memory.md rule R62, 30_encoding.md rules
R98, R99, 70_reset_and_hazards.md rule R249). -/

namespace Sys2Proof.Machine

/-- The entry of the inputs that presents `c` on port `p`. -/
def Arrival.on (p : Port) (c : Command) : Arrival :=
  match p with
  | .T => .transport c
  | .M => .main c

theorem take_of_nil {s : State} (h : s.pending = []) : take s = .idle := by
  simp only [take, h]

theorem take_of_command {s : State} {p : Port} {c : Command} {rest : List Arrival} (h : s.pending = .on p c :: rest) :
    take s = .command c { s with port := p, pending := rest } := by
  cases p <;> simp only [Arrival.on] at h <;> simp only [take, h, takeOn]

/-- Two commands that arrive together, taken in the order the free arbitration gives. -/
theorem take_of_both {s : State} {ct cm : Command} {rest : List Arrival} (h : s.pending = .both ct cm :: rest) :
    take s = if Config.transportFirst s.arbiter then
        .command ct { s with arbiter := s.arbiter + 1, port := .T, pending := .main cm :: rest }
      else .command cm { s with arbiter := s.arbiter + 1, port := .M, pending := .transport ct :: rest } := by
  simp only [take, h, takeOn]

/-- A step that takes a command depends on nothing but that command and the state it is run in. -/
theorem step_eq_of_take {s s' t : State} {c : Command} (h : take s = .command c t) (h' : take s' = .command c t) :
    step s = step s' := by
  simp only [step, h, h']

theorem step_of_command {s t : State} {c : Command} {i : Instr} (h : take s = .command c t) (hd : decode c = some i) :
    step s = exec i t := by
  simp only [step, h, hd]

theorem step_of_illegal {s t : State} {c : Command} (h : take s = .command c t) (hd : decode c = none) :
    step s = .next (t.respond .illegalCmd 0#32 []) := by
  simp only [step, h, hd, raiseIllegalCommand_eq]

/-- Settles O6: the head of the inputs is taken (`take_of_command`); what the decoder reads is run, and what it does not
read is answered. -/
theorem stepRunsTheDecodedCommand : Obligations.StepRunsTheDecodedCommand := by
  intro s p c rest hpending
  have htake : take s = .command c { s with port := p, pending := rest } :=
    take_of_command (by rw [hpending]; cases p <;> rfl)
  refine ⟨fun i hdecode => step_of_command htake hdecode, fun hdecode => ?_⟩
  exact ⟨_, step_of_illegal htake hdecode, onlyAnswers_respond _ _ _ _, answered_respond _ _ _ _⟩

/-- Settles O7: whichever the free arbitration puts first, the step is the one of that serial order. -/
theorem simultaneousCommandsAreSerialised : Obligations.SimultaneousCommandsAreSerialised := by
  intro s ct cm rest hpending
  have htake := take_of_both hpending
  cases hfirst : Config.transportFirst s.arbiter with
  | true =>
    rw [hfirst, if_pos rfl] at htake
    exact .inl (step_eq_of_take htake (take_of_command (p := .T) rfl))
  | false =>
    rw [hfirst, if_neg (by decide)] at htake
    exact .inr (step_eq_of_take htake (take_of_command (p := .M) rfl))

/-- Settles O8: with nothing presented the step takes nothing. -/
theorem idleStepChangesNothing : Obligations.IdleStepChangesNothing := by
  intro s hpending
  simp only [step, take_of_nil hpending]

/-! ## Reset -/

theorem resetWith_atReset (c : Config) : (State.resetWith c).AtReset :=
  ⟨rfl, rfl, by rw [resetWith_msgs, List.length_replicate]; rfl, fun _ hk => resetWith_msg hk⟩

theorem assertReset_atReset (s : State) : s.assertReset.AtReset :=
  ⟨rfl, rfl, by rw [assertReset_msgs, List.length_replicate]; rfl, fun _ hk => assertReset_msg hk⟩

/-- Settles O10: both ways of reset lead to the reset values, and the reset input removes itself from the inputs. -/
theorem resetGivesTheResetValues : Obligations.ResetGivesTheResetValues := by
  refine ⟨fun c => ⟨resetWith_atReset c, rfl⟩, fun s rest hpending => ?_⟩
  exact ⟨_, step_of_reset hpending, assertReset_atReset s, rfl, rfl, rfl⟩

end Sys2Proof.Machine
end

section
/-! Every operation on the state keeps the invariant of Safety.lean, so every command and every step does (10_state.md
rules R22, R26, R27, R36, R41, 40_ring_buffer.md rule R115). -/

namespace Sys2Proof.Machine

/-! ## Message states -/

theorem msgOk_reset (c : Config) (e : CatEntry) : MsgOk c e MsgState.reset :=
  ⟨Nat.two_pow_pos _, List.Pairwise.nil, by simp [MsgState.reset], .inl rfl, by simp [MsgState.reset],
    fun _ => ⟨rfl, rfl⟩⟩

/-- A counter and a flag written, the payload left. -/
theorem msgOk_of_payload {c : Config} {e : CatEntry} {m m' : MsgState} (h : MsgOk c e m)
    (hticks : m'.elapsed < 2 ^ c.tickWidth) (hpayload : m'.payload = m.payload) (hlen : m'.payloadLen = m.payloadLen) :
    MsgOk c e m' := by
  obtain ⟨_, hrest⟩ := h
  refine ⟨hticks, ?_⟩
  rw [hpayload, hlen]
  exact hrest

theorem payloadLen_lt (e : CatEntry) : e.payloadLen < 256 := by
  have := e.length.isLt
  rw [CatEntry.payloadLen]; omega

theorem toNat_payloadLen (e : CatEntry) : (BitVec.ofNat 8 e.payloadLen).toNat = e.payloadLen := by
  rw [BitVec.toNat_ofNat, Nat.mod_eq_of_lt (payloadLen_lt e)]

theorem length_payload_of_frame {e : CatEntry} (he : 1 ≤ e.length.toNat) {frame : List Byte}
    (hframe : e.frameLen ≤ frame.length) : ((frame.drop headerLen).take e.payloadLen).length = e.payloadLen := by
  rw [List.length_take, List.length_drop]
  simp only [CatEntry.frameLen, CatEntry.payloadLen, headerLen] at *
  omega

/-- The message state of an accepted frame that was there in full. -/
theorem msgOk_acceptedMsg {c : Config} {e : CatEntry} {m : MsgState} {frame : List Byte} (h : MsgOk c e m)
    (he : 1 ≤ e.length.toNat) (hframe : e.frameLen ≤ frame.length) : MsgOk c e (acceptedMsg e m frame) := by
  have hsize := length_payload_of_frame he hframe
  rw [acceptedMsg]
  split
  case isTrue hen =>
    obtain ⟨_, hwf, hbound, _⟩ := h
    refine ⟨Nat.two_pow_pos _, memWrite_wf _ _ _ hwf, memWrite_bound _ _ _ _ (by omega) hbound, .inr rfl,
      fun j hj => ?_, fun hdis => by simp [hen] at hdis⟩
    rw [toNat_payloadLen] at hj
    rw [read_memWrite, dif_pos (by omega)]
    rfl
  case isFalse => exact msgOk_of_payload h (Nat.two_pow_pos _) rfl rfl

theorem msg_eq_getElem {s : State} {k : Nat} (h : k < s.msgs.length) : s.msg k = s.msgs[k] := by
  simp [State.msg, List.getD_eq_getElem?_getD, h]

theorem tick_msgs_length (s : State) : s.tick.msgs.length = s.msgs.length := by
  simp [State.tick, flagAll, tickAll]

/-- What a tick leaves of each message state. -/
theorem tick_msg {s : State} {k : Nat} (h : k < s.msgs.length) :
    s.tick.msg k = { s.msg k with
      elapsed := tickCounter s.cfg.tickWidth (s.msg k).elapsed
      busFailed := s.tickFails } := by
  rw [msg_eq_getElem (by rwa [tick_msgs_length]), msg_eq_getElem h]
  simp [State.tick, State.tickFails, flagAll, tickAll]

theorem tickCounter_lt (width elapsed : Nat) : tickCounter width elapsed < 2 ^ width :=
  Nat.mod_lt _ (Nat.two_pow_pos _)

/-! ## The operations on the state -/

theorem inv_bufOk {s : State} (h : s.Inv) (b : Buf) : s.bufOk b := by
  obtain ⟨⟨hrxHead, hrxTail, _⟩, ⟨htxHead, htxTail, _⟩, _⟩ := h
  cases b
  · exact (cursorsInRange_iff _ _).mpr ⟨hrxHead, hrxTail⟩
  · exact (cursorsInRange_iff _ _).mpr ⟨htxHead, htxTail⟩

theorem inv_ringOk {s : State} (h : s.Inv) (b : Buf) : RingOk (s.cap b) (s.ring b) := by
  obtain ⟨hrx, htx, _⟩ := h
  cases b
  · exact hrx
  · exact htx

theorem inv_of_atReset {s : State} (h : s.AtReset) : s.Inv := by
  obtain ⟨hrx, htx, hlen, hmsg⟩ := h
  have hcap (b : Buf) : 0 < s.cap b := by
    have ⟨hlow, _⟩ := config_cap_pos s.cfg b
    exact Nat.lt_of_lt_of_le Nat.two_pos hlow
  refine ⟨?rx, ?tx, hlen, fun k hk => ?msg⟩
  case rx => rw [hrx]; exact ringOk_reset (hcap .rx)
  case tx => rw [htx]; exact ringOk_reset (hcap .tx)
  case msg => rw [hmsg k hk]; exact msgOk_reset _ _

theorem inv_setRing {s : State} (h : s.Inv) {b : Buf} {r : RingBuf} (hr : RingOk (s.cap b) r) :
    (s.setRing b r).Inv := by
  obtain ⟨hrx, htx, hmsgs⟩ := h
  cases b
  · exact ⟨hr, htx, hmsgs⟩
  · exact ⟨hrx, hr, hmsgs⟩

theorem inv_advance {s : State} (h : s.Inv) (b : Buf) (n : Nat) : (s.advance b n).Inv :=
  inv_setRing h (ringOk_advance (inv_ringOk h b) n)

theorem inv_setMsg {s : State} (h : s.Inv) {k : Nat} {m : MsgState} (hm : MsgOk s.cfg (s.cfg.entry k) m) :
    (s.setMsg k m).Inv := by
  obtain ⟨hrx, htx, hlen, hmsg⟩ := h
  refine ⟨hrx, htx, by rwa [setMsg_msgs, List.length_set], fun j hj => ?_⟩
  rw [setMsg_msg]
  split
  case isTrue hjk => rw [hjk.1]; exact hm
  case isFalse => exact hmsg j hj

theorem inv_tick {s : State} (h : s.Inv) : s.tick.Inv := by
  obtain ⟨hrx, htx, hlen, hmsg⟩ := h
  refine ⟨hrx, htx, by rwa [tick_msgs_length], fun k hk => ?_⟩
  rw [tick_msg (by rw [hlen]; exact hk)]
  exact msgOk_of_payload (hmsg k hk) (tickCounter_lt _ _) rfl rfl

theorem inv_acceptFrame {s : State} (h : s.Inv) {i m : Nat} (hm : m < s.cfg.nmsg)
    (hlen : (s.cfg.entry m).frameLen ≤ s.used .rx - i) : (acceptFrame m (s.advance .rx i)).Inv := by
  obtain ⟨he, _⟩ := config_entry_ok s.cfg hm
  have ⟨_, _, _, hmsg⟩ := h
  rw [acceptFrame_at (inv_bufOk h .rx) hm]
  refine inv_setMsg (inv_advance h _ _) ?_
  rw [advance_cfg]
  exact msgOk_acceptedMsg (hmsg m hm) he (by rwa [List.length_drop, contents_length])

/-! ## The commands and the step -/

/-- Every command whose input list has the right length keeps the invariant: its next states, as its lemma of
Laws/Exec.lean lists them, are built by the operations above. -/
theorem exec_keeps_inv {i : Instr} {s t : State} (hwf : i.wf = true) (hs : s.Inv) (h : exec i s = .next t) : t.Inv := by
  cases i with
  | rbPush buf byte =>
    obtain rfl | ⟨b, -, -, rfl⟩ := execRbPush_next h
    · exact hs
    · exact inv_setRing hs (ringOk_pushByte (inv_ringOk hs b) byte)
  | rbPop buf =>
    obtain rfl | ⟨b, -, -, rfl⟩ := execRbPop_next h
    · exact hs
    · exact inv_setRing hs (ringOk_popByte (inv_ringOk hs b))
  | rbPeek buf offset => obtain rfl | ⟨b, -, -, rfl⟩ := execRbPeek_next h <;> exact hs
  | rbAdv buf n =>
    obtain rfl | ⟨b, -, -, rfl⟩ := execRbAdv_next h
    · exact hs
    · exact inv_advance hs b _
  | rbFout buf n =>
    obtain rfl | ⟨b, -, rfl⟩ := execRbFout_next h
    · exact hs
    · exact inv_setRing hs (ringOk_flushOut (inv_ringOk hs b) _)
  | rbFin buf n src =>
    obtain rfl | ⟨b, -, rfl⟩ := execRbFin_next h
    · exact hs
    · exact inv_setRing hs (ringOk_flushIn (inv_ringOk hs b) (beq_iff_eq.mp hwf))
  | rbUsed buf => obtain rfl | ⟨b, -, -, rfl⟩ := execRbUsed_next h <;> exact hs
  | rbReset buf =>
    obtain rfl | ⟨b, -, rfl⟩ := execRbReset_next h
    · exact hs
    · exact inv_setRing hs (ringOk_resetCursors (inv_ringOk hs b))
  | fsScan =>
    obtain rfl | rfl | ⟨-, ⟨j, st, -, -, rfl⟩ | ⟨j, m, -, -, rfl⟩ | ⟨j, m, ⟨-, -, -, -, hm, -⟩, hlen, rfl⟩⟩ :=
      execFsScan_next h
    · exact hs
    · exact hs
    · exact inv_advance hs .rx _
    · exact inv_advance hs .rx _
    · exact inv_acceptFrame hs hm hlen
  | cvCrc n => obtain rfl | rfl | ⟨-, -, -, rfl⟩ := execCvCrc_next h <;> exact hs
  | plRead k off => obtain rfl | rfl | ⟨-, -, -, rfl⟩ := execPlRead_next h <;> exact hs
  | tmTick =>
    obtain rfl | ⟨-, ⟨-, rfl⟩ | ⟨-, rfl⟩⟩ := execTmTick_next h
    · exact hs
    · exact hs
    · exact inv_tick hs
  | tmStat k => obtain rfl | rfl | ⟨-, -, rfl⟩ := execTmStat_next h <;> exact hs
  | tmElapsed k => obtain rfl | rfl | ⟨-, -, rfl⟩ := execTmElapsed_next h <;> exact hs
  | fbBuild sdi k wnull nw nbf words =>
    obtain rfl | rfl | ⟨-, -, -, -, -, src, hlen, rfl⟩ := execFbBuild_next h
    · exact hs
    · exact hs
    · exact inv_setRing (b := .tx) hs (ringOk_flushIn (inv_ringOk hs .tx) hlen)

/-- The host side of the ports is outside the invariant. -/
theorem inv_host {s : State} (h : s.Inv) (p : Port) (rest : List Arrival) (a : Nat) :
    ({ s with port := p, pending := rest, arbiter := a } : State).Inv := h

/-- Settles O11: the reset values meet every clause, the buffers being empty and no payload byte written. -/
theorem resetMeetsTheInvariant : Obligations.ResetMeetsTheInvariant :=
  fun c => inv_of_atReset (resetWith_atReset c)

/-- Settles O12: what the decoder reads is well formed (O2), and a well-formed command keeps the invariant; the reset
input leads to the reset values. -/
theorem everyStepKeepsTheInvariant : Obligations.EveryStepKeepsTheInvariant := by
  intro s t hs h
  obtain rfl | ⟨rest, rfl⟩ | ⟨c, p, rest, a, -, ⟨-, rfl⟩ | ⟨i, hdecode, hexec⟩⟩ := step_next h
  case inl => exact hs
  case inr.inl => exact inv_of_atReset (assertReset_atReset s)
  case inr.inr.inl => exact inv_host hs p rest a
  case inr.inr.inr =>
    obtain ⟨-, hwf⟩ := encodeOfDecodeIsTheWord c i hdecode
    exact exec_keeps_inv hwf (inv_host hs p rest a) hexec

/-! ## Completion -/

/-- The meaning answers a next state. -/
def Completes (r : Result) : Prop := ∃ t, r = .next t

theorem completes_finish (s : State) (st : Status) (v : Word) (d : List Byte) : Completes (finish s st v d) := ⟨_, rfl⟩

theorem completes_withBuffer {buf : BitVec 4} {s : State} {body : Buf → Result} (h : ∀ b, Completes (body b)) :
    Completes (withBuffer buf s body) := by
  rw [withBuffer]
  split
  · exact completes_finish _ _ _ _
  · exact h _

theorem completes_withMessage {k : BitVec 8} {s : State} {body : Nat → Result} (h : ∀ k, Completes (body k)) :
    Completes (withMessage k s body) := by
  rw [withMessage]
  split
  · exact h _
  · exact completes_finish _ _ _ _

theorem completes_withCursors {b : Buf} {s : State} {body : Result} (hb : s.bufOk b) (h : Completes body) :
    Completes (withCursors b s body) := by
  rwa [withCursors_of hb]

theorem completes_mainPortOnly {s : State} {body : Result} (h : Completes body) : Completes (mainPortOnly s body) := by
  rw [mainPortOnly]
  split
  · exact completes_finish _ _ _ _
  · exact h

theorem completes_ite {p : Prop} [Decidable p] {r r' : Result} (h : Completes r) (h' : Completes r') :
    Completes (if p then r else r') := by
  split
  · exact h
  · exact h'

theorem completes_fsScan {s : State} (hb : s.bufOk .rx) : Completes (exec .fsScan s) := by
  refine completes_mainPortOnly (completes_ite (completes_finish _ _ _ _) (completes_withCursors hb ?_))
  dsimp only
  split
  · exact completes_finish _ _ _ _
  · exact completes_finish _ _ _ _
  · exact completes_ite (completes_finish _ _ _ _) (completes_ite (completes_finish _ _ _ _) (completes_finish _ _ _ _))

/-- With the cursors of `TX` in range a build completes, or is refused for a word whose bit 31 is set. -/
theorem completes_fbBuild {sdi : BitVec 4} {k : BitVec 8} {wnull : Bool} {nw : BitVec 8} {nbf : Word}
    {words : List Word} {s : State} (hb : s.bufOk .tx) :
    Completes (exec (.fbBuild sdi k wnull nw nbf words) s) ∨
      (exec (.fbBuild sdi k wnull nw nbf words) s = .refused .parityBitSet ∧ ∃ w ∈ words, w.getLsbD 31 = true) := by
  rcases fbBuildWith_cases Config.crc sdi k wnull nw nbf words s with ⟨_, e⟩ | ⟨_, _, _, e⟩ | ⟨_, _, _, hw, e⟩ |
    ⟨_, _, _, _, hbad, _⟩ | ⟨hp, hh, ha, hw, _⟩
  · exact .inl ⟨_, e⟩
  · exact .inl ⟨_, e⟩
  · exact .inr ⟨e, hw⟩
  · exact absurd hb hbad
  · exact .inl ⟨_, fbBuildWith_builds Config.crc hp hh ha hw hb⟩

/-- With the cursors in range every command completes, but for a build on a word whose bit 31 is set. -/
theorem exec_completes {i : Instr} {s : State} (hrx : s.bufOk .rx) (htx : s.bufOk .tx) :
    Completes (exec i s) ∨ (exec i s = .refused .parityBitSet ∧
      ∃ sdi k wnull nw nbf words, i = .fbBuild sdi k wnull nw nbf words ∧ ∃ w ∈ words, w.getLsbD 31 = true) := by
  have hb (b : Buf) : s.bufOk b := by
    cases b
    · exact hrx
    · exact htx
  cases i with
  | rbPush buf byte =>
    exact .inl (completes_withBuffer fun b => completes_withCursors (hb b) (completes_finish _ _ _ _))
  | rbPop buf => exact .inl (completes_withBuffer fun b => completes_withCursors (hb b) (completes_finish _ _ _ _))
  | rbPeek buf offset =>
    exact .inl (completes_withBuffer fun b => completes_withCursors (hb b) (completes_finish _ _ _ _))
  | rbAdv buf n => exact .inl (completes_withBuffer fun b => completes_withCursors (hb b) (completes_finish _ _ _ _))
  | rbFout buf n => exact .inl (completes_withBuffer fun b => completes_finish _ _ _ _)
  | rbFin buf n src => exact .inl (completes_withBuffer fun b => completes_finish _ _ _ _)
  | rbUsed buf => exact .inl (completes_withBuffer fun b => completes_withCursors (hb b) (completes_finish _ _ _ _))
  | rbReset buf => exact .inl (completes_withBuffer fun b => completes_finish _ _ _ _)
  | fsScan => exact .inl (completes_fsScan hrx)
  | cvCrc n =>
    exact .inl (completes_mainPortOnly (completes_ite (completes_finish _ _ _ _)
      (completes_withCursors hrx (completes_finish _ _ _ _))))
  | plRead k off =>
    exact .inl (completes_mainPortOnly (completes_withMessage fun k =>
      completes_ite (completes_finish _ _ _ _) (completes_finish _ _ _ _)))
  | tmTick => exact .inl (completes_mainPortOnly (completes_ite (completes_finish _ _ _ _) (completes_finish _ _ _ _)))
  | tmStat k => exact .inl (completes_mainPortOnly (completes_withMessage fun k => completes_finish _ _ _ _))
  | tmElapsed k => exact .inl (completes_mainPortOnly (completes_withMessage fun k => completes_finish _ _ _ _))
  | fbBuild sdi k wnull nw nbf words =>
    rcases completes_fbBuild (words := words) htx with hdone | ⟨hrefused, hw⟩
    · exact .inl hdone
    · exact .inr ⟨hrefused, _, _, _, _, _, _, rfl, hw⟩

/-- Settles O13: the invariant puts the cursors in range, and then only the build of `exec_completes` is refused. -/
theorem onlyASetParityBitStopsTheBlock : Obligations.OnlyASetParityBitStopsTheBlock := by
  intro s hs
  rcases take_cases s with htake | ⟨rest, htake⟩ | ⟨c, p, rest, a, htake⟩
  · exact .inl ⟨s, by simp only [step, htake]⟩
  · exact .inl ⟨{ s.assertReset with pending := rest }, by simp only [step, htake]⟩
  · cases hdecode : decode c with
    | none => exact .inl ⟨_, step_of_illegal htake hdecode⟩
    | some i =>
      have ht := inv_host hs p rest a
      have hstep := step_of_command htake hdecode
      rcases exec_completes (i := i) (inv_bufOk ht .rx) (inv_bufOk ht .tx) with
        ⟨t, hdone⟩ | ⟨hrefused, sdi, k, wnull, nw, nbf, words, rfl, hw⟩
      · exact .inl ⟨t, hstep.trans hdone⟩
      · exact .inr ⟨hstep.trans hrefused, c, _, sdi, k, wnull, nw, nbf, words, htake, hdecode, hw⟩

end Sys2Proof.Machine
end

section
/-! What each command answers and what it may write (10_state.md rules R24, R26, R27, R30, 20_memory.md rule R56,
30_encoding.md rules R85, R87, 60_exceptions.md rule R228). -/

namespace Sys2Proof.Machine

/-! ## Answers -/

/-- What every answer of command `i` keeps to: `VAL = 0` off `ST_OK` except for `FS.SCAN`, and an output list only from
`RB.FOUT`. -/
def AnswerFits (i : Instr) (st : Status) (val : Word) (dout : List Byte) : Prop :=
  (st ≠ .ok → i ≠ .fsScan → val = 0#32) ∧ (dout ≠ [] → ∃ buf n, i = .rbFout buf n)

theorem answerFits_ok (i : Instr) (val : Word) : AnswerFits i .ok val [] :=
  ⟨fun h => absurd rfl h, fun h => absurd rfl h⟩

theorem answerFits_zero (i : Instr) (st : Status) : AnswerFits i st 0#32 [] :=
  ⟨fun _ _ => rfl, fun h => absurd rfl h⟩

theorem answerFits_fsScan (st : Status) (val : Word) : AnswerFits .fsScan st val [] :=
  ⟨fun _ h => absurd rfl h, fun h => absurd rfl h⟩

theorem answerFits_rbFout (buf : BitVec 4) (n val : Word) (dout : List Byte) :
    AnswerFits (.rbFout buf n) .ok val dout :=
  ⟨fun h => absurd rfl h, fun _ => ⟨buf, n, rfl⟩⟩

theorem answered_of_eq {s s' : State} {st : Status} {val : Word} {dout : List Byte}
    (hresponses : s'.responses = s.responses) (hport : s'.port = s.port) :
    Answered s (s'.respond st val dout) st val dout := by
  rw [Answered, respond_responses, hresponses, hport]

theorem acceptFrame_responses (m : Nat) (s : State) : (acceptFrame m s).responses = s.responses := by
  simp only [acceptFrame, refreshCounter, advance_responses, setMsg_responses, movePayload]
  split
  · simp
  · split <;> simp

theorem acceptFrame_port (m : Nat) (s : State) : (acceptFrame m s).port = s.port := by
  simp only [acceptFrame, refreshCounter, advance_port, setMsg_port, movePayload]
  split
  · simp
  · split <;> simp

theorem exec_answers {i : Instr} {s t : State} (h : exec i s = .next t) :
    ∃ st val dout, Answered s t st val dout ∧ AnswerFits i st val dout := by
  have hturned {t' : State} {st : Status} (ht : t' = s.respond st 0#32 []) :
      ∃ st val dout, Answered s t' st val dout ∧ AnswerFits i st val dout :=
    ⟨st, 0#32, [], ht ▸ answered_respond _ _ _ _, answerFits_zero _ _⟩
  cases i with
  | rbPush buf byte =>
    obtain ht | ⟨b, -, -, rfl⟩ := execRbPush_next h
    · exact hturned ht
    · exact ⟨_, _, _, answered_setRing _ _ _ _ _ _, answerFits_ok _ _⟩
  | rbPop buf =>
    obtain ht | ⟨b, -, -, rfl⟩ := execRbPop_next h
    · exact hturned ht
    · exact ⟨_, _, _, answered_setRing _ _ _ _ _ _, answerFits_ok _ _⟩
  | rbPeek buf offset =>
    obtain ht | ⟨b, -, -, rfl⟩ := execRbPeek_next h
    · exact hturned ht
    · exact ⟨_, _, _, answered_respond _ _ _ _, answerFits_ok _ _⟩
  | rbAdv buf n =>
    obtain ht | ⟨b, -, -, rfl⟩ := execRbAdv_next h
    · exact hturned ht
    · exact ⟨_, _, _, answered_advance_respond _ _ _ _ _ _, answerFits_ok _ _⟩
  | rbFout buf n =>
    obtain ht | ⟨b, -, rfl⟩ := execRbFout_next h
    · exact hturned ht
    · exact ⟨_, _, _, answered_setRing _ _ _ _ _ _, answerFits_rbFout _ _ _ _⟩
  | rbFin buf n src =>
    obtain ht | ⟨b, -, rfl⟩ := execRbFin_next h
    · exact hturned ht
    · exact ⟨_, _, _, answered_setRing _ _ _ _ _ _, answerFits_ok _ _⟩
  | rbUsed buf =>
    obtain ht | ⟨b, -, -, rfl⟩ := execRbUsed_next h
    · exact hturned ht
    · exact ⟨_, _, _, answered_respond _ _ _ _, answerFits_ok _ _⟩
  | rbReset buf =>
    obtain ht | ⟨b, -, rfl⟩ := execRbReset_next h
    · exact hturned ht
    · exact ⟨_, _, _, answered_setRing _ _ _ _ _ _, answerFits_ok _ _⟩
  | fsScan =>
    obtain ht | ht | ⟨-, ⟨j, st, -, -, rfl⟩ | ⟨j, m, -, -, rfl⟩ | ⟨j, m, -, -, rfl⟩⟩ := execFsScan_next h
    · exact hturned ht
    · exact hturned ht
    · exact ⟨_, _, _, answered_advance_respond _ _ _ _ _ _, answerFits_fsScan _ _⟩
    · exact ⟨_, _, _, answered_advance_respond _ _ _ _ _ _, answerFits_fsScan _ _⟩
    · exact ⟨_, _, _, answered_of_eq (by simp [acceptFrame_responses]) (by simp [acceptFrame_port]),
        answerFits_fsScan _ _⟩
  | cvCrc n =>
    obtain ht | ht | ⟨-, -, -, rfl⟩ := execCvCrc_next h
    · exact hturned ht
    · exact hturned ht
    · exact ⟨_, _, _, answered_respond _ _ _ _, answerFits_ok _ _⟩
  | plRead k off =>
    obtain ht | ht | ⟨-, -, -, rfl⟩ := execPlRead_next h
    · exact hturned ht
    · exact hturned ht
    · exact ⟨_, _, _, answered_respond _ _ _ _, answerFits_ok _ _⟩
  | tmTick =>
    obtain ht | ⟨-, ⟨-, rfl⟩ | ⟨-, rfl⟩⟩ := execTmTick_next h
    · exact hturned ht
    · exact ⟨_, _, _, answered_respond _ _ _ _, answerFits_ok _ _⟩
    · exact ⟨_, _, _, answered_of_eq rfl rfl, answerFits_ok _ _⟩
  | tmStat k =>
    obtain ht | ht | ⟨-, -, rfl⟩ := execTmStat_next h
    · exact hturned ht
    · exact hturned ht
    · exact ⟨_, _, _, answered_respond _ _ _ _, answerFits_ok _ _⟩
  | tmElapsed k =>
    obtain ht | ht | ⟨-, -, rfl⟩ := execTmElapsed_next h
    · exact hturned ht
    · exact hturned ht
    · exact ⟨_, _, _, answered_respond _ _ _ _, answerFits_ok _ _⟩
  | fbBuild sdi k wnull nw nbf words =>
    obtain ht | ht | ⟨-, -, -, -, -, src, -, rfl⟩ := execFbBuild_next h
    · exact hturned ht
    · exact hturned ht
    · exact ⟨_, _, _, answered_of_eq (by simp) (by simp), answerFits_ok _ _⟩

theorem responseWord_status (st : Status) (val : Word) : (responseWord st val).extractLsb' 56 8 = st.code := by
  have hfront : (responseWord st val).extractLsb' 56 8 = (st.code ++ 0#24).extractLsb' 24 8 :=
    BitVec.extractLsb'_append_eq_of_le (by decide)
  rw [hfront, BitVec.extractLsb'_append_eq_left]

theorem responseWord_reserved (st : Status) (val : Word) : (responseWord st val).extractLsb' 32 24 = 0#24 := by
  have hfront : (responseWord st val).extractLsb' 32 24 = (st.code ++ 0#24).extractLsb' 0 24 :=
    BitVec.extractLsb'_append_eq_of_le (by decide)
  rw [hfront, BitVec.extractLsb'_append_eq_right]

theorem responseWord_val (st : Status) (val : Word) : (responseWord st val).extractLsb' 0 32 = val :=
  BitVec.extractLsb'_append_eq_right

/-- Settles O17: what each command answers (`exec_answers`), in the layout of the response word. -/
theorem everyCommandReturnsOneResponse : Obligations.EveryCommandReturnsOneResponse := by
  intro i s t h
  obtain ⟨st, val, dout, hanswer, hval, hdout⟩ := exec_answers h
  exact ⟨st, val, dout, hanswer, responseWord_status st val, responseWord_reserved st val, responseWord_val st val,
    hval, hdout⟩

/-! ## Read-outs -/

/-- Settles O18: what each of the six commands leaves is its state with a response. -/
theorem readOutsChangeNoState : Obligations.ReadOutsChangeNoState := by
  intro i s t hi h
  obtain ⟨buf, o, rfl⟩ | ⟨buf, rfl⟩ | ⟨n, rfl⟩ | ⟨k, o, rfl⟩ | ⟨k, rfl⟩ | ⟨k, rfl⟩ := hi
  · obtain rfl | ⟨b, -, -, rfl⟩ := execRbPeek_next h <;> exact onlyAnswers_respond _ _ _ _
  · obtain rfl | ⟨b, -, -, rfl⟩ := execRbUsed_next h <;> exact onlyAnswers_respond _ _ _ _
  · obtain rfl | rfl | ⟨-, -, -, rfl⟩ := execCvCrc_next h <;> exact onlyAnswers_respond _ _ _ _
  · obtain rfl | rfl | ⟨-, -, -, rfl⟩ := execPlRead_next h <;> exact onlyAnswers_respond _ _ _ _
  · obtain rfl | rfl | ⟨-, -, rfl⟩ := execTmStat_next h <;> exact onlyAnswers_respond _ _ _ _
  · obtain rfl | rfl | ⟨-, -, rfl⟩ := execTmElapsed_next h <;> exact onlyAnswers_respond _ _ _ _

/-! ## Message states -/

/-- No command but the scan and the tick writes a message state. -/
theorem exec_keeps_msgs {i : Instr} {s t : State} (hscan : i ≠ .fsScan) (htick : i ≠ .tmTick)
    (h : exec i s = .next t) : t.msgs = s.msgs := by
  cases i with
  | rbPush buf byte => obtain rfl | ⟨b, -, -, rfl⟩ := execRbPush_next h <;> simp
  | rbPop buf => obtain rfl | ⟨b, -, -, rfl⟩ := execRbPop_next h <;> simp
  | rbPeek buf offset => obtain rfl | ⟨b, -, -, rfl⟩ := execRbPeek_next h <;> simp
  | rbAdv buf n => obtain rfl | ⟨b, -, -, rfl⟩ := execRbAdv_next h <;> simp
  | rbFout buf n => obtain rfl | ⟨b, -, rfl⟩ := execRbFout_next h <;> simp
  | rbFin buf n src => obtain rfl | ⟨b, -, rfl⟩ := execRbFin_next h <;> simp
  | rbUsed buf => obtain rfl | ⟨b, -, -, rfl⟩ := execRbUsed_next h <;> simp
  | rbReset buf => obtain rfl | ⟨b, -, rfl⟩ := execRbReset_next h <;> simp
  | fsScan => exact absurd rfl hscan
  | cvCrc n => obtain rfl | rfl | ⟨-, -, -, rfl⟩ := execCvCrc_next h <;> simp
  | plRead k off => obtain rfl | rfl | ⟨-, -, -, rfl⟩ := execPlRead_next h <;> simp
  | tmTick => exact absurd rfl htick
  | tmStat k => obtain rfl | rfl | ⟨-, -, rfl⟩ := execTmStat_next h <;> simp
  | tmElapsed k => obtain rfl | rfl | ⟨-, -, rfl⟩ := execTmElapsed_next h <;> simp
  | fbBuild sdi k wnull nw nbf words =>
    obtain rfl | rfl | ⟨-, -, -, -, -, src, -, rfl⟩ := execFbBuild_next h <;> simp

/-- What accepting a frame writes in the message states: entry `m`, whose flag stays and whose counter is zeroed. -/
theorem acceptFrame_msg {s : State} {i m : Nat} (hb : s.bufOk .rx) (hm : m < s.cfg.nmsg) (k : Nat) :
    (acceptFrame m (s.advance .rx i)).msg k =
      if k = m ∧ m < s.msgs.length then acceptedMsg (s.cfg.entry m) (s.msg m) ((s.contents .rx).drop i)
      else s.msg k := by
  rw [acceptFrame_at hb hm, setMsg_msg, advance_msgs, advance_msg]

@[simp] theorem acceptedMsg_elapsed (e : CatEntry) (old : MsgState) (frame : List Byte) :
    (acceptedMsg e old frame).elapsed = 0 := by
  rw [acceptedMsg]; split <;> rfl

@[simp] theorem acceptedMsg_busFailed (e : CatEntry) (old : MsgState) (frame : List Byte) :
    (acceptedMsg e old frame).busFailed = old.busFailed := by
  rw [acceptedMsg]; split <;> rfl

theorem acceptedMsg_of_no_store {e : CatEntry} (h : e.payloadEn = false) (old : MsgState) (frame : List Byte) :
    acceptedMsg e old frame = { old with elapsed := 0 } := by
  rw [acceptedMsg, if_neg (by simp [h])]

/-- Settles O15: only the scan and the tick write message states at all (`exec_keeps_msgs`), and the scan only by
accepting a frame (`acceptFrame_msg`). -/
theorem messageStateWriters : Obligations.MessageStateWriters := by
  intro i s t k htick h
  by_cases hscan : i = .fsScan
  case neg =>
    have hmsg : t.msg k = s.msg k := by rw [State.msg, exec_keeps_msgs hscan htick h]; rfl
    exact ⟨by rw [hmsg], .inl hmsg⟩
  case pos =>
    subst hscan
    obtain rfl | rfl | ⟨⟨-, -, hb⟩, ⟨j, st, -, -, rfl⟩ | ⟨j, m, -, -, rfl⟩ | ⟨j, m, ⟨-, -, -, -, hm, -⟩, hlen, rfl⟩⟩ :=
      execFsScan_next h
    · exact ⟨rfl, .inl rfl⟩
    · exact ⟨rfl, .inl rfl⟩
    · rw [respond_msg, advance_msg]
      exact ⟨rfl, .inl rfl⟩
    · rw [respond_msg, advance_msg]
      exact ⟨rfl, .inl rfl⟩
    · rw [respond_msg, acceptFrame_msg hb hm]
      split
      case isFalse => exact ⟨rfl, .inl rfl⟩
      case isTrue hk =>
        obtain ⟨rfl, -⟩ := hk
        refine ⟨acceptedMsg_busFailed _ _ _, .inr ⟨rfl, acceptedMsg_elapsed _ _ _, ⟨j, ?answer⟩, fun hen => ?store⟩⟩
        case answer => exact answered_of_eq (by simp [acceptFrame_responses]) (by simp [acceptFrame_port])
        case store =>
          rw [acceptedMsg_of_no_store hen]
          exact ⟨rfl, rfl⟩

/-- On the T port no command at all writes a message state. -/
theorem exec_transport_keeps_msgs {i : Instr} {s t : State} (hp : s.port = .T) (h : exec i s = .next t) :
    t.msgs = s.msgs := by
  have hillegal {body : Result} (h : mainPortOnly s body = .next t) : t.msgs = s.msgs := by
    rw [mainPortOnly_transport hp] at h
    cases h
    rfl
  by_cases hscan : i = .fsScan
  · subst hscan; exact hillegal h
  · by_cases htick : i = .tmTick
    · subst htick; exact hillegal h
    · exact exec_keeps_msgs hscan htick h

/-- Settles O19: the step runs the command on the T port or answers it as illegal. -/
theorem transportPortNeverChangesMessages : Obligations.TransportPortNeverChangesMessages := by
  intro s t c rest hpending h
  have htake := take_of_command (p := .T) (c := c) hpending
  cases hdecode : decode c with
  | none =>
    rw [step_of_illegal htake hdecode] at h
    cases h
    rfl
  | some i =>
    rw [step_of_command htake hdecode] at h
    have hmsgs := exec_transport_keeps_msgs rfl h
    exact hmsgs

/-! ## Commands turned away -/

/-- Settles O20: `mainPortOnly` answers on the T port, and `FB.BUILD` needs a builder. -/
theorem commandsWithoutTheRightAreIllegal : Obligations.CommandsWithoutTheRightAreIllegal := by
  intro i s h
  refine ⟨s.respond .illegalCmd 0#32 [], ?_, onlyAnswers_respond _ _ _ _, answered_respond _ _ _ _⟩
  obtain ⟨hp, rfl | ⟨n, rfl⟩ | ⟨k, o, rfl⟩ | rfl | ⟨k, rfl⟩ | ⟨k, rfl⟩ | ⟨sdi, k, wnull, nw, nbf, words, rfl⟩⟩ |
    ⟨hbuilder, sdi, k, wnull, nw, nbf, words, rfl⟩ := h
  case inr =>
    rcases fbBuildWith_cases Config.crc sdi k wnull nw nbf words s with ⟨_, e⟩ | ⟨_, hh, _⟩ | ⟨_, hh, _⟩ | ⟨_, hh, _⟩ |
      ⟨_, hh, _⟩
    · exact e
    all_goals simp [hbuilder] at hh
  all_goals exact mainPortOnly_transport hp _

theorem raised_invalid {r : Result} {s : State} (h : r = .next (s.respond .invalidArg 0#32 [])) :
    ∃ t, r = .next t ∧ OnlyAnswers s t ∧ Answered s t .invalidArg 0#32 [] :=
  ⟨_, h, onlyAnswers_respond _ _ _ _, answered_respond _ _ _ _⟩

/-- Settles O21: every ring-buffer command begins with `withBuffer`. -/
theorem badBufferIsAnInvalidArgument : Obligations.BadBufferIsAnInvalidArgument := by
  intro i buf s hbuf hi
  refine raised_invalid ?_
  obtain ⟨byte, rfl⟩ | rfl | ⟨o, rfl⟩ | ⟨n, rfl⟩ | ⟨n, rfl⟩ | ⟨n, src, rfl⟩ | rfl | rfl := hi <;>
    exact withBuffer_bad hbuf s _

/-- Settles O43: the check of `CAT_VALID` comes before the search. -/
theorem scanWithoutACatalogIsInvalid : Obligations.ScanWithoutACatalogIsInvalid := by
  intro s hp hvalid
  refine raised_invalid ((mainPortOnly_main hp _).trans ?_)
  rw [if_pos hvalid, raiseInvalidArgument_eq]

end Sys2Proof.Machine
end

section
/-! The ring-buffer commands run forward: one equation per command for a named buffer with its cursors in range, what
the response and the storage then hold, and commands that are refused or reset a corrupted buffer (40_ring_buffer.md
sections 1 to 8). -/

namespace Sys2Proof.Machine

/-! ## The parts of the state a ring-buffer command leaves -/

@[simp] theorem respond_dataByte (s : State) (st : Status) (v : Word) (d : List Byte) (b : Buf) (p : Nat) :
    (s.respond st v d).dataByte b p = s.dataByte b p := rfl

@[simp] theorem setRing_dataByte (s : State) (b : Buf) (r : RingBuf) (p : Nat) :
    (s.setRing b r).dataByte b p = Memory.byteAt (s.initial (.data b)) r.data p := by cases b <;> rfl

theorem dataByte_eq (s : State) (b : Buf) (p : Nat) :
    s.dataByte b p = Memory.byteAt (s.initial (.data b)) (s.ring b).data p := rfl

theorem bufOk_cursors {s : State} {b : Buf} (h : s.bufOk b) : (s.ring b).head < s.cap b ∧ (s.ring b).tail < s.cap b :=
  (cursorsInRange_iff _ _).mp h

/-! ## The commands as equations -/

section
variable {buf : BitVec 4} {b : Buf} {s : State}

theorem exec_rbPush (hbuf : bufOf buf = some b) (h : s.bufOk b) (byte : Byte) : exec (.rbPush buf byte) s =
    .next ((s.setRing b (pushByte (s.cap b) (s.ring b) byte)).respond .ok 0#32 []) :=
  (withBuffer_of hbuf s _).trans (withCursors_of h _)

theorem exec_rbPop (hbuf : bufOf buf = some b) (h : s.bufOk b) : exec (.rbPop buf) s =
    .next ((s.setRing b (popByte (s.cap b) (s.initial (.data b)) (s.ring b)).2).respond .ok
      (valOfByte (popByte (s.cap b) (s.initial (.data b)) (s.ring b)).1) []) :=
  (withBuffer_of hbuf s _).trans (withCursors_of h _)

theorem exec_rbPeek (hbuf : bufOf buf = some b) (h : s.bufOk b) (offset : Word) : exec (.rbPeek buf offset) s =
    .next (s.respond .ok (valOfByte (s.peek b offset.toNat)) []) :=
  (withBuffer_of hbuf s _).trans (withCursors_of h _)

theorem exec_rbAdv (hbuf : bufOf buf = some b) (h : s.bufOk b) (n : Word) : exec (.rbAdv buf n) s =
    .next ((s.advance b n.toNat).respond .ok 0#32 []) :=
  (withBuffer_of hbuf s _).trans (withCursors_of h _)

theorem exec_rbUsed (hbuf : bufOf buf = some b) (h : s.bufOk b) : exec (.rbUsed buf) s =
    .next (s.respond .ok (valOfNat (s.used b)) []) :=
  (withBuffer_of hbuf s _).trans (withCursors_of h _)

theorem exec_rbReset (hbuf : bufOf buf = some b) : exec (.rbReset buf) s =
    .next ((s.setRing b (resetCursors (s.ring b))).respond .ok 0#32 []) :=
  withBuffer_of hbuf s _

theorem exec_rbFout (hbuf : bufOf buf = some b) (n : Word) : exec (.rbFout buf n) s =
    .next ((s.setRing b (flushOut (s.cap b) (s.initial (.data b)) (s.ring b) n.toNat).ring).respond .ok
      (valOfNat (flushOut (s.cap b) (s.initial (.data b)) (s.ring b) n.toNat).count)
      (flushOut (s.cap b) (s.initial (.data b)) (s.ring b) n.toNat).dest) :=
  withBuffer_of hbuf s _

theorem exec_rbFin (hbuf : bufOf buf = some b) (n : Word) (src : List Byte) : exec (.rbFin buf n src) s =
    .next ((s.setRing b (flushIn (s.cap b) (s.ring b) src n.toNat).ring).respond .ok
      (valOfNat (flushIn (s.cap b) (s.ring b) src n.toNat).count) []) :=
  withBuffer_of hbuf s _

/-- `RB.FOUT` of more than `CAP` bytes. -/
theorem exec_rbFout_too_long (hbuf : bufOf buf = some b) {n : Word} (hn : s.cap b < n.toNat) :
    exec (.rbFout buf n) s = .next (s.respond .ok 0#32 []) := by
  rw [exec_rbFout hbuf, flushOut, if_pos hn, setRing_self]
  rfl

/-- `RB.FOUT` of at most `CAP` bytes with the cursors in range. -/
theorem exec_rbFout_fits (hbuf : bufOf buf = some b) (h : s.bufOk b) {n : Word} (hn : n.toNat ≤ s.cap b) :
    exec (.rbFout buf n) s = .next ((s.advance b n.toNat).respond .ok (BitVec.ofNat 32 (min n.toNat (s.used b)))
      ((s.contents b).take n.toNat)) := by
  obtain ⟨hhead, htail⟩ := bufOk_cursors h
  rw [exec_rbFout hbuf]
  obtain ⟨hgt, _⟩ | ⟨_, hflush⟩ := flushOut_cases (s.cap b) (s.initial (.data b)) (s.ring b) n.toNat hhead htail
  · omega
  · rw [hflush]
    rfl

/-- `RB.FIN` of more than `CAP` bytes. -/
theorem exec_rbFin_too_long (hbuf : bufOf buf = some b) {n : Word} (hn : s.cap b < n.toNat) (src : List Byte) :
    exec (.rbFin buf n src) s = .next (s.respond .ok 0#32 []) := by
  rw [exec_rbFin hbuf, flushIn, if_pos hn, setRing_self]
  rfl

end

/-! ## Pushing and popping -/

/-- Settles O22: the buffer is full or takes the byte at its head (`pushByte_cases`, `ringContents_pushByte`). -/
theorem rbPushAppendsOrDrops : Obligations.RbPushAppendsOrDrops := by
  intro buf b byte s hbuf h
  obtain ⟨hhead, htail⟩ := bufOk_cursors h
  have hfull := full_iff hhead htail
  refine ⟨_, exec_rbPush hbuf h byte, onlyRing_respond _ _ _ _ _ _, answered_setRing _ _ _ _ _ _, ?_⟩
  simp only [respond_ring, setRing_ring, respond_contents, setRing_contents, respond_dataByte, setRing_dataByte]
  obtain ⟨hfree, hpush⟩ | ⟨hfree, hpush⟩ := pushByte_cases (s.cap b) (s.ring b) byte hhead htail
  case inl =>
    rw [hpush]
    exact ⟨rfl, fun _ => rfl, fun hroom => absurd (hfull.mpr hfree).symm hroom⟩
  case inr =>
    have hcontents := ringContents_pushByte (s.cap b) (s.initial (.data b)) (s.ring b) byte hhead htail hfree
    rw [hpush] at hcontents ⊢
    refine ⟨rfl, fun hdrop => absurd (hfull.mp hdrop.symm) hfree.ne',
      fun _ => ⟨hcontents, rfl, ?stored, fun p hp => ?rest⟩⟩
    case stored => rw [byteAt_write, if_pos rfl]
    case rest => rw [byteAt_write, if_neg hp, dataByte_eq]

/-- What popping a buffer that holds something takes and leaves. -/
theorem popByte_of_held {cap : Nat} {r : RingBuf} (fill : Nat → Byte) (hhead : r.head < cap) (htail : r.tail < cap)
    (hne : r.head ≠ r.tail) :
    popByte cap fill r = (Memory.byteAt fill r.data r.tail, { r with tail := (r.tail + 1) % cap }) ∧
      ringContents cap fill r = Memory.byteAt fill r.data r.tail ::
        ringContents cap fill { r with tail := (r.tail + 1) % cap } := by
  have hused : 0 < used cap r := Nat.pos_of_ne_zero fun hzero => hne ((empty_iff hhead htail).mpr hzero)
  refine ⟨by rw [popByte, if_neg hne], ?_⟩
  have hlen : 0 < (ringContents cap fill r).length := by rwa [ringContents_length]
  rw [ringContents_consume cap fill r 1 hhead htail hused, List.drop_one]
  conv_lhs => rw [← List.cons_head_tail (List.ne_nil_of_length_pos hlen)]
  rw [List.head_eq_getElem, ringContents_getElem, peek, Nat.add_zero, Nat.mod_eq_of_lt htail]

theorem popByte_of_empty {cap : Nat} {r : RingBuf} (fill : Nat → Byte) (h : r.head = r.tail) :
    popByte cap fill r = (0#8, r) := by rw [popByte, if_pos h]

/-- Settles O23: an empty buffer answers the sentinel, and one that holds something its first byte. -/
theorem rbPopTakesTheFirstByte : Obligations.RbPopTakesTheFirstByte := by
  intro buf b s hbuf h
  obtain ⟨hhead, htail⟩ := bufOk_cursors h
  refine ⟨_, exec_rbPop hbuf h, onlyRing_respond _ _ _ _ _ _, ?_⟩
  simp only [respond_ring, setRing_ring, respond_contents, setRing_contents]
  by_cases hempty : (s.ring b).head = (s.ring b).tail
  case pos =>
    rw [popByte_of_empty _ hempty]
    exact ⟨rfl, rfl, fun _ => ⟨rfl, answered_setRing _ _ _ _ _ _⟩, fun hne => absurd hempty hne⟩
  case neg =>
    obtain ⟨hpop, hcontents⟩ := popByte_of_held (s.initial (.data b)) hhead htail hempty
    rw [hpop]
    exact ⟨rfl, rfl, fun he => absurd he hempty, fun _ => ⟨rfl, _, hcontents, answered_setRing _ _ _ _ _ _⟩⟩

/-! ## Read-outs, advancing and resetting -/

/-- Settles O24: the byte peeked is by definition the one at the reduced index, and the unread byte where there is one. -/
theorem rbPeekReadsWithoutConsuming : Obligations.RbPeekReadsWithoutConsuming := by
  intro buf b offset s hbuf h
  refine ⟨_, exec_rbPeek hbuf h offset, onlyAnswers_respond _ _ _ _, answered_respond _ _ _ _, fun v hv => ?_⟩
  obtain ⟨hlt, hv⟩ := List.getElem?_eq_some_iff.mp hv
  rw [← hv, contents_getElem]
  exact answered_respond _ _ _ _

theorem append_zeros_8_12 (x : BitVec 12) : x ++ 0#8 ++ 0#12 = x ++ 0#20 := BitVec.append_assoc

theorem append_zeros_20_32 (x : BitVec 12) : x ++ 0#20 ++ 0#32 = x ++ 0#52 := BitVec.append_assoc

/-- The command word of format BO (rule R82). -/
theorem wordOfFields_formatBO (opc : BitVec 8) (buf : BitVec 4) (opd : Word) :
    wordOfFields ⟨opc, buf, 0#8, 0#12, opd⟩ = opc ++ buf ++ 0#20 ++ opd :=
  congrArg (· ++ opd) (append_zeros_8_12 (opc ++ buf))

/-- The command word of format B (rule R82). -/
theorem wordOfFields_formatB (opc : BitVec 8) (buf : BitVec 4) :
    wordOfFields ⟨opc, buf, 0#8, 0#12, 0#32⟩ = opc ++ buf ++ 0#52 :=
  (wordOfFields_formatBO opc buf 0#32).trans (append_zeros_20_32 (opc ++ buf))

theorem advance_all_tail {s : State} {b : Buf} (h : s.bufOk b) {n : Nat} (hn : s.used b ≤ n) :
    (Machine.advance (s.cap b) (s.ring b) n).tail = (s.ring b).head := by
  obtain ⟨hhead, htail⟩ := bufOk_cursors h
  rw [Machine.advance, Nat.min_eq_right (show Machine.used (s.cap b) (s.ring b) ≤ n from hn)]
  exact tail_add_used hhead htail

/-- Settles O25: the tail advances by `min(n, Used)`, which drops that many bytes (`advance_contents`). -/
theorem rbAdvDropsAtMostUsedBytes : Obligations.RbAdvDropsAtMostUsedBytes := by
  refine ⟨fun buf b n s hbuf h => ?effect, fun buf n s hbuf => raised_invalid (withBuffer_bad hbuf s _),
    fun buf n => wordOfFields_formatBO _ _ _⟩
  case effect =>
    refine ⟨_, exec_rbAdv hbuf h n, onlyRing_respond _ _ _ _ _ _, answered_advance_respond _ _ _ _ _ _, ?_⟩
    simp only [respond_ring, respond_contents, advance_ring, advance_contents h]
    exact ⟨rfl, rfl, rfl, trivial, advance_all_tail h⟩

/-- `Used` is the distance from the tail to the head modulo `CAP`. -/
theorem used_eq_mod {cap : Nat} {r : RingBuf} (hhead : r.head < cap) (htail : r.tail < cap) :
    used cap r = (r.head + cap - r.tail) % cap := by
  rw [used]
  split
  case isTrue hle => rw [Nat.sub_add_comm hle, Nat.add_mod_right, Nat.mod_eq_of_lt (by omega)]
  case isFalse hlt => rw [Nat.mod_eq_of_lt (by omega)]; omega

/-- Settles O28: the two cases are those of `Used`, and the remainder is `used_eq_mod`. -/
theorem rbUsedCountsAcrossTheWrap : Obligations.RbUsedCountsAcrossTheWrap := by
  refine ⟨fun buf b s hbuf h => ?effect, fun buf s hbuf => raised_invalid (withBuffer_bad hbuf s _),
    fun buf => wordOfFields_formatB _ _⟩
  case effect =>
    obtain ⟨hhead, htail⟩ := bufOk_cursors h
    have hlt := used_lt hhead htail
    refine ⟨_, s.used b, exec_rbUsed hbuf h, onlyAnswers_respond _ _ _ _, answered_respond _ _ _ _,
      fun hle => if_pos hle, fun hgt => if_neg (Nat.not_le.mpr hgt), Nat.le_sub_one_of_lt hlt, (empty_iff hhead htail).symm,
      used_eq_mod hhead htail, (contents_length s b).symm⟩

/-- Settles O29: the cursors are replaced whatever they were, and equal cursors hold nothing. -/
theorem rbResetZeroesTheCursorsOnly : Obligations.RbResetZeroesTheCursorsOnly := by
  refine ⟨fun buf b s hbuf => ?effect, fun buf s hbuf => raised_invalid (withBuffer_bad hbuf s _),
    fun buf => wordOfFields_formatB _ _⟩
  case effect =>
    refine ⟨_, exec_rbReset hbuf, onlyRing_respond _ _ _ _ _ _, answered_setRing _ _ _ _ _ _, ?_⟩
    simp only [respond_ring, setRing_ring, respond_contents, setRing_contents]
    refine ⟨rfl, rfl, rfl, List.eq_nil_of_length_eq_zero ?_⟩
    rw [ringContents_length, resetCursors, used_self]

/-! ## Moving runs of bytes -/

/-- Settles O26: with cursors in range `FlushOut` advances past what it copies (`exec_rbFout_fits`). -/
theorem rbFoutCopiesOutInOrder : Obligations.RbFoutCopiesOutInOrder := by
  intro buf b n s hbuf h
  by_cases hn : s.cap b < n.toNat
  case pos =>
    refine ⟨_, exec_rbFout_too_long hbuf hn, ?_, rfl, rfl, fun _ => ⟨rfl, answered_respond _ _ _ _⟩,
      fun hle => by omega⟩
    have honly := onlyRing_respond s b (s.ring b) .ok 0#32 []
    rwa [setRing_self] at honly
  case neg =>
    refine ⟨_, exec_rbFout_fits hbuf h (by omega), onlyRing_respond _ _ _ _ _ _, ?_⟩
    simp only [respond_ring, respond_contents, advance_ring, advance_contents h]
    exact ⟨rfl, rfl, fun hgt => absurd hgt hn, fun _ => ⟨trivial, answered_advance_respond _ _ _ _ _ _⟩⟩

section
variable {cap n : Nat} {r : RingBuf}

theorem flushIn_tail (hhead : r.head < cap) (htail : r.tail < cap) (src : List Byte) :
    (flushIn cap r src n).ring.tail = r.tail := by
  obtain ⟨_, hflush⟩ | ⟨_, hflush⟩ := flushIn_cases cap r src n hhead htail <;> rw [hflush]

theorem flushIn_count (hhead : r.head < cap) (htail : r.tail < cap) (src : List Byte) (hn : n ≤ cap) :
    (flushIn cap r src n).count = min n (free cap r) := by
  obtain ⟨hgt, _⟩ | ⟨_, hflush⟩ := flushIn_cases cap r src n hhead htail
  · omega
  · rw [hflush]

/-- Outside the slots it fills, `FlushIn` writes nothing. -/
theorem byteAt_flushIn_other (fill : Nat → Byte) (hhead : r.head < cap) (htail : r.tail < cap) (src : List Byte)
    {p : Nat} (hp : ∀ j < min n (free cap r), p ≠ (r.head + j) % cap) :
    Memory.byteAt fill (flushIn cap r src n).ring.data p = Memory.byteAt fill r.data p := by
  have hroom := used_add_free hhead htail
  obtain ⟨_, hflush⟩ | ⟨_, hflush⟩ := flushIn_cases cap r src n hhead htail <;> rw [hflush]
  simp only [Memory.byteAt, read_writeRange_other r.data src hhead (show min n (free cap r) ≤ cap by omega) p
    fun j hj => (hp j hj).symm]

end

/-- Settles O27: with cursors in range `FlushIn` stores what fits from the head on (`flushIn_cases`,
`ringContents_flushIn`). -/
theorem rbFinCopiesInWhatFits : Obligations.RbFinCopiesInWhatFits := by
  intro buf b n src s hbuf h hlen
  obtain ⟨hhead, htail⟩ := bufOk_cursors h
  refine ⟨_, exec_rbFin hbuf n src, onlyRing_respond _ _ _ _ _ _, ?_⟩
  simp only [respond_ring, setRing_ring, respond_contents, setRing_contents, respond_dataByte, setRing_dataByte]
  refine ⟨flushIn_tail hhead htail src, fun hgt => ?too_long, fun hle => ⟨?bytes, ?answer, fun p hp => ?rest⟩⟩
  case too_long =>
    rw [flushIn, if_pos hgt]
    exact ⟨rfl, answered_setRing _ _ _ _ _ _⟩
  case bytes => exact ringContents_flushIn _ _ _ src _ hhead htail hle hlen
  case answer =>
    rw [flushIn_count hhead htail src hle]
    exact answered_setRing _ _ _ _ _ _
  case rest => exact byteAt_flushIn_other _ hhead htail src hp

/-! ## Corrupted cursors -/

theorem flushOut_of_corrupted {cap n : Nat} {r : RingBuf} (fill : Nat → Byte) (h : ¬ cursorsInRange cap r = true)
    (hn : n ≤ cap) : flushOut cap fill r n = { count := 0, dest := [], ring := resetCursors r } := by
  rw [flushOut, if_neg (by omega), if_pos (by simpa using h)]

theorem flushIn_of_corrupted {cap n : Nat} {r : RingBuf} (src : List Byte) (h : ¬ cursorsInRange cap r = true)
    (hn : n ≤ cap) : flushIn cap r src n = { count := 0, ring := resetCursors r } := by
  rw [flushIn, if_neg (by omega), if_pos (by simpa using h)]

/-- What the defensive check answers, from the buffer it leaves. -/
theorem answers_zero_with_ring {r : Result} {s : State} {b : Buf} {ring : RingBuf}
    (h : r = .next ((s.setRing b ring).respond .ok 0#32 [])) :
    ∃ t, r = .next t ∧ OnlyRing b s t ∧ Answered s t .ok 0#32 [] ∧ t.ring b = ring :=
  ⟨_, h, onlyRing_respond _ _ _ _ _ _, answered_setRing _ _ _ _ _ _, by rw [respond_ring, setRing_ring]⟩

/-- Settles O30: the length check comes first, then the check of the cursors. -/
theorem corruptedCursorsAreResetDefensively : Obligations.CorruptedCursorsAreResetDefensively := by
  intro i buf b n s hbuf hbad hi
  by_cases hn : s.cap b < n.toNat
  case pos =>
    have hexec : exec i s = .next ((s.setRing b (s.ring b)).respond .ok 0#32 []) := by
      rw [setRing_self]
      obtain rfl | ⟨src, rfl⟩ := hi
      · exact exec_rbFout_too_long hbuf hn
      · exact exec_rbFin_too_long hbuf hn src
    obtain ⟨t, ht, honly, hanswer, hring⟩ := answers_zero_with_ring hexec
    exact ⟨t, ht, honly, hanswer, fun _ => hring, fun hle => by omega⟩
  case neg =>
    have hle : n.toNat ≤ s.cap b := by omega
    have hexec : exec i s = .next ((s.setRing b (resetCursors (s.ring b))).respond .ok 0#32 []) := by
      obtain rfl | ⟨src, rfl⟩ := hi
      · rw [exec_rbFout hbuf, flushOut_of_corrupted _ hbad hle]; rfl
      · rw [exec_rbFin hbuf, flushIn_of_corrupted _ hbad hle]; rfl
    obtain ⟨t, ht, honly, hanswer, hring⟩ := answers_zero_with_ring hexec
    exact ⟨t, ht, honly, hanswer, fun hgt => absurd hgt hn, fun _ => by rw [hring]; exact ⟨rfl, rfl, rfl⟩⟩

/-- Settles O31: each command reaches its check of the cursors, its arguments being valid. -/
theorem corruptedCursorsAreOtherwiseRefused : Obligations.CorruptedCursorsAreOtherwiseRefused := by
  intro i buf b s hbad h
  obtain ⟨hbuf, hi⟩ | ⟨rfl, hp, ⟨rfl, hvalid⟩ | ⟨n, rfl, hn⟩⟩ |
    ⟨rfl, hp, hbuilder, sdi, k, wnull, nw, nbf, words, rfl, hargs, hwords⟩ := h
  case inl =>
    obtain ⟨byte, rfl⟩ | rfl | ⟨o, rfl⟩ | ⟨n, rfl⟩ | rfl := hi <;>
      exact (withBuffer_of hbuf s _).trans (withCursors_bad hbad _)
  case inr.inl.inl =>
    refine (mainPortOnly_main hp _).trans ?_
    rw [if_neg (by simp [hvalid])]
    exact withCursors_bad hbad _
  case inr.inl.inr =>
    refine (mainPortOnly_main hp _).trans ?_
    rw [if_neg (by omega)]
    exact withCursors_bad hbad _
  case inr.inr =>
    rcases fbBuildWith_cases Config.crc sdi k wnull nw nbf words s with ⟨hright, _⟩ | ⟨_, _, hno, _⟩ |
      ⟨_, _, _, ⟨w, hw, hset⟩, _⟩ | ⟨_, _, _, _, _, hrefused⟩ | ⟨_, _, _, _, hok⟩
    · simp [hp, hbuilder] at hright
    · exact absurd hargs hno
    · rw [hwords w hw] at hset
      cases hset
    · exact hrefused
    · exact absurd hok hbad

end Sys2Proof.Machine
end

section
/-! Who writes the cursors, and what runs of commands on cursors in range do to a buffer (10_state.md rule R24,
40_ring_buffer.md rules R115, R132). -/

namespace Sys2Proof.Machine

/-! ## The cursor each operation leaves alone -/

theorem pushByte_tail (cap : Nat) (r : RingBuf) (b : Byte) : (pushByte cap r b).tail = r.tail := by
  simp only [pushByte]; split <;> rfl

theorem popByte_head (cap : Nat) (fill : Nat → Byte) (r : RingBuf) : (popByte cap fill r).2.head = r.head := by
  rw [popByte]; split <;> rfl

theorem flushOut_head {cap n : Nat} {r : RingBuf} (fill : Nat → Byte) (hhead : r.head < cap) (htail : r.tail < cap) :
    (flushOut cap fill r n).ring.head = r.head := by
  obtain ⟨_, hflush⟩ | ⟨_, hflush⟩ := flushOut_cases cap fill r n hhead htail <;> rw [hflush]
  rfl

theorem acceptFrame_ring {s : State} {i m : Nat} (hb : s.bufOk .rx) (hm : m < s.cfg.nmsg) (b : Buf) :
    (acceptFrame m (s.advance .rx i)).ring b =
      (s.advance .rx (i + acceptedLen s.cfg (s.cfg.entry m))).ring b := by
  rw [acceptFrame_at hb hm, setMsg_ring]

/-! ## The writers of each cursor -/

/-- The commands that write `head[b]` (rule R24). -/
def WritesHead (b : Buf) (i : Instr) : Prop :=
  (∃ buf byte, i = .rbPush buf byte ∧ bufOf buf = some b) ∨ (∃ buf n src, i = .rbFin buf n src ∧ bufOf buf = some b) ∨
  (∃ buf, i = .rbReset buf ∧ bufOf buf = some b) ∨
  (b = .tx ∧ ∃ sdi k wnull nw nbf words, i = .fbBuild sdi k wnull nw nbf words)

/-- The commands that write `tail[b]` (rule R24). -/
def WritesTail (b : Buf) (i : Instr) : Prop :=
  (∃ buf, i = .rbPop buf ∧ bufOf buf = some b) ∨ (∃ buf n, i = .rbAdv buf n ∧ bufOf buf = some b) ∨
  (∃ buf n, i = .rbFout buf n ∧ bufOf buf = some b) ∨ (∃ buf, i = .rbReset buf ∧ bufOf buf = some b) ∨
  (b = .rx ∧ i = .fsScan)

/-- Each cursor of buffer `b` is as before, or `i` is one of its writers. -/
def CursorsFit (i : Instr) (b : Buf) (r r' : RingBuf) : Prop :=
  (r'.head = r.head ∨ WritesHead b i) ∧ (r'.tail = r.tail ∨ WritesTail b i)

theorem cursorsFit_self (i : Instr) (b : Buf) (r : RingBuf) : CursorsFit i b r r := ⟨.inl rfl, .inl rfl⟩

/-- A command that replaces buffer `b'` has to fit there only. -/
theorem cursorsFit_setRing {i : Instr} {s : State} {b b' : Buf} {r : RingBuf}
    (h : b' = b → CursorsFit i b (s.ring b) r) : CursorsFit i b (s.ring b) ((s.setRing b' r).ring b) := by
  by_cases hb : b' = b
  · have hfit := h hb
    subst hb
    rwa [setRing_ring]
  · rw [setRing_ring_other _ _ _ _ (Ne.symm hb)]
    exact cursorsFit_self _ _ _

theorem exec_cursorsFit {i : Instr} {s t : State} {b : Buf} (hb : s.bufOk b) (h : exec i s = .next t) :
    CursorsFit i b (s.ring b) (t.ring b) := by
  obtain ⟨hhead, htail⟩ := bufOk_cursors hb
  cases i with
  | rbPush buf byte =>
    obtain rfl | ⟨b', hbuf, -, rfl⟩ := execRbPush_next h
    · exact cursorsFit_self _ _ _
    · refine cursorsFit_setRing fun hbb => ?_
      subst hbb
      exact ⟨.inr (.inl ⟨buf, byte, rfl, hbuf⟩), .inl (pushByte_tail _ _ _)⟩
  | rbPop buf =>
    obtain rfl | ⟨b', hbuf, -, rfl⟩ := execRbPop_next h
    · exact cursorsFit_self _ _ _
    · refine cursorsFit_setRing fun hbb => ?_
      subst hbb
      exact ⟨.inl (popByte_head _ _ _), .inr (.inl ⟨buf, rfl, hbuf⟩)⟩
  | rbPeek buf offset => obtain rfl | ⟨b', -, -, rfl⟩ := execRbPeek_next h <;> exact cursorsFit_self _ _ _
  | rbAdv buf n =>
    obtain rfl | ⟨b', hbuf, -, rfl⟩ := execRbAdv_next h
    · exact cursorsFit_self _ _ _
    · refine cursorsFit_setRing fun hbb => ?_
      subst hbb
      exact ⟨.inl rfl, .inr (.inr (.inl ⟨buf, n, rfl, hbuf⟩))⟩
  | rbFout buf n =>
    obtain rfl | ⟨b', hbuf, rfl⟩ := execRbFout_next h
    · exact cursorsFit_self _ _ _
    · refine cursorsFit_setRing fun hbb => ?_
      subst hbb
      exact ⟨.inl (flushOut_head _ hhead htail), .inr (.inr (.inr (.inl ⟨buf, n, rfl, hbuf⟩)))⟩
  | rbFin buf n src =>
    obtain rfl | ⟨b', hbuf, rfl⟩ := execRbFin_next h
    · exact cursorsFit_self _ _ _
    · refine cursorsFit_setRing fun hbb => ?_
      subst hbb
      exact ⟨.inr (.inr (.inl ⟨buf, n, src, rfl, hbuf⟩)), .inl (flushIn_tail hhead htail src)⟩
  | rbUsed buf => obtain rfl | ⟨b', -, -, rfl⟩ := execRbUsed_next h <;> exact cursorsFit_self _ _ _
  | rbReset buf =>
    obtain rfl | ⟨b', hbuf, rfl⟩ := execRbReset_next h
    · exact cursorsFit_self _ _ _
    · refine cursorsFit_setRing fun hbb => ?_
      subst hbb
      exact ⟨.inr (.inr (.inr (.inl ⟨buf, rfl, hbuf⟩))), .inr (.inr (.inr (.inr (.inl ⟨buf, rfl, hbuf⟩))))⟩
  | fsScan =>
    have hfits (n : Nat) : CursorsFit .fsScan b (s.ring b) ((s.advance .rx n).ring b) :=
      cursorsFit_setRing fun hbb => ⟨.inl (by subst hbb; rfl), .inr (.inr (.inr (.inr (.inr ⟨hbb.symm, rfl⟩))))⟩
    obtain rfl | rfl | ⟨⟨-, -, hrx⟩, ⟨j, st, -, -, rfl⟩ | ⟨j, m, -, -, rfl⟩ | ⟨j, m, ⟨-, -, -, -, hm, -⟩, -, rfl⟩⟩ :=
      execFsScan_next h
    · exact cursorsFit_self _ _ _
    · exact cursorsFit_self _ _ _
    · exact hfits _
    · exact hfits _
    · rw [respond_ring, acceptFrame_ring hrx hm]
      exact hfits _
  | cvCrc n => obtain rfl | rfl | ⟨-, -, -, rfl⟩ := execCvCrc_next h <;> exact cursorsFit_self _ _ _
  | plRead k off => obtain rfl | rfl | ⟨-, -, -, rfl⟩ := execPlRead_next h <;> exact cursorsFit_self _ _ _
  | tmTick => obtain rfl | ⟨-, ⟨-, rfl⟩ | ⟨-, rfl⟩⟩ := execTmTick_next h <;> exact cursorsFit_self _ _ _
  | tmStat k => obtain rfl | rfl | ⟨-, -, rfl⟩ := execTmStat_next h <;> exact cursorsFit_self _ _ _
  | tmElapsed k => obtain rfl | rfl | ⟨-, -, rfl⟩ := execTmElapsed_next h <;> exact cursorsFit_self _ _ _
  | fbBuild sdi k wnull nw nbf words =>
    obtain rfl | rfl | ⟨-, -, -, -, -, src, -, rfl⟩ := execFbBuild_next h
    · exact cursorsFit_self _ _ _
    · exact cursorsFit_self _ _ _
    · refine cursorsFit_setRing (b' := .tx) fun hbb => ?_
      subst hbb
      exact ⟨.inr (.inr (.inr (.inr ⟨rfl, _, _, _, _, _, _, rfl⟩))), .inl (flushIn_tail hhead htail src)⟩

/-- Settles O16: `WritesHead` and `WritesTail` are the writers the statement lists. -/
theorem cursorWriters : Obligations.CursorWriters := by
  intro i s t b hb h
  have hfit := exec_cursorsFit hb h
  exact hfit

end Sys2Proof.Machine
end

section
/-! Runs of commands: the cursors stay in range, and what is put in comes out in order (40_ring_buffer.md rules R115,
R132). -/

namespace Sys2Proof.Machine

/-! ## The cursors stay in range -/

/-- The cursors of both buffers are in range. -/
def CursorsOk (s : State) : Prop := ∀ b, s.bufOk b

theorem cursorsOk_setRing {s : State} (h : CursorsOk s) {b : Buf} {r : RingBuf}
    (hr : cursorsInRange (s.cap b) r = true) : CursorsOk (s.setRing b r) := by
  intro b'
  rw [State.bufOk, setRing_cap]
  by_cases hb : b' = b
  · rwa [hb, setRing_ring]
  · rw [setRing_ring_other _ _ _ _ hb]
    exact h b'

theorem cursorsOk_advance {s : State} (h : CursorsOk s) (b : Buf) (n : Nat) : CursorsOk (s.advance b n) :=
  cursorsOk_setRing h (cursorsInRange_advance (h b) n)

theorem cap_pos (s : State) (b : Buf) : 0 < s.cap b := by
  obtain ⟨hlow, _⟩ := config_cap_pos s.cfg b
  exact Nat.lt_of_lt_of_le Nat.two_pos hlow

theorem exec_keeps_cursorsOk {i : Instr} {s t : State} (hs : CursorsOk s) (h : exec i s = .next t) : CursorsOk t := by
  cases i with
  | rbPush buf byte =>
    obtain rfl | ⟨b, -, -, rfl⟩ := execRbPush_next h
    · exact hs
    · exact cursorsOk_setRing hs (cursorsInRange_pushByte (hs b) byte)
  | rbPop buf =>
    obtain rfl | ⟨b, -, -, rfl⟩ := execRbPop_next h
    · exact hs
    · exact cursorsOk_setRing hs (cursorsInRange_popByte (hs b))
  | rbPeek buf offset => obtain rfl | ⟨b, -, -, rfl⟩ := execRbPeek_next h <;> exact hs
  | rbAdv buf n =>
    obtain rfl | ⟨b, -, -, rfl⟩ := execRbAdv_next h
    · exact hs
    · exact cursorsOk_advance hs b _
  | rbFout buf n =>
    obtain rfl | ⟨b, -, rfl⟩ := execRbFout_next h
    · exact hs
    · exact cursorsOk_setRing hs (cursorsInRange_flushOut (hs b) _)
  | rbFin buf n src =>
    obtain rfl | ⟨b, -, rfl⟩ := execRbFin_next h
    · exact hs
    · exact cursorsOk_setRing hs (cursorsInRange_flushIn (hs b) _ _)
  | rbUsed buf => obtain rfl | ⟨b, -, -, rfl⟩ := execRbUsed_next h <;> exact hs
  | rbReset buf =>
    obtain rfl | ⟨b, -, rfl⟩ := execRbReset_next h
    · exact hs
    · exact cursorsOk_setRing hs (cursorsInRange_resetCursors (cap_pos s b) _)
  | fsScan =>
    obtain rfl | rfl | ⟨-, ⟨j, st, -, -, rfl⟩ | ⟨j, m, -, -, rfl⟩ | ⟨j, m, ⟨-, -, -, -, hm, -⟩, -, rfl⟩⟩ :=
      execFsScan_next h
    · exact hs
    · exact hs
    · exact cursorsOk_advance hs .rx _
    · exact cursorsOk_advance hs .rx _
    · rw [acceptFrame_at (hs .rx) hm]
      exact cursorsOk_advance hs .rx _
  | cvCrc n => obtain rfl | rfl | ⟨-, -, -, rfl⟩ := execCvCrc_next h <;> exact hs
  | plRead k off => obtain rfl | rfl | ⟨-, -, -, rfl⟩ := execPlRead_next h <;> exact hs
  | tmTick => obtain rfl | ⟨-, ⟨-, rfl⟩ | ⟨-, rfl⟩⟩ := execTmTick_next h <;> exact hs
  | tmStat k => obtain rfl | rfl | ⟨-, -, rfl⟩ := execTmStat_next h <;> exact hs
  | tmElapsed k => obtain rfl | rfl | ⟨-, -, rfl⟩ := execTmElapsed_next h <;> exact hs
  | fbBuild sdi k wnull nw nbf words =>
    obtain rfl | rfl | ⟨-, -, -, -, -, src, -, rfl⟩ := execFbBuild_next h
    · exact hs
    · exact hs
    · exact cursorsOk_setRing (b := .tx) hs (cursorsInRange_flushIn (hs .tx) _ _)

theorem runCommands_keeps_cursorsOk : ∀ {is : List Instr} {s t : State}, CursorsOk s → runCommands is s = some t →
    CursorsOk t := by
  intro is
  induction is with
  | nil =>
    intro s t hs h
    cases h
    exact hs
  | cons i is ih =>
    intro s t hs h
    cases hexec : exec i s with
    | next u =>
      rw [runCommands, hexec] at h
      exact ih (exec_keeps_cursorsOk hs hexec) h
    | fault r => exact nomatch r
    | refused r =>
      rw [runCommands, hexec] at h
      cases h

/-- Settles O34: every run keeps the cursors in range, which bounds `Used`; a push drops its byte or appends it. -/
theorem noRunOverfillsABuffer : Obligations.NoRunOverfillsABuffer := by
  refine ⟨fun is s t b hrx htx hrun => ?bound, fun buf b byte s t hbuf h hexec => ?keeps⟩
  case bound =>
    have hs : CursorsOk s := by
      intro b
      cases b
      · exact hrx
      · exact htx
    have ht := runCommands_keeps_cursorsOk hs hrun b
    exact ⟨ht, Nat.le_sub_one_of_lt (used_lt_cap ht)⟩
  case keeps =>
    obtain ⟨u, hu, -, -, -, hdrop, happend⟩ := rbPushAppendsOrDrops buf b byte s hbuf h
    obtain rfl : t = u := by rw [hexec] at hu; cases hu; rfl
    by_cases hfull : (s.ring b).tail = ((s.ring b).head + 1) % s.cap b
    · obtain ⟨hhead, htail⟩ := bufOk_cursors h
      rw [exec_rbPush hbuf h] at hexec
      cases hexec
      rw [respond_contents, setRing_contents, pushByte, if_pos hfull.symm]
      exact ⟨[], List.append_nil _⟩
    · obtain ⟨hcontents, -⟩ := happend hfull
      exact ⟨[byte], hcontents.symm⟩

/-! ## First in, first out -/

/-- A state gives one answer. -/
theorem answered_unique {s t : State} {st st' : Status} {v v' : Word} {d d' : List Byte} (h : Answered s t st v d)
    (h' : Answered s t st' v' d') : v = v' ∧ d = d' := by
  have heq := List.append_cancel_left (h.symm.trans h')
  simp only [List.cons.injEq, Response.mk.injEq, true_and, and_true] at heq
  obtain ⟨hword, hdout⟩ := heq
  have hval := congrArg (BitVec.extractLsb' 0 32) hword
  rw [responseWord_val, responseWord_val] at hval
  exact ⟨hval, hdout⟩

theorem valOfByte_injective {v v' : Byte} (h : valOfByte v = valOfByte v') : v = v' := by
  have hlow := congrArg (BitVec.setWidth 8) h
  simpa [valOfByte] using hlow

section
variable {buf : BitVec 4} {b : Buf} {s t : State}

theorem push_contents (hbuf : bufOf buf = some b) (h : s.bufOk b) {byte : Byte} (hroom : 0 < s.free b)
    (hexec : exec (.rbPush buf byte) s = .next t) : t.bufOk b ∧ t.contents b = s.contents b ++ [byte] := by
  obtain ⟨hhead, htail⟩ := bufOk_cursors h
  rw [exec_rbPush hbuf h] at hexec
  cases hexec
  refine ⟨?_, ?_⟩
  · simpa [State.bufOk] using cursorsInRange_pushByte h byte
  · rw [respond_contents, setRing_contents, ringContents_pushByte _ _ _ _ hhead htail hroom]
    rfl

theorem fin_contents (hbuf : bufOf buf = some b) (h : s.bufOk b) {n : Word} {src : List Byte}
    (hlen : src.length = n.toNat) (hroom : src.length ≤ s.free b) (hexec : exec (.rbFin buf n src) s = .next t) :
    t.bufOk b ∧ t.contents b = s.contents b ++ src := by
  obtain ⟨hhead, htail⟩ := bufOk_cursors h
  have hsum : Machine.used (s.cap b) (s.ring b) + s.free b = s.cap b - 1 := used_add_free hhead htail
  rw [exec_rbFin hbuf] at hexec
  cases hexec
  refine ⟨?_, ?_⟩
  · simpa [State.bufOk] using cursorsInRange_flushIn h src n.toNat
  · rw [respond_contents, setRing_contents, ringContents_flushIn _ _ _ _ _ hhead htail (by omega) hlen,
      List.take_of_length_le (show src.length ≤ Machine.free (s.cap b) (s.ring b) from hroom)]
    rfl

theorem pop_contents (hbuf : bufOf buf = some b) (h : s.bufOk b) {v : Byte} (hheld : 0 < s.used b)
    (hexec : exec (.rbPop buf) s = .next t) (hanswer : Answered s t .ok (valOfByte v) []) :
    t.bufOk b ∧ s.contents b = v :: t.contents b := by
  obtain ⟨hhead, htail⟩ := bufOk_cursors h
  have hne : (s.ring b).head ≠ (s.ring b).tail := fun he => hheld.ne' ((empty_iff hhead htail).mp he)
  obtain ⟨u, hu, -, -, -, -, htaken⟩ := rbPopTakesTheFirstByte buf b s hbuf h
  obtain rfl : t = u := by rw [hexec] at hu; cases hu; rfl
  obtain ⟨-, w, hcontents, hansw⟩ := htaken hne
  obtain ⟨hval, -⟩ := answered_unique hanswer hansw
  obtain rfl := valOfByte_injective hval
  refine ⟨?_, hcontents⟩
  rw [exec_rbPop hbuf h] at hexec
  cases hexec
  simpa [State.bufOk] using cursorsInRange_popByte h

theorem fout_contents (hbuf : bufOf buf = some b) (h : s.bufOk b) {n count : Word} {dest : List Byte}
    (hexec : exec (.rbFout buf n) s = .next t) (hanswer : Answered s t .ok count dest) :
    t.bufOk b ∧ s.contents b = dest ++ t.contents b := by
  by_cases hn : s.cap b < n.toNat
  · rw [exec_rbFout_too_long hbuf hn] at hexec
    cases hexec
    obtain ⟨-, rfl⟩ := answered_unique hanswer (answered_respond _ _ _ _)
    exact ⟨h, rfl⟩
  · rw [exec_rbFout_fits hbuf h (by omega)] at hexec
    cases hexec
    obtain ⟨-, rfl⟩ := answered_unique hanswer (answered_advance_respond _ _ _ _ _ _)
    refine ⟨advance_bufOk h _, ?_⟩
    rw [respond_contents, advance_contents h, List.take_append_drop]

end

/-- Settles O33, by induction on the run: each of the four commands keeps what is held, what came in and what went out
in step. -/
theorem bytesLeaveInTheOrderTheyCame : Obligations.BytesLeaveInTheOrderTheyCame := by
  intro buf b s t ins outs hbuf h hrun
  induction hrun with
  | done s => rw [List.append_nil, List.nil_append]
  | push byte hroom hexec _ ih =>
    obtain ⟨hok, hcontents⟩ := push_contents hbuf h hroom hexec
    rw [← ih hok, hcontents, List.append_assoc, List.singleton_append]
  | fin n src hlen hroom hexec _ ih =>
    obtain ⟨hok, hcontents⟩ := fin_contents hbuf h hlen hroom hexec
    rw [← ih hok, hcontents, List.append_assoc]
  | pop v hheld hexec hanswer _ ih =>
    obtain ⟨hok, hcontents⟩ := pop_contents hbuf h hheld hexec hanswer
    rw [hcontents, List.cons_append, List.cons_append, ih hok]
  | fout n count hexec hanswer _ ih =>
    obtain ⟨hok, hcontents⟩ := fout_contents hbuf h hexec hanswer
    rw [hcontents, List.append_assoc, List.append_assoc, ih hok]

end Sys2Proof.Machine
end

section
/-! The read-outs of the CRC validator and of the payload stores (42_crc_validator.md rules R170, R172). -/

namespace Sys2Proof.Machine

theorem exec_cvCrc {n : Word} {s : State} (hp : s.port = .M) (h : s.bufOk .rx) (hn : n.toNat ≤ s.cap .rx) :
    exec (.cvCrc n) s = .next (s.respond .ok ((rxCrc Config.crc s n.toNat).setWidth 32) []) := by
  refine (mainPortOnly_main hp _).trans ?_
  rw [if_neg (by omega), withCursors_of h]
  rfl

/-- The remainder of any `n` bytes from the tail, unread or not. -/
theorem rxCrc_eq_peeks (C : LawfulCrc) {s : State} {n : Nat} (h : s.bufOk .rx) (hn : n ≤ s.cap .rx) :
    rxCrc C s n = C.fn ((List.range n).map (s.peek .rx)) C.seed := by
  obtain ⟨-, htail⟩ := bufOk_cursors h
  exact crcOver_eq_rangeBytes C _ _ htail hn

/-- Settles O36: the remainder is that of the bytes peeked (`rxCrc_eq_peeks`), the unread ones where there are enough
(`rxCrc_eq_contents`). -/
theorem cvCrcAnswersTheRemainder : Obligations.CvCrcAnswersTheRemainder := by
  refine ⟨fun n s hp h hn => ?answer, fun n s hp hn => raised_invalid ((mainPortOnly_main hp _).trans (if_pos hn))⟩
  case answer =>
    refine ⟨_, exec_cvCrc hp h hn, onlyAnswers_respond _ _ _ _, ?_, fun hheld => ?_⟩
    · rw [rxCrc_eq_peeks Config.crc h hn]
      exact answered_respond _ _ _ _
    · rw [rxCrc_eq_contents Config.crc h hheld]
      exact answered_respond _ _ _ _

/-- A payload length and a payload byte as one value. -/
theorem plRead_val (len byte : Byte) : (valOfByte len <<< 8) ||| valOfByte byte = 0#16 ++ len ++ byte := by
  apply BitVec.eq_of_getLsbD_eq
  intro i hi
  simp only [valOfByte, BitVec.getLsbD_or, BitVec.getLsbD_shiftLeft, BitVec.getLsbD_setWidth, BitVec.getLsbD_append]
  by_cases hbyte : i < 8
  · simp [hbyte, hi]
  · by_cases hlen : i - 8 < 8
    · simp [hbyte, hlen, hi, BitVec.getLsbD_of_ge byte i (by omega), show i - 8 < 32 by omega]
    · simp [hbyte, hlen, BitVec.getLsbD_of_ge byte i (by omega), BitVec.getLsbD_of_ge len (i - 8) (by omega)]

theorem exec_plRead {k : BitVec 8} {off : Word} {s : State} (hp : s.port = .M) (hk : k.toNat < s.cfg.nmsg)
    (hoff : off.toNat < s.cfg.payloadMax) : exec (.plRead k off) s =
      .next (s.respond .ok (0#16 ++ (s.msg k.toNat).payloadLen ++ s.payloadByte k.toNat off.toNat) []) := by
  refine (mainPortOnly_main hp _).trans ((withMessage_of hk _).trans ?_)
  rw [if_neg (by omega), plRead_val]
  rfl

/-- Settles O37: the two bytes stand side by side in the value (`plRead_val`). -/
theorem plReadAnswersLengthAndByte : Obligations.PlReadAnswersLengthAndByte := by
  refine ⟨fun k off s hp hk hoff => ?answer, fun k off s hp hbad => ?invalid⟩
  case answer =>
    refine ⟨_, _, exec_plRead hp hk hoff, onlyAnswers_respond _ _ _ _, answered_respond _ _ _ _,
      BitVec.extractLsb'_append_eq_right, ?_, ?_⟩
    · exact (BitVec.extractLsb'_append_eq_of_le (by decide)).trans BitVec.extractLsb'_append_eq_right
    · exact (BitVec.extractLsb'_append_eq_of_le (by decide)).trans BitVec.extractLsb'_append_eq_left
  case invalid =>
    refine raised_invalid ((mainPortOnly_main hp _).trans ?_)
    by_cases hk : k.toNat < s.cfg.nmsg
    · rw [withMessage_of hk, if_pos (by omega), raiseInvalidArgument_eq]
    · exact withMessage_bad (by omega) _

end Sys2Proof.Machine
end

section
/-! The timeout monitor: the aggregate as a statement about every message, and what a tick leaves (43_timeout_monitor.md
rules R181 to R188). -/

namespace Sys2Proof.Machine

/-- Settles O51: either read-out checks its port, then its index. -/
theorem monitorReadOutsAnswerFlagAndCounter : Obligations.MonitorReadOutsAnswerFlagAndCounter := by
  refine ⟨fun k s hp hk => ⟨⟨_, ?_, onlyAnswers_respond _ _ _ _, answered_respond _ _ _ _⟩,
    ⟨_, ?_, onlyAnswers_respond _ _ _ _, answered_respond _ _ _ _⟩⟩,
    fun k s hp hk => ⟨raised_invalid ?_, raised_invalid ?_⟩⟩
  · exact (mainPortOnly_main hp _).trans (withMessage_of hk _)
  · exact (mainPortOnly_main hp _).trans (withMessage_of hk _)
  · exact (mainPortOnly_main hp _).trans (withMessage_bad hk _)
  · exact (mainPortOnly_main hp _).trans (withMessage_bad hk _)

/-- The aggregate is a failure exactly when every message is silent. -/
theorem busFailure_iff {catalog : List CatEntry} {msgs : List MsgState} (h : msgs.length = catalog.length) :
    busFailure catalog msgs = true ↔
      ∀ k, (hk : k < catalog.length) → silent catalog[k] (msgs[k]'(by omega)) = true := by
  have hzip : (catalog.zip msgs).length = catalog.length := by rw [List.length_zip, h, Nat.min_self]
  rw [busFailure, decide_eq_true_iff, silentCount]
  conv_lhs => rhs; rw [← hzip]
  rw [List.countP_eq_length]
  constructor
  · intro hall k hk
    have hmem : (catalog[k], msgs[k]'(by omega)) ∈ catalog.zip msgs := by
      rw [← List.getElem_zip (h := by omega)]
      exact List.getElem_mem _
    exact hall _ hmem
  · intro hall p hp
    obtain ⟨k, hk, rfl⟩ := List.getElem_of_mem hp
    rw [List.getElem_zip]
    exact hall k (by omega)

theorem tickAll_length (width : Nat) (msgs : List MsgState) : (tickAll width msgs).length = msgs.length :=
  List.length_map _

/-- The aggregate of a tick: every counter, once incremented, has reached its threshold (rules R181, R182). -/
theorem tickFails_iff {s : State} (h : s.msgs.length = s.cfg.nmsg) : s.tickFails = true ↔
    ∀ k < s.cfg.nmsg, (s.cfg.entry k).maxTicks ≤ ((s.msg k).elapsed + 1) % 2 ^ s.cfg.tickWidth := by
  rw [State.tickFails, busFailure_iff (by rw [tickAll_length, h]; rfl)]
  refine forall_congr' fun k => forall_congr' fun hk => ?_
  rw [entry_eq_getElem s.cfg hk, msg_eq_getElem (by rw [h]; exact hk)]
  simp only [silent, tickAll, List.getElem_map, decide_eq_true_eq, tickCounter]

theorem exec_tmTick {s : State} (hp : s.port = .M) (hvalid : s.cfg.catValid = true) :
    exec .tmTick s = .next (s.tick.respond .ok (valOfBool s.tickFails) []) := by
  refine (mainPortOnly_main hp _).trans ?_
  rw [if_neg (by simp [hvalid])]
  rfl

theorem answered_tick (s : State) (val : Word) : Answered s (s.tick.respond .ok val []) .ok val [] :=
  answered_of_eq rfl rfl

/-- Settles O48: what a tick leaves of each message (`tick_msg`), and its aggregate (`tickFails_iff`). -/
theorem tickCountsAndAggregates : Obligations.TickCountsAndAggregates := by
  refine ⟨fun s hp hvalid hlen => ?tick, fun s hp hvalid => ?no_catalog⟩
  case tick =>
    refine ⟨_, s.tickFails, exec_tmTick hp hvalid, rfl, answered_tick _ _, tick_msgs_length s, tickFails_iff hlen,
      fun k hk => ?_⟩
    rw [respond_msg, tick_msg (by rw [hlen]; exact hk)]
    exact ⟨rfl, rfl, rfl, rfl⟩
  case no_catalog =>
    refine ⟨s.respond .ok 1#32 [], (mainPortOnly_main hp _).trans ?_, onlyAnswers_respond _ _ _ _,
      answered_respond _ _ _ _⟩
    rw [if_pos hvalid]
    rfl

/-- A counter just zeroed reads 1 after the next tick, `TICK_W` being at least 1. -/
theorem tickCounter_zero (c : Config) : tickCounter c.tickWidth 0 = 1 := by
  obtain ⟨-, -, -, -, hwidth, -⟩ := config_sizes c
  exact Nat.mod_eq_of_lt (Nat.one_lt_two_pow (by omega))

/-- One message just refreshed whose threshold is above 1 makes the aggregate no failure. -/
theorem tickFails_of_live {s : State} (hlen : s.msgs.length = s.cfg.nmsg) {k : Nat} (hk : k < s.cfg.nmsg)
    (hzero : (s.msg k).elapsed = 0) (hticks : 1 < (s.cfg.entry k).maxTicks) : s.tickFails = false := by
  rw [← Bool.not_eq_true, tickFails_iff hlen]
  intro hall
  have hreached := hall k hk
  rw [hzero] at hreached
  have hone := tickCounter_zero s.cfg
  rw [tickCounter] at hone
  omega

/-- Settles O49: the aggregate over two messages, and one of them live (`tickFails_of_live`). -/
theorem oneLiveMessageSuppressesBusFailure : Obligations.OneLiveMessageSuppressesBusFailure := by
  intro s hp hvalid htwo hinv
  obtain ⟨-, -, hlen, -⟩ := hinv
  have hmsg {k : Nat} (hk : k < 2) := tick_msg (s := s) (k := k) (by rw [hlen, htwo]; exact hk)
  refine ⟨_, exec_tmTick hp hvalid, ?_⟩
  rw [respond_msg, respond_msg, hmsg Nat.two_pos, hmsg Nat.one_lt_two]
  refine ⟨?both, rfl, fun k hk hzero hticks => ?live⟩
  case both =>
    rw [tickFails_iff hlen, htwo]
    constructor
    · exact fun hall => ⟨hall 0 Nat.two_pos, hall 1 Nat.one_lt_two⟩
    · rintro ⟨hfirst, hsecond⟩ k hk
      obtain rfl | rfl : k = 0 ∨ k = 1 := by omega
      · exact hfirst
      · exact hsecond
  case live =>
    have hlive := tickFails_of_live hlen (by omega) hzero hticks
    rw [hlive]
    exact ⟨rfl, rfl, answered_tick _ _⟩

/-- Settles O50: every counter is zero, so that the aggregate compares every threshold with 1. -/
theorem firstTickAfterResetClearsTheFlags : Obligations.FirstTickAfterResetClearsTheFlags := by
  intro s hreset hp hvalid
  obtain ⟨-, -, hlen, hmsg⟩ := hreset
  have hzero {k : Nat} (hk : k < s.cfg.nmsg) : (s.msg k).elapsed = 0 := by rw [hmsg k hk]
  have htick {k : Nat} (hk : k < s.cfg.nmsg) := tick_msg (s := s) (k := k) (by rw [hlen]; exact hk)
  refine ⟨_, exec_tmTick hp hvalid, fun k hk => ?counter, ?some_above, fun hall => ?all_below⟩
  case counter =>
    rw [respond_msg, htick hk, hzero hk]
    exact tickCounter_zero s.cfg
  case some_above =>
    rintro ⟨j, hj, hticks⟩
    rw [tickFails_of_live hlen hj (hzero hj) hticks]
    refine ⟨fun k hk => ?_, answered_tick _ _⟩
    rw [respond_msg, htick hk]
    exact tickFails_of_live hlen hj (hzero hj) hticks
  case all_below =>
    have hfails : s.tickFails = true := (tickFails_iff hlen).mpr fun k hk => by
      have hone := tickCounter_zero s.cfg
      rw [tickCounter] at hone
      rw [hzero hk, hone]
      exact hall k hk
    rw [hfails]
    refine ⟨fun k hk => ?_, answered_tick _ _⟩
    rw [respond_msg, htick hk]
    exact hfails

end Sys2Proof.Machine
end

section
/-! The scan run forward: one equation per outcome, and what each leaves (41_frame_scanner.md sections 1 to 3,
42_crc_validator.md section 1). -/

namespace Sys2Proof.Machine

/-! ## The outcomes as equations -/

theorem scanVal_zero (d : Nat) : scanVal d 0 = BitVec.ofNat 32 (d * 65536) := by
  rw [scanVal_eq (by decide), Nat.add_zero]

theorem scanVal_of_lt_nmsg {c : Config} {m : Nat} (d : Nat) (hm : m < c.nmsg) :
    scanVal d m = BitVec.ofNat 32 (d * 65536 + m) := by
  obtain ⟨-, -, -, -, -, -, -, hmax, -⟩ := config_sizes c
  exact scanVal_eq (by omega)

section
variable {s : State} {i m : Nat}

/-- A scan that ends past the last byte. -/
theorem exec_fsScan_exhausted (h : s.CanScan) (hall : s.PassesTo (s.used .rx)) : exec .fsScan s =
    .next ((s.advance .rx (s.used .rx)).respond .noMatch (BitVec.ofNat 32 (s.used .rx * 65536)) []) := by
  obtain ⟨hp, hvalid, hb⟩ := h
  refine (mainPortOnly_main hp _).trans ?_
  rw [if_neg (by simp [hvalid]), withCursors_of hb, search_exhausted hall, ← scanVal_zero]
  rfl

/-- A scan that ends at a short preamble. -/
theorem exec_fsScan_short (h : s.CanScan) (hi : i < s.used .rx) (hpass : s.PassesTo i) (hpre : s.peek .rx i = preamble)
    (hshort : s.used .rx - i < minFrame) : exec .fsScan s =
      .next ((s.advance .rx i).respond .incomplete (BitVec.ofNat 32 (i * 65536)) []) := by
  obtain ⟨hp, hvalid, hb⟩ := h
  refine (mainPortOnly_main hp _).trans ?_
  rw [if_neg (by simp [hvalid]), withCursors_of hb, search_short hi hpass hpre hshort, ← scanVal_zero]
  rfl

/-- A scan whose candidate is incomplete. -/
theorem exec_fsScan_waits (h : s.CanScan) (hc : s.Candidate i m) (hlen : s.used .rx - i < (s.cfg.entry m).frameLen) :
    exec .fsScan s = .next ((s.advance .rx i).respond .incomplete (BitVec.ofNat 32 (i * 65536)) []) := by
  refine (fsScanWith_candidate Config.crc h hc).trans ?_
  rw [if_pos hlen, scanVal_zero]
  rfl

/-- A scan that accepts its candidate. -/
theorem exec_fsScan_accepts (h : s.CanScan) (hc : s.Candidate i m) (hlen : (s.cfg.entry m).frameLen ≤ s.used .rx - i)
    (hcrc : Config.crc.fn (((s.contents .rx).drop i).take (s.cfg.entry m).frameLen) Config.crc.seed = 0#16) :
    exec .fsScan s = .next (((s.advance .rx (i + acceptedLen s.cfg (s.cfg.entry m))).setMsg m
      (acceptedMsg (s.cfg.entry m) (s.msg m) ((s.contents .rx).drop i))).respond .ok
        (BitVec.ofNat 32 (i * 65536 + m)) []) := by
  have ⟨_, _, hb⟩ := h
  have ⟨_, _, _, _, hm, _⟩ := hc
  refine (fsScanWith_candidate Config.crc h hc).trans ?_
  rw [if_neg (by omega), rxCrc_advance Config.crc hb hlen, if_neg (by simp [hcrc]), acceptFrame_at hb hm,
    scanVal_of_lt_nmsg i hm]
  rfl

end

theorem advance_used_contents {s : State} {b : Buf} (h : s.bufOk b) : (s.advance b (s.used b)).contents b = [] := by
  rw [advance_contents h]
  exact List.drop_eq_nil_of_le (contents_length s b).le

/-- Settles O38: the search ends past the last byte, and the scan advances over all of them. -/
theorem scanDiscardsAllWhenNothingMatches : Obligations.ScanDiscardsAllWhenNothingMatches := by
  intro s h hall
  have ⟨_, _, hb⟩ := h
  exact ⟨_, exec_fsScan_exhausted h hall, onlyTailAndMsgs_advance_respond s _ _ _ _, rfl, advance_used_contents hb,
    answered_advance_respond s .rx _ _ _ _⟩

/-- Settles O39: the search ends at the short preamble, and the scan advances to it. -/
theorem scanKeepsAShortPreamble : Obligations.ScanKeepsAShortPreamble := by
  intro s i h hi hpass hpre hshort
  have ⟨_, _, hb⟩ := h
  exact ⟨_, exec_fsScan_short h hi hpass hpre hshort, onlyTailAndMsgs_advance_respond s _ _ _ _, rfl,
    advance_contents hb i, answered_advance_respond s .rx _ _ _ _⟩

/-! ## A candidate behind a discard -/

theorem advance_matches {s : State} {i : Nat} (hi : i ≤ s.used .rx) (k : Nat) :
    (s.advance .rx i).Matches 0 k ↔ s.Matches i k := by
  simp only [State.Matches, advance_peek hi, advance_cfg, Nat.zero_add]

/-- Once what stands before it is discarded, a candidate stands at offset 0. -/
theorem advance_candidate {s : State} {i m : Nat} (hb : s.bufOk .rx) (hc : s.Candidate i m) :
    (s.advance .rx i).Candidate 0 m := by
  obtain ⟨hi, _, hpre, hmin, hm, hmatch, hfirst⟩ := hc
  have hused := advance_used hb i
  refine ⟨by omega, fun j hj => absurd hj (Nat.not_lt_zero j), ?_, by omega, ?_, ?_, fun k hk => ?_⟩
  · rwa [advance_peek hi.le, Nat.add_zero]
  · rwa [advance_cfg]
  · rwa [advance_matches hi.le]
  · rw [advance_matches hi.le]
    exact hfirst k hk

/-- Settles O40: the discard leaves the candidate at offset 0 (`advance_candidate`). -/
theorem scanWaitsForAnIncompleteCandidate : Obligations.ScanWaitsForAnIncompleteCandidate := by
  intro s i m h hc hlen
  have ⟨_, _, hb⟩ := h
  exact ⟨_, exec_fsScan_waits h hc hlen, onlyTailAndMsgs_advance_respond s _ _ _ _, rfl, advance_contents hb i,
    answered_advance_respond s .rx _ _ _ _, advance_candidate hb hc⟩

/-! ## An accepted frame -/

theorem answered_accepted (s : State) (n m : Nat) (msg : MsgState) (st : Status) (val : Word) :
    Answered s (((s.advance .rx n).setMsg m msg).respond st val []) st val [] :=
  answered_of_eq (by rw [setMsg_responses, advance_responses]) (by rw [setMsg_port, advance_port])

theorem accepted_contents {s : State} (h : s.bufOk .rx) (n m : Nat) (msg : MsgState) (st : Status) (val : Word) :
    (((s.advance .rx n).setMsg m msg).respond st val []).contents .rx = (s.contents .rx).drop n :=
  advance_contents h n

theorem acceptedMsg_of_store {e : CatEntry} (h : e.payloadEn = true) (old : MsgState) (frame : List Byte) :
    acceptedMsg e old frame = { old with
      elapsed := 0
      payload := memWrite old.payload 0 ((frame.drop headerLen).take e.payloadLen)
      payloadLen := BitVec.ofNat 8 e.payloadLen } := by
  rw [acceptedMsg, if_pos h]

/-- The payload length as the catalog entry's length byte gives it. -/
theorem ofNat_payloadLen {e : CatEntry} (h : 1 ≤ e.length.toNat) : BitVec.ofNat 8 e.payloadLen = e.length - 1#8 := by
  apply BitVec.eq_of_toNat_eq
  rw [toNat_payloadLen, BitVec.toNat_sub_of_le (by rw [BitVec.le_def]; exact h)]
  rfl

/-- The byte at index `j` of a payload store after a frame was accepted into it. -/
theorem byteAt_accepted_payload (fill : Nat → Byte) (old : Memory) (frame : List Byte) (n j : Nat) :
    Memory.byteAt fill (memWrite old 0 ((frame.drop headerLen).take n)) j =
      if h : j < n ∧ headerLen + j < frame.length then frame[headerLen + j] else Memory.byteAt fill old j := by
  rw [byteAt_memWrite]
  simp only [Nat.zero_le, true_and, Nat.sub_zero, List.length_take, List.length_drop, List.getElem_take,
    List.getElem_drop]
  by_cases h : j < n ∧ headerLen + j < frame.length
  · rw [dif_pos h, dif_pos (by omega)]
  · rw [dif_neg h, dif_neg (by omega)]

/-- Settles O42: the state an accepted frame leaves is one advance, one message state and the answer
(`exec_fsScan_accepts`). -/
theorem scanAcceptsAWholeFrame : Obligations.ScanAcceptsAWholeFrame := by
  intro s i m h hmsgs hc hlen hcrc
  have ⟨_, _, hb⟩ := h
  have ⟨hi, _, _, _, hm, _, _⟩ := hc
  obtain ⟨he, _⟩ := config_entry_ok s.cfg hm
  have hm' : m < (s.advance .rx (i + acceptedLen s.cfg (s.cfg.entry m))).msgs.length := by rwa [advance_msgs, hmsgs]
  have hstore (j : Nat) (hj : j < (s.cfg.entry m).length.toNat - 1) :
      headerLen + j < ((s.contents .rx).drop i).length := by
    rw [List.length_drop, contents_length]
    simp only [CatEntry.frameLen, headerLen] at *
    omega
  refine ⟨_, exec_fsScan_accepts h hc hlen hcrc, rfl, answered_accepted _ _ _ _ _ _, accepted_contents hb _ _ _ _ _,
    by rw [respond_msgs, setMsg_msgs, List.length_set, advance_msgs], fun k hk => ?other, ?elapsed, ?flag,
    fun hen => ⟨?len, fun j hj => ?stored, fun j hj => ?beyond⟩, fun hen => ?unstored⟩
  case other => rw [respond_msg, setMsg_msg_other _ _ _ _ hk, advance_msg]
  case elapsed => rw [respond_msg, setMsg_msg_same _ _ _ hm', acceptedMsg_elapsed]
  case flag => rw [respond_msg, setMsg_msg_same _ _ _ hm', acceptedMsg_busFailed]
  case len => rw [respond_msg, setMsg_msg_same _ _ _ hm', acceptedMsg_of_store hen, ofNat_payloadLen he]
  case stored =>
    rw [State.payloadByte, respond_msg, setMsg_msg_same _ _ _ hm', acceptedMsg_of_store hen, byteAt_accepted_payload,
      dif_pos ⟨hj, hstore j hj⟩, List.getElem_drop, ← List.getElem?_eq_getElem, headerLen, Nat.add_assoc]
  case beyond =>
    rw [State.payloadByte, respond_msg, setMsg_msg_same _ _ _ hm', acceptedMsg_of_store hen, byteAt_accepted_payload,
      dif_neg (by rw [CatEntry.payloadLen]; omega)]
    rfl
  case unstored =>
    rw [respond_msg, setMsg_msg_same _ _ _ hm', acceptedMsg_of_no_store hen]
    exact ⟨rfl, rfl⟩

/-- The value of an answer that names no index. -/
theorem answered_discard (s : State) (n d : Nat) (st : Status) :
    Answered s ((s.advance .rx n).respond st (BitVec.ofNat 32 (d * 65536)) []) st
      (BitVec.ofNat 32 (d * 65536 + 0)) [] := by
  rw [Nat.add_zero]
  exact answered_advance_respond s .rx _ _ _ _

/-- Settles O44: the five outcomes of `fsScanWith_cases`. -/
theorem scanAlwaysCompletes : Obligations.ScanAlwaysCompletes := by
  intro s h
  have ⟨_, _, hb⟩ := h
  rcases fsScanWith_cases Config.crc h with ⟨hall, _⟩ | ⟨i, hi, hpass, hpre, hshort, _⟩ | ⟨i, m, hc, hlen, _⟩ |
    ⟨i, m, hc, hlen, hcrc, _⟩ | ⟨i, m, hc, hlen, hcrc, _⟩
  · exact ⟨_, _, s.used .rx, 0, s.used .rx, exec_fsScan_exhausted h hall, onlyTailAndMsgs_advance_respond s _ _ _ _,
      answered_discard s _ _ _, le_rfl, le_rfl, advance_contents hb _,
      .inr (.inr ⟨.inl rfl, rfl, rfl, rfl⟩)⟩
  · exact ⟨_, _, i, 0, i, exec_fsScan_short h hi hpass hpre hshort, onlyTailAndMsgs_advance_respond s _ _ _ _,
      answered_discard s _ _ _, hi.le, le_rfl, advance_contents hb _,
      .inr (.inr ⟨.inr rfl, rfl, rfl, rfl⟩)⟩
  · have ⟨hi, _⟩ := hc
    exact ⟨_, _, i, 0, i, exec_fsScan_waits h hc hlen, onlyTailAndMsgs_advance_respond s _ _ _ _,
      answered_discard s _ _ _, hi.le, le_rfl, advance_contents hb _,
      .inr (.inr ⟨.inr rfl, rfl, rfl, rfl⟩)⟩
  · have ⟨hi, _⟩ := hc
    rw [rxCrc_advance Config.crc hb hlen] at hcrc
    exact ⟨_, _, i, 0, i + 1, fsScanWith_rejects Config.crc h hc hlen hcrc, onlyTailAndMsgs_advance_respond s _ _ _ _,
      answered_discard s _ _ _, hi.le, Nat.le_succ i, advance_contents hb _,
      .inr (.inl ⟨rfl, rfl, rfl, rfl⟩)⟩
  · have ⟨hi, _, _, _, hm, _⟩ := hc
    rw [rxCrc_advance Config.crc hb hlen] at hcrc
    exact ⟨_, _, i, m, _, exec_fsScan_accepts h hc hlen hcrc, rfl, answered_accepted _ _ _ _ _ _, hi.le,
      Nat.le_add_right _ _, accepted_contents hb _ _ _ _ _, .inl ⟨rfl, hm⟩⟩

end Sys2Proof.Machine
end

section
/-! Candidates told from the bytes held: a frame behind garbage, and bytes that arrive later (20_memory.md rule R63,
41_frame_scanner.md rules R145, R154, R155). -/

namespace Sys2Proof.Machine

/-! ## Peeking at known contents -/

theorem peek_of_contents {s : State} {b : Buf} {o : Nat} {v : Byte} (h : (s.contents b)[o]? = some v) :
    s.peek b o = v := by
  obtain ⟨hlt, hv⟩ := List.getElem?_eq_some_iff.mp h
  rw [← hv, contents_getElem]

theorem used_of_contents {s : State} {b : Buf} {bytes : List Byte} (h : s.contents b = bytes) :
    s.used b = bytes.length := by
  rw [← contents_length, h]

/-! ## Bytes that arrive later -/

section
variable {s u : State} {more : List Byte}

theorem peek_append {b : Buf} (h : u.contents b = s.contents b ++ more) {o : Nat} (ho : o < s.used b) :
    u.peek b o = s.peek b o := by
  have hlt : o < (s.contents b).length := by rwa [contents_length]
  refine peek_of_contents ?_
  rw [h, List.getElem?_append_left hlt, List.getElem?_eq_getElem hlt, contents_getElem]

theorem used_append {b : Buf} (h : u.contents b = s.contents b ++ more) : u.used b = s.used b + more.length := by
  rw [used_of_contents h, List.length_append, contents_length]

theorem matches_append (hcfg : u.cfg = s.cfg) (h : u.contents .rx = s.contents .rx ++ more) {i : Nat}
    (hi : minFrame ≤ s.used .rx - i) (k : Nat) : u.Matches i k ↔ s.Matches i k := by
  have hlt : i + 4 < s.used .rx := by rw [minFrame] at hi; omega
  simp only [State.Matches, hcfg, peek_append h hlt, peek_append h (show i + 3 < s.used .rx by omega),
    peek_append h (show i + 2 < s.used .rx by omega), peek_append h (show i + 1 < s.used .rx by omega)]

/-- A candidate stays one when bytes are put behind it. -/
theorem candidate_append (hcfg : u.cfg = s.cfg) (h : u.contents .rx = s.contents .rx ++ more) {i m : Nat}
    (hc : s.Candidate i m) : u.Candidate i m := by
  obtain ⟨hi, hpass, hpre, hmin, hm, hmatch, hfirst⟩ := hc
  have hused := used_append h
  refine ⟨by omega, fun j hj hjpre => ?_, by rwa [peek_append h hi], by omega, by rwa [hcfg],
    (matches_append hcfg h hmin m).mpr hmatch, fun k hk => ?_⟩
  · rw [peek_append h (by omega)] at hjpre
    obtain ⟨hlong, hnone⟩ := hpass j hj hjpre
    refine ⟨by omega, fun k hk => ?_⟩
    rw [matches_append hcfg h hlong]
    exact hnone k (by rwa [hcfg] at hk)
  · rw [matches_append hcfg h hmin]
    exact hfirst k hk

end

theorem acceptedLen_le {c : Config} {m : Nat} (hm : m < c.nmsg) : acceptedLen c (c.entry m) ≤ (c.entry m).frameLen := by
  obtain ⟨he, _⟩ := config_entry_ok c hm
  rw [acceptedLen]
  split
  · exact le_rfl
  · rw [CatEntry.frameLen]; omega

/-- An accepted message state depends on the bytes of the frame only. -/
theorem acceptedMsg_append {e : CatEntry} (old : MsgState) {frame : List Byte} (more : List Byte)
    (he : 1 ≤ e.length.toNat) (h : e.frameLen ≤ frame.length) :
    acceptedMsg e old (frame ++ more) = acceptedMsg e old frame := by
  have hpayload := length_payload_of_frame he h
  rw [List.length_take, List.length_drop] at hpayload
  have hhead : headerLen ≤ frame.length := by rw [CatEntry.frameLen] at h; rw [headerLen]; omega
  rw [acceptedMsg, acceptedMsg, List.drop_append_of_le_length hhead,
    List.take_append_of_le_length (by rw [List.length_drop]; omega)]

/-- Settles O47: the candidate stays (`candidate_append`), and neither the remainder nor the payload reaches the byte
behind it. -/
theorem laterBytesDoNotChangeTheFrameFound : Obligations.LaterBytesDoNotChangeTheFrameFound := by
  intro s u i m byte h hc hlen hroom hpush
  have ⟨hp, hvalid, hb⟩ := h
  have ⟨hi, _, _, _, hm, _⟩ := hc
  obtain ⟨he, _⟩ := config_entry_ok s.cfg hm
  obtain ⟨hbu, hcontents⟩ := push_contents (b := .rx) rfl hb hroom hpush
  rw [exec_rbPush (b := .rx) rfl hb] at hpush
  cases hpush
  have hcu := candidate_append (by rfl) hcontents hc
  have hscan : ((s.setRing .rx (pushByte (s.cap .rx) (s.ring .rx) byte)).respond .ok 0#32 []).CanScan :=
    ⟨hp, hvalid, hbu⟩
  have hused := used_append hcontents
  have hall : i + (s.cfg.entry m).frameLen ≤ (s.contents .rx).length := by rw [contents_length]; omega
  have hdrop {n : Nat} (hn : n ≤ (s.contents .rx).length) :
      (s.contents .rx ++ [byte]).drop n = (s.contents .rx).drop n ++ [byte] := List.drop_append_of_le_length hn
  have hframe : ((s.contents .rx ++ [byte]).drop i).take (s.cfg.entry m).frameLen =
      ((s.contents .rx).drop i).take (s.cfg.entry m).frameLen := by
    rw [hdrop (by omega), List.take_append_of_le_length (by rw [List.length_drop]; omega)]
  by_cases hcrc : Config.crc.fn (((s.contents .rx).drop i).take (s.cfg.entry m).frameLen) Config.crc.seed = 0#16
  case pos =>
    have hle := acceptedLen_le hm
    refine ⟨_, _, _, _, exec_fsScan_accepts h hc hlen hcrc,
      exec_fsScan_accepts hscan hcu (hlen.trans (by omega)) (by rw [hcontents]; rwa [← hframe] at hcrc), ?msgs,
      answered_accepted _ _ _ _ _ _, answered_accepted _ _ _ _ _ _, ?bytes⟩
    case msgs =>
      rw [hcontents, hdrop (by omega)]
      have hmsg := acceptedMsg_append (s.msg m) [byte] he
        (show (s.cfg.entry m).frameLen ≤ ((s.contents .rx).drop i).length by rw [List.length_drop]; omega)
      exact congrArg (List.set s.msgs m) hmsg
    case bytes =>
      rw [accepted_contents hbu, accepted_contents hb, hcontents]
      have hbytes := hdrop (n := i + acceptedLen s.cfg (s.cfg.entry m)) (by omega)
      exact hbytes
  case neg =>
    refine ⟨_, _, _, _, fsScanWith_rejects Config.crc h hc hlen hcrc,
      fsScanWith_rejects Config.crc hscan hcu (hlen.trans (by omega)) (by rw [hcontents]; rwa [← hframe] at hcrc), rfl,
      answered_advance_respond _ .rx _ _ _ _, answered_advance_respond _ .rx _ _ _ _, ?bytes⟩
    case bytes =>
      rw [respond_contents, respond_contents, advance_contents hbu, advance_contents hb, hcontents]
      exact hdrop (by rw [contents_length]; omega)

/-! ## A frame behind garbage -/

/-- The header of a frame is one that entry `e` matches (rule R145). -/
def HeaderMatches (e : CatEntry) (dst src len cmd : Byte) : Prop :=
  cmd = e.command ∧ len = e.length ∧ (dst = e.leftDestination ∨ dst = e.rightDestination) ∧
    (src = e.leftSource ∨ src = e.rightSource)

section
variable {s : State} {garbage body : List Byte} {dst src len cmd : Byte}

/-- The five bytes of a header that stands behind `garbage`. -/
theorem peeks_of_header (h : s.contents .rx = garbage ++ ([preamble, dst, src, len, cmd] ++ body)) :
    s.peek .rx garbage.length = preamble ∧ s.peek .rx (garbage.length + 1) = dst ∧
      s.peek .rx (garbage.length + 2) = src ∧ s.peek .rx (garbage.length + 3) = len ∧
      s.peek .rx (garbage.length + 4) = cmd := by
  have hat (j : Nat) : (s.contents .rx)[garbage.length + j]? = ([preamble, dst, src, len, cmd] ++ body)[j]? := by
    rw [h, List.getElem?_append_right (Nat.le_add_right _ _), Nat.add_sub_cancel_left]
  exact ⟨peek_of_contents (hat 0), peek_of_contents (hat 1), peek_of_contents (hat 2), peek_of_contents (hat 3),
    peek_of_contents (hat 4)⟩

theorem matches_of_header (h : s.contents .rx = garbage ++ ([preamble, dst, src, len, cmd] ++ body)) (k : Nat) :
    s.Matches garbage.length k ↔ HeaderMatches (s.cfg.entry k) dst src len cmd := by
  obtain ⟨-, hdst, hsrc, hlen, hcmd⟩ := peeks_of_header h
  rw [State.Matches, hdst, hsrc, hlen, hcmd, HeaderMatches]

/-- A header behind garbage without preambles, with at least one byte behind it, is a candidate for the first entry it
matches. -/
theorem candidate_of_header (h : s.contents .rx = garbage ++ ([preamble, dst, src, len, cmd] ++ body))
    (hbody : body ≠ []) (hgarbage : ∀ g ∈ garbage, g ≠ preamble) {m : Nat} (hm : m < s.cfg.nmsg)
    (hmatch : HeaderMatches (s.cfg.entry m) dst src len cmd)
    (hfirst : ∀ k < m, ¬ HeaderMatches (s.cfg.entry k) dst src len cmd) : s.Candidate garbage.length m := by
  obtain ⟨hpre, -⟩ := peeks_of_header h
  have hused := used_of_contents h
  have hpos := List.length_pos_of_ne_nil hbody
  simp only [List.length_append, List.length_cons, List.length_nil] at hused
  refine ⟨by omega, fun j hj hjpre => ?_, hpre, by rw [minFrame]; omega, hm, (matches_of_header h m).mpr hmatch,
    fun k hk hk' => hfirst k hk ((matches_of_header h k).mp hk')⟩
  have hbyte : (s.contents .rx)[j]? = some garbage[j] := by
    rw [h, List.getElem?_append_left hj, List.getElem?_eq_getElem hj]
  rw [peek_of_contents hbyte] at hjpre
  exact absurd hjpre (hgarbage _ (List.getElem_mem hj))

end

/-- What a scan needs to accept the frame of entry `m` with the given addresses, `payload` and CRC bytes behind
`garbage`. -/
structure FrameHeld (s : State) (m : Nat) (garbage payload rest : List Byte) (dst src hi lo : Byte) : Prop where
  index : m < s.cfg.nmsg
  payloadLen : payload.length = (s.cfg.entry m).payloadLen
  clean : ∀ g ∈ garbage, g ≠ preamble
  fits : HeaderMatches (s.cfg.entry m) dst src (s.cfg.entry m).length (s.cfg.entry m).command
  first : ∀ k < m, ¬ HeaderMatches (s.cfg.entry k) dst src (s.cfg.entry m).length (s.cfg.entry m).command
  held : s.contents .rx = garbage ++
    ([preamble, dst, src, (s.cfg.entry m).length, (s.cfg.entry m).command] ++ payload ++ [hi, lo]) ++ rest
  remainder : Config.crc.fn
    ([preamble, dst, src, (s.cfg.entry m).length, (s.cfg.entry m).command] ++ payload ++ [hi, lo]) Config.crc.seed = 0#16

section
variable {s : State} {m : Nat} {garbage payload rest : List Byte} {dst src hi lo : Byte}

theorem FrameHeld.candidate (h : FrameHeld s m garbage payload rest dst src hi lo) : s.Candidate garbage.length m := by
  refine candidate_of_header (body := payload ++ [hi, lo] ++ rest) ?_ (by simp) h.clean h.index h.fits h.first
  rw [h.held]
  simp only [List.append_assoc]

theorem FrameHeld.frameLen_eq (h : FrameHeld s m garbage payload rest dst src hi lo) :
    ([preamble, dst, src, (s.cfg.entry m).length, (s.cfg.entry m).command] ++ payload ++ [hi, lo]).length =
      (s.cfg.entry m).frameLen := by
  obtain ⟨he, _⟩ := config_entry_ok s.cfg h.index
  simp only [List.length_append, List.length_cons, List.length_nil, h.payloadLen, CatEntry.payloadLen,
    CatEntry.frameLen]
  omega

/-- Behind the garbage the frame stands in full, and its remainder is zero. -/
theorem FrameHeld.complete (h : FrameHeld s m garbage payload rest dst src hi lo) :
    (s.cfg.entry m).frameLen ≤ s.used .rx - garbage.length ∧
      Config.crc.fn (((s.contents .rx).drop garbage.length).take (s.cfg.entry m).frameLen) Config.crc.seed = 0#16 := by
  have hlen := h.frameLen_eq
  have hused := used_of_contents h.held
  rw [List.append_assoc, List.length_append, List.length_append, hlen] at hused
  refine ⟨by omega, ?_⟩
  rw [h.held, List.append_assoc, List.drop_left, ← hlen, List.take_left]
  exact h.remainder

theorem FrameHeld.behind (h : FrameHeld s m garbage payload rest dst src hi lo) :
    (s.contents .rx).drop (garbage.length + (s.cfg.entry m).frameLen) = rest := by
  rw [h.held, ← h.frameLen_eq, ← List.length_append]
  exact List.drop_left

/-- The payload bytes as offsets of the bytes held. -/
theorem FrameHeld.payload_at (h : FrameHeld s m garbage payload rest dst src hi lo) {j : Nat}
    (hj : j < payload.length) : (s.contents .rx)[garbage.length + 5 + j]? = payload[j]? := by
  rw [h.held, List.append_assoc, Nat.add_assoc, List.getElem?_append_right (Nat.le_add_right _ _),
    Nat.add_sub_cancel_left, List.append_assoc, List.append_assoc, List.getElem?_append_right (by simp),
    List.getElem?_append_left (by simpa using hj)]
  simp

end

/-- Settles O45: the frame behind the garbage is a complete candidate (`FrameHeld`), which O42 says is accepted. -/
theorem scanResynchronisesOnGarbage : Obligations.ScanResynchronisesOnGarbage := by
  intro s m garbage rest payload dst src hi lo h hmsgs hm hdst hsrc hlen hfirst hclean hheld hcrc
  have hframe : FrameHeld s m garbage payload rest dst src hi lo :=
    { index := hm, payloadLen := hlen, clean := hclean, fits := ⟨rfl, rfl, hdst, hsrc⟩
      first := fun k hk ⟨hcmd, hl, hd, hs⟩ => hfirst k hk ⟨hcmd.symm, hl.symm, hd, hs⟩
      held := hheld, remainder := hcrc }
  obtain ⟨hcomplete, hzero⟩ := hframe.complete
  obtain ⟨t, ht, -, hanswer, hcontents, -, -, helapsed, -⟩ :=
    scanAcceptsAWholeFrame s garbage.length m h hmsgs hframe.candidate hcomplete hzero
  refine ⟨t, ht, hanswer, helapsed, fun hconsumed => ?_⟩
  rw [hcontents, if_pos hconsumed, hframe.behind]

/-- Settles O46: the scenario's buffer is a frame behind no garbage with nothing behind it. -/
theorem scenarioFrameIsAccepted : Obligations.ScenarioFrameIsAccepted := by
  intro s payload hi lo h hmsgs hn hcmd hls hrs hld hrd hlen hconsumed hpayload hheld hcrc
  have hframe : FrameHeld s 0 [] payload [] 0x51#8 0x81#8 hi lo :=
    { index := hn, payloadLen := by rw [hpayload, CatEntry.payloadLen, hlen]; rfl
      clean := fun g hg => absurd hg List.not_mem_nil
      fits := ⟨rfl, rfl, .inl hld.symm, .inl hls.symm⟩
      first := fun k hk => absurd hk (Nat.not_lt_zero k)
      held := by rw [hheld, hcmd, hlen, List.nil_append, List.append_nil]; rfl
      remainder := by rw [hcmd, hlen]; exact hcrc }
  obtain ⟨hcomplete, hzero⟩ := hframe.complete
  obtain ⟨t, ht, -, hanswer, hcontents, -, -, -, -, hstore, -⟩ :=
    scanAcceptsAWholeFrame s 0 0 h hmsgs hframe.candidate hcomplete hzero
  have hsize : (s.cfg.entry 0).length.toNat - 1 = 20 := by rw [hlen]; rfl
  refine ⟨t, ht, hanswer, ?empty, fun hen => ?stored⟩
  case empty =>
    rw [if_pos hconsumed] at hcontents
    rw [used_of_contents (hcontents.trans hframe.behind)]
    rfl
  case stored =>
    obtain ⟨hlenByte, hbytes, -⟩ := hstore hen
    refine ⟨List.ext_getElem? fun j => ?_, by rw [hlenByte, hlen]; rfl⟩
    by_cases hj : j < 20
    · have hbyte := hbytes j (by omega)
      have hat := hframe.payload_at (j := j) (by omega)
      rw [List.length_nil] at hat
      rw [List.getElem?_map, List.getElem?_range hj, Option.map_some, hbyte, hat]
    · rw [List.getElem?_eq_none (by simp; omega), List.getElem?_eq_none (by omega)]

end Sys2Proof.Machine
end

section
/-! The frame builder: when it turns a build away, what it appends, and the bytes of a word (44_frame_builder.md
sections 1 to 3). -/

namespace Sys2Proof.Machine

/-! ## Builds turned away -/

/-- Settles O52: of the outcomes of `fbBuildWith_cases` only the second has a violated precondition. -/
theorem buildPreconditionsAreEnforced : Obligations.BuildPreconditionsAreEnforced := by
  intro sdi k wnull nw nbf words s hp hbuilder hargs
  refine raised_invalid ?_
  rcases fbBuildWith_cases Config.crc sdi k wnull nw nbf words s with ⟨hright, _⟩ | ⟨_, _, _, hinvalid⟩ |
    ⟨_, _, hok, _⟩ | ⟨_, _, hok, _⟩ | ⟨_, _, hok, _⟩
  · simp [hp, hbuilder] at hright
  · exact hinvalid
  · exact absurd hok hargs
  · exact absurd hok hargs
  · exact absurd hok hargs

/-- Settles O55: of the outcomes of `fbBuildWith_cases` only the third has a word whose bit 31 is set. -/
theorem buildRefusesASetParityBit : Obligations.BuildRefusesASetParityBit := by
  intro sdi k wnull nw nbf words s hp hbuilder hargs hset
  have hnot (hclear : ∀ w ∈ words, w.getLsbD 31 = false) : False := by
    obtain ⟨w, hw, hbit⟩ := hset
    rw [hclear w hw] at hbit
    cases hbit
  rcases fbBuildWith_cases Config.crc sdi k wnull nw nbf words s with ⟨hright, _⟩ | ⟨_, _, hno, _⟩ |
    ⟨_, _, _, _, hrefused⟩ | ⟨_, _, _, hclear, _⟩ | ⟨_, _, _, hclear, _⟩
  · simp [hp, hbuilder] at hright
  · exact absurd hargs hno
  · exact hrefused
  · exact (hnot hclear).elim
  · exact (hnot hclear).elim

theorem sidePair_left (e : CatEntry) {sdi : BitVec 4} (h : sdi ≠ 3#4) :
    sidePair e sdi = (e.leftDestination, e.leftSource) := if_neg h

/-- A build depends on its SDI by the address pair it selects and by whether it is at most 3. -/
theorem exec_fbBuild_congr {sdi sdi' : BitVec 4} (hpair : ∀ e, sidePair e sdi = sidePair e sdi') (hle : sdi.toNat ≤ 3)
    (hle' : sdi'.toNat ≤ 3) (k : BitVec 8) (wnull : Bool) (nw : BitVec 8) (nbf : Word) (words : List Word) (s : State) :
    exec (.fbBuild sdi k wnull nw nbf words) s = exec (.fbBuild sdi' k wnull nw nbf words) s := by
  simp only [exec, execFbBuild, fbBuildWith, buildAllowed, frameBody, frameHeader, hpair, decide_eq_true hle,
    decide_eq_true hle']

/-- Settles O54: SDI 0, 1 and 2 select the left pair. -/
theorem unnamedSdiFallsBackToTheLeft : Obligations.UnnamedSdiFallsBackToTheLeft := by
  intro k wnull nw nbf words s
  have hpair {sdi : BitVec 4} (h : sdi ≠ 3#4) (e : CatEntry) : sidePair e sdi = sidePair e 0#4 := by
    rw [sidePair_left e h, sidePair_left e (by decide)]
  exact ⟨exec_fbBuild_congr (hpair (by decide)) (by decide) (by decide) k wnull nw nbf words s,
    exec_fbBuild_congr (hpair (by decide)) (by decide) (by decide) k wnull nw nbf words s⟩

/-! ## What a build appends -/

theorem frameRegion_length (s : State) (sdi : BitVec 4) (k : Nat) (ws : List Word) :
    (frameRegion s sdi k ws).length = 5 + 4 * ws.length := by
  rw [← frameBody_eq, frameBody_length]

section
variable {sdi : BitVec 4} {k : BitVec 8} {wnull : Bool} {nw : BitVec 8} {nbf : Word} {words : List Word} {s : State}

/-- The whole frame of a build (rules R201 to R203). -/
def builtFrame (s : State) (sdi : BitVec 4) (k : BitVec 8) (words : List Word) : List Byte :=
  sealed Config.crc (frameRegion s sdi k.toNat (words.map oddStamp))

theorem builtFrame_length : (builtFrame s sdi k words).length = 7 + 4 * words.length := by
  rw [builtFrame, sealed_length, frameRegion_length, List.length_map]
  omega

/-- The bytes a build takes from its scratch into `TX` (rule R205). -/
def builtSource (s : State) (sdi : BitVec 4) (k : BitVec 8) (nbf : Word) (words : List Word) : List Byte :=
  flushSource s.builds (builtFrame s sdi k words) nbf.toNat

/-- The state a build leaves. -/
def built (s : State) (sdi : BitVec 4) (k : BitVec 8) (nbf : Word) (words : List Word) : State :=
  ({ s.setRing .tx (flushIn (s.cap .tx) s.tx (builtSource s sdi k nbf words) nbf.toNat).ring with
    builds := s.builds + 1 }).respond .ok
      (valOfNat (flushIn (s.cap .tx) s.tx (builtSource s sdi k nbf words) nbf.toNat).count) []

theorem exec_fbBuild (hp : s.port = .M) (hbuilder : s.cfg.hasBuilder = true) (hargs : BuildArgsOk s sdi k wnull nw nbf)
    (hwords : ∀ w ∈ words, w.getLsbD 31 = false) (hb : s.bufOk .tx) :
    exec (.fbBuild sdi k wnull nw nbf words) s = .next (built s sdi k nbf words) :=
  fbBuildWith_builds Config.crc hp hbuilder hargs hwords hb

/-- A build within the builder's maximum fits `TX`. -/
theorem nbf_le_cap (hargs : BuildArgsOk s sdi k wnull nw nbf) : nbf.toNat ≤ s.cap .tx := by
  obtain ⟨-, -, -, hmax, -⟩ := hargs
  obtain ⟨-, -, -, -, -, -, -, -, hcap⟩ := config_sizes s.cfg
  exact hmax.trans hcap

theorem built_contents (hb : s.bufOk .tx) (hn : nbf.toNat ≤ s.cap .tx) :
    (built s sdi k nbf words).contents .tx =
      s.contents .tx ++ (builtSource s sdi k nbf words).take (s.free .tx) := by
  obtain ⟨hhead, htail⟩ := bufOk_cursors hb
  exact ringContents_flushIn _ _ _ _ _ hhead htail hn (flushSource_length _ _ _)

/-- Of the bytes appended, those of the frame stand in the frame's order. -/
theorem builtSource_take (n : Nat) :
    ((builtSource s sdi k nbf words).take n).take (builtFrame s sdi k words).length =
      (builtFrame s sdi k words).take (min nbf.toNat n) := by
  rw [List.take_take, Nat.min_comm, ← List.take_take, builtSource, flushSource_take, List.take_take, Nat.min_comm]

/-- Settles O53: the source is the frame (`builtSource_take`), and `FlushIn` appends what fits of it. -/
theorem buildFlushesTheSealedFrame : Obligations.BuildFlushesTheSealedFrame := by
  intro sdi k wnull nw nbf words s hp hbuilder hargs hlen hwords hb
  obtain ⟨hhead, htail⟩ := bufOk_cursors hb
  have hn := nbf_le_cap hargs
  have hflushed : ((builtSource s sdi k nbf words).take (s.free .tx)).length = min nbf.toNat (s.free .tx) := by
    rw [List.length_take, builtSource, flushSource_length, Nat.min_comm]
  refine ⟨built s sdi k nbf words, (builtSource s sdi k nbf words).take (s.free .tx), exec_fbBuild hp hbuilder hargs
    hwords hb, rfl, rfl, flushIn_tail hhead htail _, built_contents hb hn, hflushed, ?size, ?bytes, ?answer,
    fun p hslots => ?rest⟩
  case size => exact builtFrame_length.trans (by rw [hlen])
  case bytes =>
    rw [hflushed]
    exact builtSource_take _
  case answer =>
    have hcount : (flushIn (s.cap .tx) s.tx (builtSource s sdi k nbf words) nbf.toNat).count =
        min nbf.toNat (s.free .tx) := flushIn_count hhead htail _ hn
    rw [hflushed, ← hcount]
    exact answered_of_eq rfl rfl
  case rest =>
    rw [hflushed] at hslots
    exact byteAt_flushIn_other _ hhead htail _ hslots

end

/-! ## The bytes of a word -/

theorem join_four_bytes (w : Word) :
    w.extractLsb' 24 8 ++ w.extractLsb' 16 8 ++ w.extractLsb' 8 8 ++ w.extractLsb' 0 8 = w := by
  have h1 : w.extractLsb' 24 8 ++ w.extractLsb' 16 8 = w.extractLsb' 16 16 :=
    BitVec.extractLsb'_append_extractLsb'_eq_extractLsb' rfl
  have h2 : w.extractLsb' 16 16 ++ w.extractLsb' 8 8 = w.extractLsb' 8 24 :=
    BitVec.extractLsb'_append_extractLsb'_eq_extractLsb' rfl
  rw [h1, h2]
  exact BitVec.extractLsb'_append_extractLsb' (w := 24) (len := 8)

section
variable (b3 b2 b1 b0 : Byte)

theorem byte_0_of_four : (b3 ++ b2 ++ b1 ++ b0).extractLsb' 0 8 = b0 := BitVec.extractLsb'_append_eq_right

theorem byte_1_of_four : (b3 ++ b2 ++ b1 ++ b0).extractLsb' 8 8 = b1 :=
  (BitVec.extractLsb'_append_eq_of_le (by decide)).trans BitVec.extractLsb'_append_eq_right

theorem byte_2_of_four : (b3 ++ b2 ++ b1 ++ b0).extractLsb' 16 8 = b2 :=
  (BitVec.extractLsb'_append_eq_of_le (by decide)).trans
    ((BitVec.extractLsb'_append_eq_of_le (by decide)).trans BitVec.extractLsb'_append_eq_right)

theorem byte_3_of_four : (b3 ++ b2 ++ b1 ++ b0).extractLsb' 24 8 = b3 :=
  (BitVec.extractLsb'_append_eq_of_le (by decide)).trans
    ((BitVec.extractLsb'_append_eq_of_le (by decide)).trans BitVec.extractLsb'_append_eq_left)

end

/-- The bytes of a word, first to last, joined again. -/
theorem wordOf_wordBytes (msbFirst : Bool) (w : Word) :
    ∃ b0 b1 b2 b3, wordBytes msbFirst w = [b0, b1, b2, b3] ∧ wordOf msbFirst b0 b1 b2 b3 = w := by
  cases msbFirst <;> exact ⟨_, _, _, _, rfl, join_four_bytes w⟩

theorem wordBytes_wordOf (msbFirst : Bool) (b0 b1 b2 b3 : Byte) :
    wordBytes msbFirst (wordOf msbFirst b0 b1 b2 b3) = [b0, b1, b2, b3] := by
  cases msbFirst <;>
    simp only [wordBytes, wordOf, if_true, if_false, Bool.false_eq_true, byte_0_of_four, byte_1_of_four, byte_2_of_four,
      byte_3_of_four, List.reverse_cons, List.reverse_nil, List.nil_append, List.cons_append]

/-- Settles O57: the bytes of a word joined are the word, and four bytes joined have those bytes. -/
theorem wordReconstructionInvertsTheSplit : Obligations.WordReconstructionInvertsTheSplit :=
  fun msbFirst => ⟨wordOf_wordBytes msbFirst, wordBytes_wordOf msbFirst⟩

end Sys2Proof.Machine
end

section
/-! The round trip of rule R207: a frame built into an empty `TX`, moved to an empty `RX` and scanned. -/

namespace Sys2Proof.Machine

/-! ## The frame and its words -/

/-- The payload region of a build, as `wordBytes` writes it. -/
def builtPayload (s : State) (words : List Word) : List Byte :=
  (words.map oddStamp).flatMap (wordBytes s.cfg.wordMsbFirst)

theorem builtPayload_length (s : State) (words : List Word) : (builtPayload s words).length = 4 * words.length := by
  rw [builtPayload, flatMap_wordBytes_length, List.length_map]

/-- The built frame as header, payload and two CRC bytes, whose remainder is zero (law L3). -/
theorem builtFrame_eq (s : State) (sdi : BitVec 4) (k : BitVec 8) (words : List Word) : ∃ hi lo : Byte,
    builtFrame s sdi k words =
      [preamble, (sidePair (s.cfg.entry k.toNat) sdi).1, (sidePair (s.cfg.entry k.toNat) sdi).2,
        (s.cfg.entry k.toNat).length, (s.cfg.entry k.toNat).command] ++ builtPayload s words ++ [hi, lo] ∧
    Config.crc.fn (builtFrame s sdi k words) Config.crc.seed = 0#16 := by
  refine ⟨highByte (Config.crc.fn (frameRegion s sdi k.toNat (words.map oddStamp)) Config.crc.seed),
    lowByte (Config.crc.fn (frameRegion s sdi k.toNat (words.map oddStamp)) Config.crc.seed), ?_, Config.crc.sealing _⟩
  rw [builtFrame, ← frameBody_eq]
  rfl

/-- The pair an SDI selects is one its entry matches. -/
theorem headerMatches_sidePair (e : CatEntry) (sdi : BitVec 4) :
    HeaderMatches e (sidePair e sdi).1 (sidePair e sdi).2 e.length e.command := by
  rw [sidePair]
  split
  · exact ⟨rfl, rfl, .inr rfl, .inr rfl⟩
  · exact ⟨rfl, rfl, .inl rfl, .inl rfl⟩

/-- The four bytes of each word stand at four times its index. -/
theorem flatMap_wordBytes_at (msbFirst : Bool) {x : Word} {i : Nat} (hi : i < 4) : ∀ {ws : List Word} {j : Nat},
    ws[j]? = some x → (ws.flatMap (wordBytes msbFirst))[4 * j + i]? = (wordBytes msbFirst x)[i]? := by
  intro ws
  induction ws with
  | nil => intro j h; cases h
  | cons y ys ih =>
    intro j h
    rw [List.flatMap_cons]
    cases j with
    | zero =>
      obtain rfl : y = x := by simpa using h
      rw [List.getElem?_append_left (by rw [wordBytes_length]; omega), Nat.mul_zero, Nat.zero_add]
    | succ j =>
      rw [List.getElem?_append_right (by rw [wordBytes_length]; omega), wordBytes_length,
        show 4 * (j + 1) + i - 4 = 4 * j + i by omega]
      exact ih (by simpa using h)

theorem flushSource_exact (build : Nat) (frame : List Byte) : flushSource build frame frame.length = frame := by
  have htake := flushSource_take build frame frame.length
  rwa [List.take_of_length_le (flushSource_length _ _ _).le, List.take_length] at htake

/-! ## Building into an empty buffer -/

theorem free_of_empty {s : State} {b : Buf} (h : s.contents b = []) : s.free b = s.cap b - 1 := by
  have hused : Machine.used (s.cap b) (s.ring b) = 0 := used_of_contents h
  rw [State.free, Machine.free, hused, Nat.sub_zero]

/-- A build of exactly its frame into an empty `TX` that has room leaves the frame there. -/
theorem built_into_empty {s : State} {sdi : BitVec 4} {k : BitVec 8} {nbf : Word} {words : List Word} (hb : s.bufOk .tx)
    (hempty : s.contents .tx = []) (hn : nbf.toNat = (builtFrame s sdi k words).length)
    (hroom : nbf.toNat ≤ s.cap .tx - 1) :
    (built s sdi k nbf words).contents .tx = builtFrame s sdi k words := by
  rw [built_contents hb (by omega), hempty, List.nil_append, free_of_empty hempty, builtSource, hn, flushSource_exact,
    List.take_of_length_le (by omega)]

/-! ## Moving what `TX` holds to `RX` -/

/-- All of what `TX` holds, copied out and copied into an empty `RX` that has room. -/
theorem move_tx_to_rx {s : State} {n : Word} {bytes : List Byte} (hs : CursorsOk s) (htx : s.contents .tx = bytes)
    (hrx : s.contents .rx = []) (hn : bytes.length = n.toNat) (hroom : bytes.length ≤ s.cap .rx - 1) :
    ∃ t u, exec (.rbFout 1#4 n) s = .next t ∧ Answered s t .ok n bytes ∧ exec (.rbFin 0#4 n bytes) t = .next u ∧
      u.contents .rx = bytes ∧ CursorsOk u ∧ u.cfg = s.cfg ∧ u.msgs = s.msgs ∧ u.port = s.port := by
  have hused := used_of_contents htx
  have hlt := used_lt_cap (hs .tx)
  have hfout := exec_rbFout_fits (buf := 1#4) (b := .tx) rfl (hs .tx) (n := n) (by omega)
  rw [htx, ← hn, hused, Nat.min_self, hn, BitVec.ofNat_toNat, BitVec.setWidth_eq, ← hn, List.take_length] at hfout
  have ht := exec_keeps_cursorsOk hs hfout
  have hfin := exec_rbFin (buf := 0#4) (b := .rx) (s := (s.advance .tx bytes.length).respond .ok n bytes) rfl n bytes
  obtain ⟨-, hcontents⟩ := fin_contents rfl (ht .rx) hn (hroom.trans_eq (free_of_empty hrx).symm) hfin
  refine ⟨_, _, hfout, answered_advance_respond s .tx _ _ _ _, hfin, ?_, exec_keeps_cursorsOk ht hfin, rfl, rfl, rfl⟩
  have hkept : ((s.advance .tx bytes.length).respond .ok n bytes).contents .rx = s.contents .rx := rfl
  rw [hcontents, hkept, hrx, List.nil_append]

/-! ## Scanning it -/

theorem exists_first {P : Nat → Prop} {k : Nat} (h : P k) : ∃ m ≤ k, P m ∧ ∀ j < m, ¬ P j := by
  classical
  exact ⟨Nat.find ⟨k, h⟩, Nat.find_min' _ h, Nat.find_spec ⟨k, h⟩, fun j hj => Nat.find_min ⟨k, h⟩ hj⟩

/-- A built frame alone in `RX` is held there for the first entry its header matches. -/
theorem frameHeld_of_built {s u : State} {sdi : BitVec 4} {k : BitVec 8} {words : List Word} (hk : k.toNat < s.cfg.nmsg)
    (hsize : 4 * words.length = (s.cfg.entry k.toNat).payloadLen) (hcfg : u.cfg = s.cfg)
    (hheld : u.contents .rx = builtFrame s sdi k words) :
    ∃ m ≤ k.toNat, ∃ hi lo, FrameHeld u m [] (builtPayload s words) [] (sidePair (s.cfg.entry k.toNat) sdi).1
      (sidePair (s.cfg.entry k.toNat) sdi).2 hi lo := by
  obtain ⟨hi, lo, hframe, hzero⟩ := builtFrame_eq s sdi k words
  obtain ⟨m, hmk, hfits, hfirst⟩ := exists_first (P := fun j => HeaderMatches (s.cfg.entry j)
    (sidePair (s.cfg.entry k.toNat) sdi).1 (sidePair (s.cfg.entry k.toNat) sdi).2 (s.cfg.entry k.toNat).length
    (s.cfg.entry k.toNat).command) (headerMatches_sidePair _ _)
  have ⟨hcmd, hlen, _, _⟩ := hfits
  refine ⟨m, hmk, hi, lo, ?_⟩
  exact
    { index := by rw [hcfg]; omega
      payloadLen := by rw [builtPayload_length, hsize, hcfg, CatEntry.payloadLen, CatEntry.payloadLen, hlen]
      clean := fun g hg => absurd hg List.not_mem_nil
      fits := by rw [hcfg, ← hlen, ← hcmd]; exact hfits
      first := by rw [hcfg, ← hlen, ← hcmd]; exact hfirst
      held := by rw [hheld, hframe, hcfg, ← hlen, ← hcmd, List.nil_append, List.append_nil]
      remainder := by rw [hcfg, ← hlen, ← hcmd, ← hframe]; exact hzero }

/-- Where the payload store holds a built payload, four bytes of it joined are the stamped word. -/
theorem wordOf_builtPayload {s t : State} {m : Nat} {words : List Word}
    (hbytes : ∀ j < (builtPayload s words).length, some (t.payloadByte m j) = (builtPayload s words)[j]?)
    {j : Nat} {x : Word} (hx : words[j]? = some x) :
    wordOf s.cfg.wordMsbFirst (t.payloadByte m (4 * j)) (t.payloadByte m (4 * j + 1))
      (t.payloadByte m (4 * j + 2)) (t.payloadByte m (4 * j + 3)) = oddStamp x := by
  obtain ⟨b0, b1, b2, b3, hsplit, hjoin⟩ := wordOf_wordBytes s.cfg.wordMsbFirst (oddStamp x)
  obtain ⟨hj, -⟩ := List.getElem?_eq_some_iff.mp hx
  have hat {i : Nat} (hi : i < 4) : some (t.payloadByte m (4 * j + i)) = [b0, b1, b2, b3][i]? := by
    rw [hbytes _ (by rw [builtPayload_length]; omega), ← hsplit]
    exact flatMap_wordBytes_at _ hi (by rw [List.getElem?_map, hx]; rfl)
  have h0 : t.payloadByte m (4 * j) = b0 := Option.some.inj (hat (i := 0) (by decide))
  have h1 : t.payloadByte m (4 * j + 1) = b1 := Option.some.inj (hat (i := 1) (by decide))
  have h2 : t.payloadByte m (4 * j + 2) = b2 := Option.some.inj (hat (i := 2) (by decide))
  have h3 : t.payloadByte m (4 * j + 3) = b3 := Option.some.inj (hat (i := 3) (by decide))
  rw [h0, h1, h2, h3, hjoin]

/-- Settles O58: the frame built (`built_into_empty`) and moved (`move_tx_to_rx`) is held in `RX`
(`frameHeld_of_built`), so that O42 says it is accepted and its payload stored; four bytes of it joined are a word
(`wordOf_builtPayload`). -/
theorem builtFrameRoundTrips : Obligations.BuiltFrameRoundTrips := by
  intro sdi k wnull nw nbf words s hp hbuilder hargs hlen hwords hrx htx hmsgs htxEmpty hrxEmpty hnbf hsize hroom
  have ⟨hvalid, hk, _⟩ := hargs
  obtain ⟨hlow, hfits, -⟩ := config_entry_ok s.cfg hk
  have hframeLen : (builtFrame s sdi k words).length = nbf.toNat := by rw [builtFrame_length, hlen, hnbf]
  have hroomRx : (builtFrame s sdi k words).length ≤ s.cap .rx - 1 := by
    rw [CatEntry.frameLen] at hfits
    have hcap : s.cap .rx = s.cfg.capRx := rfl
    omega
  have hbuild := exec_fbBuild hp hbuilder hargs hwords htx
  have hs : CursorsOk s := fun b => by cases b <;> assumption
  obtain ⟨s2, s3, hfout, hcopied, hfin, hheld, hs3, hcfg3, hmsgs3, hport3⟩ :=
    move_tx_to_rx (exec_keeps_cursorsOk hs hbuild) (built_into_empty htx htxEmpty hframeLen.symm hroom) hrxEmpty
      hframeLen hroomRx
  have hcfg : s3.cfg = s.cfg := hcfg3
  have hscan : s3.CanScan := ⟨hport3.trans hp, by rwa [hcfg], hs3 .rx⟩
  obtain ⟨m, hmk, hi, lo, hframe⟩ := frameHeld_of_built hk (by rw [hlen]; exact hsize) hcfg hheld
  obtain ⟨hcomplete, hcrc⟩ := hframe.complete
  have ⟨_, _, _, _, _, hmatch, hfirst⟩ := hframe.candidate
  obtain ⟨s4, hexec, -, hanswer, -, -, -, -, -, hstore, -⟩ :=
    scanAcceptsAWholeFrame s3 0 m hscan (by rw [hmsgs3, hcfg]; exact hmsgs) hframe.candidate hcomplete hcrc
  rw [Nat.zero_mul, Nat.zero_add] at hanswer
  refine ⟨_, s2, s3, s4, _, m, hbuild, hfout, hcopied, hfin, hexec, hanswer, hmk, hmatch, hfirst,
    fun hen j x hx => ?stamped⟩
  case stamped =>
    obtain ⟨-, hbytes, -⟩ := hstore (by rwa [hcfg])
    refine wordOf_builtPayload (fun i hi => ?_) hx
    have hat := hframe.payload_at hi
    rw [List.length_nil] at hat
    rw [hbytes i (by rw [hframe.payloadLen] at hi; exact hi), hat]

end Sys2Proof.Machine
end
